-- ==== Sys2Proof/Word.lean ====
section
/-! DEFINITION. The word types of the Huffman frequency analyzer (00_scope.md R8, R9, R10) and the two record
types its memories NODE and CT hold (10_state.md R34, R36). -/

namespace Sys2Proof

/-- A byte, which is also a symbol of the input alphabet (00_scope.md R8, 20_memory.md R51). -/
abbrev Byte := BitVec 8

/-- A register of the host port, a length, an FT counter (00_scope.md R8: LEN_BITS = CNT_BITS = 32). -/
abbrev Word := BitVec 32

/-- A node index, IDX_BITS = 16 (00_scope.md R8). -/
abbrev NodeIdx := BitVec 16

/-- "No node", 0xFFFF (00_scope.md R8, the glossary's NIL). -/
def nil : NodeIdx := 0xFFFF

/-- A bit-string: a sequence of bits, first bit first (00_scope.md R10). -/
abbrev BitString := List Bool

/-- The kind bit of a NODE record: 0 = Leaf, 1 = Internal (10_state.md R34). -/
inductive NodeKind where
  | leaf
  | internal
deriving DecidableEq, Repr, Inhabited

/-- One NODE record (10_state.md R34). `left` and `right` are node indices or `nil`. -/
structure NodeRec where
  kind  : NodeKind
  sym   : Byte
  freq  : BitVec 40
  left  : NodeIdx
  right : NodeIdx
deriving DecidableEq, Repr, Inhabited

/-- One CT record (10_state.md R36). `len` = 0: the symbol has no entry. Bit position j of the field `bits`
(code bit j for j < len) is bit j of the vector. -/
structure CtRec where
  len  : Byte
  bits : BitVec 256
deriving DecidableEq, Repr, Inhabited

end Sys2Proof
end

