-- ==== Sys2Proof/Syntax.lean ====
section
/-! DEFINITION. The command set: one constructor for each row of spec/opcode_table.json (30_encoding.md R72).
No command carries an operand: every operand is a state element the command's rule names (R70, R71). -/

namespace Sys2Proof

/-- The ten commands of 30_encoding.md R72. -/
inductive Instr where
  | clr
  | freq
  | build
  | gencode
  | encode
  | frame
  | parse
  | decode
  | compress
  | decompress
deriving DecidableEq, Repr

end Sys2Proof
end

