-- ==== Sys2Proof/WellFormed.lean ====
section
/-! DEFINITION. What a well-formed command word is (30_encoding.md R70, R72, R73), and the same of a command
as syntax: a command has no operand field, so nothing of it can be ill-formed (R71). -/

namespace Sys2Proof

/-- The field ZERO, bits [7:4] of a command word (30_encoding.md R70). -/
def CmdWord.zero (b : Byte) : BitVec 4 := b.extractLsb' 4 4

/-- The field OPC, bits [3:0] of a command word (30_encoding.md R70). -/
def CmdWord.opc (b : Byte) : BitVec 4 := b.extractLsb' 0 4

/-- First check: "must be 0000" (30_encoding.md R70). -/
def CmdWord.zeroOk (b : Byte) : Bool := CmdWord.zero b == 0

/-- Second check: the operation code has a row in 30_encoding.md R72. -/
def CmdWord.opcOk (b : Byte) : Bool := (CmdWord.opc b).toNat ≤ 9

/-- A command word that is not reserved (30_encoding.md R73). -/
def CmdWord.wellFormed (b : Byte) : Bool := CmdWord.zeroOk b && CmdWord.opcOk b

/-- Every command is well-formed as syntax: it has no register field, no immediate, no mode (30_encoding.md R70). -/
def Instr.wellFormed : Instr → Bool
  | .clr => true
  | .freq => true
  | .build => true
  | .gencode => true
  | .encode => true
  | .frame => true
  | .parse => true
  | .decode => true
  | .compress => true
  | .decompress => true

end Sys2Proof
end

