-- ==== Sys2Proof/Decode.lean ====
section
/-! DEFINITION. Decoding a command word, total on the 256 byte values (30_encoding.md R70 to R73), and the
encoder, written from the same map. -/

namespace Sys2Proof

/-- Why a command word is reserved (30_encoding.md R73). -/
inductive IllegalWord where
  /-- ZERO = 0 and OPC = 1010 to 1111. -/
  | reservedOpc (opc : BitVec 4)
  /-- ZERO is not 0000. -/
  | zeroFieldSet (zero : BitVec 4)
deriving DecidableEq, Repr

/-- The command an operation code stands for (30_encoding.md R72). -/
def decodeOpc (opc : BitVec 4) : Option Instr :=
  match opc.toNat with
  | 0 => some .clr
  | 1 => some .freq
  | 2 => some .build
  | 3 => some .gencode
  | 4 => some .encode
  | 5 => some .frame
  | 6 => some .parse
  | 7 => some .decode
  | 8 => some .compress
  | 9 => some .decompress
  | _ => none

/-- Decoding of a command word: "ten decode to a command, 246 decode to illegal" (30_encoding.md R73). -/
def decodeWord (b : Byte) : Except IllegalWord Instr :=
  if CmdWord.zero b ≠ 0 then .error (.zeroFieldSet (CmdWord.zero b))
  else match decodeOpc (CmdWord.opc b) with
    | some i => .ok i
    | none => .error (.reservedOpc (CmdWord.opc b))

/-- The command word of a value written to CMD: v[7:0], "bits [31:8] of the written word are ignored"
(10_state.md R23). -/
def cmdByte (v : Word) : Byte := v.setWidth 8

/-- The operation code of a command (30_encoding.md R72). -/
def encodeOpc : Instr → BitVec 4
  | .clr => 0b0000
  | .freq => 0b0001
  | .build => 0b0010
  | .gencode => 0b0011
  | .encode => 0b0100
  | .frame => 0b0101
  | .parse => 0b0110
  | .decode => 0b0111
  | .compress => 0b1000
  | .decompress => 0b1001

/-- The command word of a command: ZERO = 0000, then OPC (30_encoding.md R70). -/
def encode (i : Instr) : Byte := (0#4 ++ encodeOpc i : BitVec 8)

/-- What the decoder reads from an instruction whose bits are `w`, bit 0 the least significant bit of the
command word, the bits from `nbits` up being 0. A command is one byte, the low byte of the word written to CMD
(10_state.md R23), and `nbits` is 8 in every row of the table. -/
def decodeTableWord (nbits w : Nat) : Option Instr :=
  match decodeWord (cmdByte (BitVec.ofNat 32 (w % 2 ^ nbits))) with
  | .ok i => some i
  | .error _ => none

end Sys2Proof
end

