-- ==== Sys2Proof/Config.lean ====
section
/-! DEFINITION. What an implementation fixes (00_scope.md R8) and the free values: the values the spec leaves
unspecified, each an opaque constant about which nothing can be proved. -/

namespace Sys2Proof

/-- The parameters a model takes as arguments (00_scope.md R8; 92_eei_decisions.md D4, D9): the capacities of
the byte memories, at most 2^32 - 1 by their type, and the magic marker of a container. -/
structure Config where
  srcCap : Word
  dstCap : Word
  payCap : Word
  magic  : Vector Byte 4
deriving DecidableEq, Repr

/-- The defaults of 00_scope.md R8: 2^32 - 1 bytes each, MAGIC = 48 55 46 01 (30_encoding.md R85). -/
def Config.default : Config where
  srcCap := 0xFFFFFFFF
  dstCap := 0xFFFFFFFF
  payCap := 0xFFFFFFFF
  magic  := #v[0x48, 0x55, 0x46, 0x01]

/-- The three byte memories (20_memory.md R50). -/
inductive BufferId where
  | src
  | dst
  | pay
deriving DecidableEq, Repr, Inhabited

/-- FREE VALUE (Log 3; 10_state.md R45, 70_reset_and_hazards.md R231): what byte `addr` of memory `b` holds when
nothing has written it since its contents became unspecified for the `gen`-th time. -/
opaque Config.ramByte : (b : BufferId) → (gen addr : Nat) → Byte

/-- FREE VALUE (Log 4; 20_memory.md R57): the byte the host gets back from its `k`-th read of an unspecified
element of SRC, DST or PAY. -/
opaque Config.drawByte : (k : Nat) → Byte

/-- FREE VALUE (Log 4; 20_memory.md R57): the record the host gets back from its `k`-th read of an unspecified
element, of NODE. -/
opaque Config.drawNode : (k : Nat) → NodeRec

/-- FREE VALUE (Log 6): what ERRINFO holds when the diagnostic value is `n` and `n` does not fit the 32 bits of
the register (10_state.md R26 against the bit index of 44_bit_decode.md R151). -/
opaque Config.errInfoWide : (n : Nat) → Word

end Sys2Proof
end

