-- ==== Sys2Proof/Machine/State.lean ====
section
/-! DEFINITION. The state of one HFA instance as plain data (10_state.md R20), the host's moves
(70_reset_and_hazards.md R241), the reasons a step can stop, and the state after reset (10_state.md R45). -/

namespace Sys2Proof.Machine

/-- STATUS, register 1 (10_state.md R24). -/
structure Status where
  done  : Bool
  err   : Bool
  empty : Bool
deriving DecidableEq, Repr

/-- ERR, register 2 (10_state.md R25). -/
structure ErrReg where
  kind : BitVec 4
  sub  : BitVec 4
  op   : Byte
deriving DecidableEq, Repr

/-- A byte memory. `cells` lists the bytes written since the contents last became unspecified, addresses
strictly rising; an unlisted address holds the free value `Config.ramByte _ gen address` (Log 3). -/
structure Buffer where
  cells : List Host.Cell
  gen   : Nat
deriving DecidableEq, Repr

/-- A window element the host reads (10_state.md R44: windows W0 to W5; 20_memory.md R50: the index widths). -/
inductive WindowAddr where
  | src (off : Word)
  | dst (off : Word)
  | pay (off : Word)
  | ft (sym : Byte)
  | ct (sym : Byte)
  | node (idx : NodeIdx)
deriving DecidableEq, Repr

/-- A window element the host writes and the value it writes. -/
inductive WindowWrite where
  | src (off : Word) (v : Byte)
  | dst (off : Word) (v : Byte)
  | pay (off : Word) (v : Byte)
  | ft (sym : Byte) (v : Word)
  | ct (sym : Byte) (v : CtRec)
  | node (idx : NodeIdx) (v : NodeRec)
deriving DecidableEq, Repr

/-- The host's moves: "all the things the host can do to an HFA instance" (70_reset_and_hazards.md R241).
A write of register 0 is a write of CMD. -/
inductive HostMove where
  | reset
  | readReg (n : BitVec 4)
  | writeReg (n : BitVec 4) (v : Word)
  | readWindow (a : WindowAddr)
  | writeWindow (w : WindowWrite)
deriving DecidableEq, Repr

/-- What the host's last move gave back to it (70_reset_and_hazards.md R241, "what the host gets back"). -/
inductive HostReply where
  | nothing
  | word (v : Word)
  | byte (v : Byte)
  | code (v : CtRec)
  | record (v : NodeRec)
deriving DecidableEq, Repr

/-- The complete state (10_state.md R20), then the model's own fields. -/
structure State where
  status  : Status
  err     : ErrReg
  errInfo : Word
  srcLen  : Word
  dstLen  : Word
  payLen  : Word
  pad     : BitVec 3
  root    : NodeIdx
  nodeCnt : BitVec 17
  src     : Buffer
  dst     : Buffer
  pay     : Buffer
  ft      : Vector Word 256
  /-- The NODE records in use, NODE[0] first; the records from NODE_CNT up are unspecified (R35) and not held (Log 7). -/
  node    : List NodeRec
  ct      : Vector CtRec 256
  /-- Model's own: the parameters of the machine, changed by nothing (10_state.md R46; Log 2). -/
  cfg     : Config
  /-- Model's own: the host's pending moves, oldest first (Log 1). -/
  host    : List HostMove
  /-- Model's own: what the host's last move gave back (Log 12). -/
  reply   : HostReply
  /-- Model's own: how many unspecified values the host has read, argument of the free values (Log 4). -/
  draws   : Nat
deriving DecidableEq, Repr

/-- The six units (00_scope.md R2), U4 and U6 by direction: one for each unit command. -/
inductive UnitId where
  | freq
  | build
  | gencode
  | encode
  | frame
  | parse
  | decode
deriving DecidableEq, Repr

/-- The recorded faults: one constructor for each row of 60_exceptions.md R208. These are no stops of the
machine: a command that meets one ends with STATUS.ERR = 1. -/
inductive FaultCause where
  | missingCode
  | badMagic
  | shortHeader
  | zeroCodeLen
  | duplicateSymbol
  | notPrefixFree
  | badPadding
  | lengthMismatch
  | padExceedsPayload
  | badPath
  | truncatedStream
  | capacityPay
  | capacityDst
  | emptyTable
  | noTree
  | illegalCommand
deriving DecidableEq, Repr

/-- The stops of the model. All are safe: they are met only in states outside the invariants of 10_state.md R39,
which no run from reset reaches (Log 8). -/
inductive Fault where
  /-- A tree walk (GENCODE, DECODE, PARSE's insertion) reads a NODE record that is not in use, which
  20_memory.md R57 says never happens. Safe. -/
  | nodeUndefined
  /-- GENCODE descends more than 255 levels, which 42_codegen.md R131 says never happens. Safe. -/
  | treeTooDeep
  /-- BUILD's collection H does not hold exactly one pair after k - 1 merges, which 41_tree_build.md R112 excludes. Safe. -/
  | heapNotSingle
deriving DecidableEq, Repr

/-- What the model refuses to run. -/
inductive Refusal where
  /-- Raised by `exec` for a command that has no meaning yet; safe. No command is refused in this model. -/
  | notModelled (mnemonic : String)
deriving DecidableEq, Repr

/-- A byte memory whose contents are unspecified. -/
def Buffer.unspecified (gen : Nat) : Buffer := { cells := [], gen := gen }

/-- FT with every counter 0 (10_state.md R45). -/
def emptyFreqTable : Vector Word 256 := Vector.replicate 256 0

/-- CT with every record absent: len = 0, bits = 0 (10_state.md R45). -/
def emptyCodeTable : Vector CtRec 256 := Vector.replicate 256 { len := 0, bits := 0 }

/-- The state after reset (10_state.md R45; 70_reset_and_hazards.md R230). -/
def State.reset : State where
  status  := { done := false, err := false, empty := false }
  err     := { kind := 0, sub := 0, op := 0 }
  errInfo := 0
  srcLen  := 0
  dstLen  := 0
  payLen  := 0
  pad     := 0
  root    := nil
  nodeCnt := 0
  src     := Buffer.unspecified 0
  dst     := Buffer.unspecified 0
  pay     := Buffer.unspecified 0
  ft      := emptyFreqTable
  node    := []
  ct      := emptyCodeTable
  cfg     := Config.default
  host    := []
  reply   := .nothing
  draws   := 0

end Sys2Proof.Machine
end

