-- ==== Sys2Proof/Machine/Flags.lean ====
section
/-! DEFINITION. The flags and the padding law: STATUS and ERR as the host reads them (10_state.md R24, R25) and
the padding count (00_scope.md R14). -/

namespace Sys2Proof.Machine

/-- Write of STATUS.DONE. -/
def State.setDone (s : State) (b : Bool) : State := { s with status := { s.status with done := b } }

/-- Write of STATUS.EMPTY. -/
def State.setEmpty (s : State) (b : Bool) : State := { s with status := { s.status with empty := b } }

/-- STATUS on the host port: DONE in bit 0, ERR in bit 1, EMPTY in bit 2, the rest 0 (10_state.md R24). -/
def Status.word (f : Status) : Word :=
  BitVec.ofNat 32 (f.done.toNat + 2 * f.err.toNat + 4 * f.empty.toNat)

/-- ERR on the host port: KIND [3:0], SUB [7:4], OP [15:8], the rest 0 (10_state.md R25). -/
def ErrReg.word (e : ErrReg) : Word := (e.op ++ e.sub ++ e.kind : BitVec 16).setWidth 32

/-- The padding law (00_scope.md R14): `(8 - (n mod 8)) mod 8`. -/
def padCount (n : Nat) : Nat := (8 - n % 8) % 8

/-- `ceil(n / 8)`: the bytes that hold n bits (30_encoding.md R81). -/
def byteCount (n : Nat) : Nat := (n + 7) / 8

/-- ERR.KIND of a recorded fault (60_exceptions.md R200, R208). -/
def FaultCause.kind : FaultCause → BitVec 4
  | .missingCode => 1
  | .badMagic => 2
  | .shortHeader => 2
  | .zeroCodeLen => 2
  | .duplicateSymbol => 2
  | .notPrefixFree => 2
  | .badPadding => 2
  | .lengthMismatch => 2
  | .padExceedsPayload => 2
  | .badPath => 2
  | .truncatedStream => 3
  | .capacityPay => 4
  | .capacityDst => 4
  | .emptyTable => 5
  | .noTree => 5
  | .illegalCommand => 6

/-- ERR.SUB of a recorded fault (60_exceptions.md R208). -/
def FaultCause.sub : FaultCause → BitVec 4
  | .missingCode => 0
  | .badMagic => 1
  | .shortHeader => 2
  | .zeroCodeLen => 3
  | .duplicateSymbol => 4
  | .notPrefixFree => 5
  | .badPadding => 6
  | .lengthMismatch => 7
  | .padExceedsPayload => 8
  | .badPath => 9
  | .truncatedStream => 0
  | .capacityPay => 1
  | .capacityDst => 2
  | .emptyTable => 1
  | .noTree => 2
  | .illegalCommand => 0

/-- ERRINFO for the diagnostic value `n`: the value where it fits the register, a free value where it does not
(10_state.md R26; Log 6). -/
def errInfoWord (n : Nat) : Word := if n < 2 ^ 32 then BitVec.ofNat 32 n else Config.errInfoWide n

end Sys2Proof.Machine
end

