-- ==== Sys2Proof/Machine/Operands.lean ====
section
/-! DEFINITION. The operand forms: byte memories and their canonical form, the 256-element tables, bytes and
bits (20_memory.md R52, R53), container integers, and the code of a CT record. -/

namespace Sys2Proof.Machine

/-! ### Byte memories -/

/-- The byte an address holds, when something has written it. -/
def Memory.read? : List Host.Cell → Nat → Option Byte
  | [], _ => none
  | (k, v) :: m, a => if k = a then some v else Memory.read? m a

/-- Write of one byte, keeping the addresses strictly rising. -/
def Memory.write : List Host.Cell → Nat → Byte → List Host.Cell
  | [], a, v => [(a, v)]
  | (k, x) :: m, a, v =>
    if a < k then (a, v) :: (k, x) :: m
    else if a = k then (a, v) :: m
    else (k, x) :: Memory.write m a v

/-- The canonical form: addresses strictly rising. An unlisted address holds no written value, so no entry can
equal what an unlisted address holds (Log 3). -/
abbrev Memory.wf (m : List Host.Cell) : Prop := m.Pairwise (fun c d => c.1 < d.1)

/-- Every address of the memory lies below `cap`. -/
abbrev Memory.below (m : List Host.Cell) (cap : Nat) : Prop := ∀ c ∈ m, c.1 < cap

/-- Reading one byte: the byte last written there, or the free value of a byte nothing has written (Log 3). -/
def Buffer.read (b : Buffer) (which : BufferId) (a : Nat) : Byte :=
  (Memory.read? b.cells a).getD (Config.ramByte which b.gen a)

/-- Writing one byte. -/
def Buffer.write (b : Buffer) (a : Nat) (v : Byte) : Buffer := { b with cells := Memory.write b.cells a v }

/-- Writing bytes at ascending addresses, one at a time (20_memory.md R55). -/
def Buffer.writeBytes (b : Buffer) (a : Nat) : List Byte → Buffer
  | [] => b
  | v :: vs => Buffer.writeBytes (b.write a v) (a + 1) vs

/-- The contents become unspecified (10_state.md R45; 60_exceptions.md R210; Log 5). -/
def Buffer.forget (b : Buffer) : Buffer := Buffer.unspecified (b.gen + 1)

/-! ### Tables indexed by a symbol -/

/-- Element of FT or CT for a symbol (20_memory.md R50). -/
def tableGet {α : Type} (t : Vector α 256) (b : Byte) : α := t[b.toNat]'b.isLt

/-- Write of the element of FT or CT for a symbol. -/
def tableSet {α : Type} (t : Vector α 256) (b : Byte) (v : α) : Vector α 256 := t.set b.toNat v b.isLt

/-- The 256 symbols in ascending order. -/
def symbols : List Byte := (List.range 256).map (BitVec.ofNat 8)

/-- The elements of FT or CT with their symbols, in ascending symbol order: `for s in 0..255`. -/
def tableList {α : Type} (t : Vector α 256) : List (Byte × α) := symbols.zip t.toList

/-! ### Bits and bytes -/

/-- The bits of a byte, most significant first (20_memory.md R53). -/
def byteBits (b : Byte) : BitString :=
  [b.getLsbD 7, b.getLsbD 6, b.getLsbD 5, b.getLsbD 4, b.getLsbD 3, b.getLsbD 2, b.getLsbD 1, b.getLsbD 0]

/-- The bit sequence of a byte sequence, MSB-first: bit j is bit 7 - (j mod 8) of byte j div 8 (20_memory.md R53). -/
def bitsOf (bs : List Byte) : BitString := bs.flatMap byteBits

/-- "The byte whose bit 7-t is f t" (43_bit_encode.md R141, 45_container.md R162). -/
def byteOfBits (f : Nat → Bool) : Byte := BitVec.ofBoolListBE [f 0, f 1, f 2, f 3, f 4, f 5, f 6, f 7]

/-- A bit sequence packed into bytes MSB-first; positions after its end are 0 (20_memory.md R53). -/
def packBits (c : BitString) : List Byte :=
  (List.range (byteCount c.length)).map fun m => byteOfBits fun t => c.getD (8 * m + t) false

/-- MemWrite's bytes: `v` as an n-byte big-endian integer (00_scope.md R11). -/
def beBytes (n v : Nat) : List Byte := (List.range n).map fun k => BitVec.ofNat 8 (v >>> (8 * (n - 1 - k)))

/-- MemRead's value: a byte sequence as an unsigned big-endian integer (00_scope.md R11). -/
def beNat (bs : List Byte) : Nat := bs.foldl (fun acc b => 256 * acc + b.toNat) 0

/-! ### Codes and node records -/

end Sys2Proof.Machine

namespace Sys2Proof

open Sys2Proof.Machine

/-- `code(s)` of a record: CT[s].bits[0 .. CT[s].len-1] (10_state.md R36). -/
def CtRec.code (r : CtRec) : BitString := (List.range r.len.toNat).map r.bits.getLsbD

/-- The record of a code: its length, its bits, zeros up to 256 bits (42_codegen.md R131). -/
def CtRec.ofCode (c : BitString) : CtRec where
  len  := BitVec.ofNat 8 c.length
  bits := (BitVec.ofBoolListLE c).setWidth 256

/-- The child index a bit selects: "0→left, 1→right" (44_bit_decode.md R151). -/
def NodeRec.child (n : NodeRec) (b : Bool) : NodeIdx := if b then n.right else n.left

/-- Write of the child index a bit selects. -/
def NodeRec.setChild (n : NodeRec) (b : Bool) (i : NodeIdx) : NodeRec :=
  if b then { n with right := i } else { n with left := i }

/-- A Leaf record (10_state.md R34: NIL children). -/
def NodeRec.leafOf (sym : Byte) (freq : BitVec 40) : NodeRec :=
  { kind := .leaf, sym := sym, freq := freq, left := nil, right := nil }

/-- An Internal record (10_state.md R34: sym = 0). -/
def NodeRec.internalOf (freq : BitVec 40) (left right : NodeIdx) : NodeRec :=
  { kind := .internal, sym := 0, freq := freq, left := left, right := right }

end Sys2Proof

namespace Sys2Proof.Machine

/-- The code table with the entries of a list of symbols and codes, written in order. -/
def tableOfCodes (es : List (Byte × BitString)) : Vector CtRec 256 :=
  es.foldl (fun t e => tableSet t e.1 (CtRec.ofCode e.2)) emptyCodeTable

/-! ### The operands of the commands -/

/-- SRC[i]. -/
def State.srcByte (s : State) (i : Nat) : Byte := s.src.read .src i

/-- SRC[0 .. SRC_LEN-1], the input of FREQ, ENCODE, PARSE and the macros (10_state.md R30). -/
def State.srcBytes (s : State) : List Byte := (List.range s.srcLen.toNat).map s.srcByte

/-- PAY[0 .. PAY_LEN-1] (10_state.md R33). -/
def State.payBytes (s : State) : List Byte := (List.range s.payLen.toNat).map (s.pay.read .pay)

/-- DST[0 .. DST_LEN-1], the output (10_state.md R31). -/
def State.dstBytes (s : State) : List Byte := (List.range s.dstLen.toNat).map (s.dst.read .dst)

/-- The payload bits: "Convert bytes back to a bit sequence MSB-first, then drop the last `padding` bits"
(44_bit_decode.md R151): the first 8 × PAY_LEN - PAD bits of PAY. -/
def State.payloadBits (s : State) : BitString :=
  (bitsOf s.payBytes).take (8 * s.payLen.toNat - s.pad.toNat)

end Sys2Proof.Machine
end

