-- ==== Sys2Proof/Machine/Ops.lean ====
section
/-! DEFINITION. The named operations over the whole state: clearing (46_macro_control.md R180 step 1, R182),
fault entry (60_exceptions.md R210) and the return from it, and the protocol of a command (46_macro_control.md R185). -/

namespace Sys2Proof.Machine

/-- How a unit's pseudocode stops before its end. -/
inductive Trap where
  /-- `raise K(sub, info)` (00_scope.md R11): the command records a fault. -/
  | raise (c : FaultCause) (info : Nat)
  /-- The model stops; only in states outside 10_state.md R39 (Log 8). -/
  | stuck (r : Fault)
deriving DecidableEq, Repr

/-- How a command's rule ends. -/
inductive CmdEnd where
  /-- Without a raise, in state `s`. -/
  | ended (s : State)
  /-- With a raise in unit `u` (`none`: the word was reserved), `s` being the state the unit started from. -/
  | raised (s : State) (u : Option UnitId) (c : FaultCause) (info : Nat)
  | stuck (r : Fault)
deriving DecidableEq, Repr

/-- Every element at the value of 10_state.md R45: what reset and CLR have in common. Buffer and NODE contents
become unspecified; the parameters and the model's own fields stay. -/
def State.cleared (s : State) : State :=
  { State.reset with
    src := s.src.forget, dst := s.dst.forget, pay := s.pay.forget
    cfg := s.cfg, host := s.host, reply := s.reply, draws := s.draws }

/-- Step 1 of the macro commands (46_macro_control.md R180, R181): the derived state is cleared. -/
def State.clearDerived (s : State) : State :=
  { s with
    ft := emptyFreqTable, ct := emptyCodeTable, root := nil, nodeCnt := 0, node := []
    pad := 0, payLen := 0, dstLen := 0, status := { s.status with empty := false } }

/-- Step 1 of fault entry: the destinations of the unit that raised are cleared, and what lies beyond a cleared
length is unspecified (60_exceptions.md R210; Log 5). A reserved word has no destinations. -/
def State.clearDest (s : State) : Option UnitId → State
  | none => s
  | some .freq => s
  | some .build => { s with root := nil, nodeCnt := 0, node := [] }
  | some .gencode => { s with ct := emptyCodeTable }
  | some .encode => { s with payLen := 0, pad := 0, pay := s.pay.forget }
  | some .frame => { s with dstLen := 0, dst := s.dst.forget }
  | some .parse =>
    { s with
      ct := emptyCodeTable, root := nil, nodeCnt := 0, node := []
      pad := 0, payLen := 0, pay := s.pay.forget }
  | some .decode => { s with dstLen := 0, dst := s.dst.forget }

/-- Fault entry (60_exceptions.md R210): destinations cleared, ERR and ERRINFO written, STATUS.ERR set. `op` is
"the CMD value the host wrote". Nothing else is saved, and control goes nowhere. -/
def State.takeFault (s : State) (op : Byte) (u : Option UnitId) (c : FaultCause) (info : Nat) : State :=
  let t := s.clearDest u
  { t with
    err := { kind := c.kind, sub := c.sub, op := op }
    errInfo := errInfoWord info
    status := { t.status with err := true } }

/-- The end of a command (46_macro_control.md R185): DONE is set when nothing was raised, fault entry otherwise. -/
def finish (op : Byte) : CmdEnd → Host.Outcome State Fault Refusal
  | .ended s => .next (s.setDone true)
  | .raised s u c info => .next (s.takeFault op u c info)
  | .stuck r => .fault r

/-- The command protocol (46_macro_control.md R185): while STATUS.ERR = 1 every word but CLR's is ignored (R184);
otherwise DONE is cleared and the rule of the command runs. -/
def protocol (op : Byte) (rule : State → CmdEnd) (s : State) : Host.Outcome State Fault Refusal :=
  if s.status.err = true ∧ op ≠ encode .clr then .next s
  else finish op (rule (s.setDone false))

end Sys2Proof.Machine
end

