-- ==== Sys2Proof/Machine/BitDecode.lean ====
section
/-! DEFINITION. Unit U5, the bitstream decoder (44_bit_decode.md). -/

namespace Sys2Proof.Machine

/-- The tree walk (44_bit_decode.md R151) over the bits still to go: `cur` is CUR, `j` the index of the next bit,
`start` the index of the first bit of the unfinished code, `out` the symbols emitted so far. -/
def decodeWalk (nodes : List NodeRec) (root : NodeIdx) (cap : Nat) :
    BitString → (cur : NodeIdx) → (j start : Nat) → (out : List Byte) → Except Trap (List Byte)
  | [], cur, _, start, out =>
    if cur ≠ root then .error (.raise .truncatedStream start) else .ok out
  | b :: bs, cur, j, start, out =>
    match nodes[cur.toNat]? with
    | none => .error (.stuck .nodeUndefined)
    | some n =>
      if n.child b = nil then .error (.raise .badPath j)
      else match nodes[(n.child b).toNat]? with
        | none => .error (.stuck .nodeUndefined)
        | some m =>
          match m.kind with
          | .leaf =>
            if out.length = cap then .error (.raise .capacityDst 0)
            else decodeWalk nodes root cap bs root (j + 1) (j + 1) (out ++ [m.sym])
          | .internal => decodeWalk nodes root cap bs (n.child b) (j + 1) start out

/-- DECODE (44_bit_decode.md R151): writes DST and DST_LEN from the tree and the payload; never reads CT. What
DST held before is unspecified from the first line, DST_LEN <- 0, on (20_memory.md R57; Log 5). -/
def decodeUnit (s : State) : Except Trap State :=
  if s.root = nil then .error (.raise .noTree 0)
  else if s.pad.toNat > 8 * s.payLen.toNat then .error (.raise .padExceedsPayload 0)
  else match decodeWalk s.node s.root s.cfg.dstCap.toNat s.payloadBits s.root 0 0 [] with
    | .error e => .error e
    | .ok out => .ok { s with
        dst := s.dst.forget.writeBytes 0 out
        dstLen := BitVec.ofNat 32 out.length }

end Sys2Proof.Machine
end

