-- ==== Sys2Proof/Machine/BitEncode.lean ====
section
/-! DEFINITION. Unit U4, the bitstream encoder (43_bit_encode.md). -/

namespace Sys2Proof.Machine

/-- The growing bit sequence B: the codes of the symbols in input order; `i` is the index of the first symbol.
MissingCodeError at the first symbol without a code (43_bit_encode.md R141, R142). -/
def codeBits (ct : Vector CtRec 256) : List Byte → Nat → Except Trap BitString
  | [], _ => .ok []
  | b :: bs, i =>
    if (tableGet ct b).len = 0 then .error (.raise .missingCode i)
    else match codeBits ct bs (i + 1) with
      | .error e => .error e
      | .ok rest => .ok ((tableGet ct b).code ++ rest)

/-- ENCODE (43_bit_encode.md R141): writes PAY, PAY_LEN and PAD. -/
def encodeUnit (s : State) : Except Trap State :=
  match codeBits s.ct s.srcBytes 0 with
  | .error e => .error e
  | .ok bits =>
    let padded := bits ++ List.replicate (padCount bits.length) false
    let bytes := packBits padded
    if bytes.length > s.cfg.payCap.toNat then .error (.raise .capacityPay 0)
    else .ok { s with
      pay := s.pay.writeBytes 0 bytes
      payLen := BitVec.ofNat 32 bytes.length
      pad := BitVec.ofNat 3 (padCount bits.length) }

end Sys2Proof.Machine
end

