-- ==== Sys2Proof/Machine/CodeGen.lean ====
section
/-! DEFINITION. Unit U3, the code-table generator (42_codegen.md). -/

namespace Sys2Proof.Machine

/-- The most nodes on a path from the root: "The recursion is at most 255 deep" (42_codegen.md R131). -/
def maxLevels : Nat := 256

/-- `walk(i, path)` (42_codegen.md R131): the leaves below node `i`, left before right, each with its path.
`fuel` bounds the levels (Log 8). -/
def walk (nodes : List NodeRec) : (fuel i : Nat) → BitString → Except Trap (List (Byte × BitString))
  | 0, _, _ => .error (.stuck .treeTooDeep)
  | fuel + 1, i, path =>
    match nodes[i]? with
    | none => .error (.stuck .nodeUndefined)
    | some n =>
      match n.kind with
      | .leaf => .ok [(n.sym, path)]
      | .internal =>
        match (if n.left = nil then .ok [] else walk nodes fuel n.left.toNat (path ++ [false])) with
        | .error e => .error e
        | .ok l =>
          match (if n.right = nil then .ok [] else walk nodes fuel n.right.toNat (path ++ [true])) with
          | .error e => .error e
          | .ok r => .ok (l ++ r)

/-- GENCODE (42_codegen.md R131, R133): writes CT from the tree. -/
def gencodeUnit (s : State) : Except Trap State :=
  if s.root = nil then .error (.raise .noTree 0)
  else match walk s.node maxLevels s.root.toNat [] with
    | .error e => .error e
    | .ok es => .ok { s with ct := tableOfCodes es }

end Sys2Proof.Machine
end

