-- ==== Sys2Proof/Machine/Container.lean ====
section
/-! DEFINITION. Unit U6, the container framer (FRAME) and parser (PARSE) (45_container.md; the layout is
30_encoding.md R80 to R88). -/

namespace Sys2Proof.Machine

/-! ### FRAME -/

/-- The entries of CT, in ascending order of their symbols (45_container.md R161). -/
def codedEntries (ct : Vector CtRec 256) : List (Byte × CtRec) := (tableList ct).filter fun e => e.2.len != 0

/-- One table entry: symbol, code_len, code_bits MSB-first with the unused positions 0 (30_encoding.md R81, R83). -/
def entryBytes (e : Byte × CtRec) : List Byte := e.1 :: e.2.len :: packBits e.2.code

/-- The table: the entries back to back (30_encoding.md R80). -/
def tableBytes (ct : Vector CtRec 256) : List Byte := (codedEntries ct).flatMap entryBytes

/-- T: the sum of 2 + ceil(len / 8) over the entries (45_container.md R162). -/
def tableSize (ct : Vector CtRec 256) : Nat :=
  ((codedEntries ct).map fun e => 2 + byteCount e.2.len.toNat).sum

/-- The container of a table, a padding count and a payload (30_encoding.md R80, 45_container.md R162). -/
def containerBytes (magic : Vector Byte 4) (ct : Vector CtRec 256) (pad : BitVec 3) (payload : List Byte) :
    List Byte :=
  magic.toList ++ beBytes 2 (codedEntries ct).length ++ tableBytes ct ++
    [pad.setWidth 8] ++ beBytes 4 payload.length ++ payload

/-- FRAME (45_container.md R162, R163): writes DST and DST_LEN; nothing is written when the container does not
fit. What DST held before is unspecified from the first line, DST_LEN <- 0, on (20_memory.md R57; Log 5). -/
def frameUnit (s : State) : Except Trap State :=
  let size := 11 + tableSize s.ct + s.payLen.toNat
  if size > s.cfg.dstCap.toNat then .error (.raise .capacityDst 0)
  else .ok { s with
    dst := s.dst.forget.writeBytes 0 (containerBytes s.cfg.magic s.ct s.pad s.payBytes)
    dstLen := BitVec.ofNat 32 size }

/-! ### PARSE -/

/-- PARSE's working state: the offset p, SRC[p .. SRC_LEN-1], CT and NODE as written so far. -/
structure ParseState where
  p     : Nat
  rest  : List Byte
  ct    : Vector CtRec 256
  nodes : List NodeRec
deriving DecidableEq, Repr

/-- `insert(sym, c, e0)` (45_container.md R168), the part of it from cursor `cur` with the bits still to go:
allocates nodes in order of need and detects every violation of prefix-freeness. -/
def insertCode (sym : Byte) (e0 : Nat) : List NodeRec → (cur : Nat) → BitString → Except Trap (List NodeRec)
  | nodes, _, [] => .ok nodes
  | nodes, cur, b :: bs =>
    match nodes[cur]? with
    | none => .error (.stuck .nodeUndefined)
    | some n =>
      match n.kind with
      | .leaf => .error (.raise .notPrefixFree e0)
      | .internal =>
        if n.child b = nil then
          let fresh := if bs = [] then NodeRec.leafOf sym 0 else NodeRec.internalOf 0 nil nil
          insertCode sym e0
            ((nodes ++ [fresh]).set cur (n.setChild b (BitVec.ofNat 16 nodes.length))) nodes.length bs
        else if bs = [] then .error (.raise .notPrefixFree e0)
        else insertCode sym e0 nodes (n.child b).toNat bs

/-- One entry of the table: checks 3 to 7 of 45_container.md R167, in that order. -/
def parseEntry (st : ParseState) : Except Trap ParseState :=
  match st.rest with
  | sym :: len :: rest =>
    if len = 0 then .error (.raise .zeroCodeLen st.p)
    else if rest.length < byteCount len.toNat then .error (.raise .shortHeader (st.p + 2))
    else if (tableGet st.ct sym).len ≠ 0 then .error (.raise .duplicateSymbol st.p)
    else
      let c := (bitsOf (rest.take (byteCount len.toNat))).take len.toNat
      match insertCode sym st.p st.nodes 0 c with
      | .error e => .error e
      | .ok nodes => .ok {
          p := st.p + 2 + byteCount len.toNat
          rest := rest.drop (byteCount len.toNat)
          ct := tableSet st.ct sym (CtRec.ofCode c)
          nodes := nodes }
  | _ => .error (.raise .shortHeader st.p)

/-- The entry loop: symbol_count entries (45_container.md R166). -/
def parseEntries : Nat → ParseState → Except Trap ParseState
  | 0, st => .ok st
  | n + 1, st =>
    match parseEntry st with
    | .error e => .error e
    | .ok st' => parseEntries n st'

/-- What a container holds. -/
structure Parsed where
  ct      : Vector CtRec 256
  nodes   : List NodeRec
  pad     : Byte
  payload : List Byte
deriving DecidableEq, Repr

/-- The trailer: checks 8 to 12 of 45_container.md R167. -/
def parseTrailer (payCap : Nat) (st : ParseState) : Except Trap Parsed :=
  match st.rest with
  | pad :: rest =>
    if pad.toNat > 7 then .error (.raise .badPadding st.p)
    else if rest.length < 4 then .error (.raise .shortHeader (st.p + 1))
    else
      let plen := beNat (rest.take 4)
      let payload := rest.drop 4
      if payload.length ≠ plen then .error (.raise .lengthMismatch plen)
      else if pad.toNat > 8 * plen then .error (.raise .padExceedsPayload st.p)
      else if plen > payCap then .error (.raise .capacityPay 0)
      else .ok { ct := st.ct, nodes := st.nodes, pad := pad, payload := payload }
  | [] => .error (.raise .shortHeader st.p)

/-- The parser: check 1 (magic), check 2 (symbol_count), the entries from the childless root NODE[0], the
trailer (45_container.md R166). -/
def parseContainer (magic : Vector Byte 4) (payCap : Nat) (src : List Byte) : Except Trap Parsed :=
  if src.take 4 ≠ magic.toList then .error (.raise .badMagic 0)
  else if (src.drop 4).length < 2 then .error (.raise .shortHeader 4)
  else
    match parseEntries (beNat ((src.drop 4).take 2))
        { p := 6, rest := src.drop 6, ct := emptyCodeTable, nodes := [NodeRec.internalOf 0 nil nil] } with
    | .error e => .error e
    | .ok st => parseTrailer payCap st

/-- PARSE (45_container.md R165, R166): writes CT, NODE, ROOT, NODE_CNT, PAD, PAY and PAY_LEN. -/
def parseUnit (s : State) : Except Trap State :=
  match parseContainer s.cfg.magic s.cfg.payCap.toNat s.srcBytes with
  | .error e => .error e
  | .ok c => .ok { s with
      ct := c.ct
      node := c.nodes
      root := 0
      nodeCnt := BitVec.ofNat 17 c.nodes.length
      pay := s.pay.writeBytes 0 c.payload
      payLen := BitVec.ofNat 32 c.payload.length
      pad := c.pad.setWidth 3 }

end Sys2Proof.Machine
end

