-- ==== Sys2Proof/Machine/Frequency.lean ====
section
/-! DEFINITION. Unit U1, the frequency analyzer (40_freq.md). -/

namespace Sys2Proof.Machine

/-- `FT[b] <- FT[b] + 1`. -/
def bump (t : Vector Word 256) (b : Byte) : Vector Word 256 := tableSet t b (tableGet t b + 1)

/-- The table of a byte sequence, in one linear pass from the cleared table (40_freq.md R100). -/
def freqTable (bs : List Byte) : Vector Word 256 := bs.foldl bump emptyFreqTable

/-- FREQ (40_freq.md R100): writes FT and STATUS.EMPTY, cannot fault. -/
def freqUnit (s : State) : State :=
  { s with
    ft := freqTable s.srcBytes
    status := { s.status with empty := s.srcLen == 0 } }

end Sys2Proof.Machine
end

