-- ==== Sys2Proof/Machine/TreeBuild.lean ====
section
/-! DEFINITION. Unit U2, the tree builder (41_tree_build.md). -/

namespace Sys2Proof.Machine

/-- A pair of the priority collection H: frequency, node index (10_state.md R40). The frequency is a
mathematical integer (00_scope.md R11). -/
abbrev HeapPair := Nat × Nat

/-- The order of H: lexicographic on (frequency, node index) (41_tree_build.md R113). -/
def HeapPair.before (a b : HeapPair) : Bool := a.1 < b.1 || (a.1 == b.1 && a.2 < b.2)

/-- The least pair of `p :: ps` in the order of H. -/
def leastPair (p : HeapPair) (ps : List HeapPair) : HeapPair :=
  ps.foldl (fun a b => if HeapPair.before b a then b else a) p

/-- `H.extract_min()` (41_tree_build.md R113): the least pair, and H without it. -/
def extractMin : List HeapPair → Option (HeapPair × List HeapPair)
  | [] => none
  | p :: ps => some (leastPair p ps, (p :: ps).erase (leastPair p ps))

/-- BUILD's working state: H, and the NODE records written so far (n is their number). -/
structure Forest where
  heap  : List HeapPair
  nodes : List NodeRec
deriving DecidableEq, Repr

/-- The table's entries in ascending symbol order (41_tree_build.md R111). -/
def tableEntries (ft : Vector Word 256) : List (Byte × Word) :=
  (tableList ft).filter fun e => e.2 != 0

/-- One Leaf per entry, NODE[t] for the t-th, and its pair in H (41_tree_build.md R111). -/
def leafForest (es : List (Byte × Word)) : Forest where
  heap  := es.zipIdx.map fun e => (e.1.2.toNat, e.2)
  nodes := es.map fun e => NodeRec.leafOf e.1 (e.2.setWidth 40)

/-- One pass of the loop of 41_tree_build.md R112: the two least pairs become the children of a new Internal
node, the first extracted its left child (R114). With fewer than two pairs there is no pass. -/
def mergePass (f : Forest) : Forest :=
  match extractMin f.heap with
  | none => f
  | some (a, h1) =>
    match extractMin h1 with
    | none => f
    | some (b, h2) =>
      { heap := (a.1 + b.1, f.nodes.length) :: h2
        nodes := f.nodes ++
          [NodeRec.internalOf (BitVec.ofNat 40 (a.1 + b.1)) (BitVec.ofNat 16 a.2) (BitVec.ofNat 16 b.2)] }

/-- `n` passes. -/
def mergePasses : Nat → Forest → Forest
  | 0, f => f
  | n + 1, f => mergePasses n (mergePass f)

/-- The tree BUILD makes of a table: NODE's records and the root's index (41_tree_build.md R112). "The loop runs
exactly k - 1 times". -/
def buildTree (es : List (Byte × Word)) : Except Trap (List NodeRec × Nat) :=
  match es with
  | [] => .error (.raise .emptyTable 0)
  | [e] =>
    .ok ([NodeRec.leafOf e.1 (e.2.setWidth 40), NodeRec.internalOf (e.2.setWidth 40) 0 nil], 1)
  | e1 :: e2 :: rest =>
    let f := mergePasses (rest.length + 1) (leafForest (e1 :: e2 :: rest))
    match f.heap with
    | [p] => .ok (f.nodes, p.2)
    | _ => .error (.stuck .heapNotSingle)

/-- BUILD (41_tree_build.md R110 to R117): writes NODE, ROOT and NODE_CNT. -/
def buildUnit (s : State) : Except Trap State :=
  match buildTree (tableEntries s.ft) with
  | .error e => .error e
  | .ok (nodes, r) =>
    .ok { s with node := nodes, root := BitVec.ofNat 16 r, nodeCnt := BitVec.ofNat 17 nodes.length }

end Sys2Proof.Machine
end

