-- ==== Sys2Proof/Machine/Control.lean ====
section
/-! DEFINITION. The command sequencer: the meaning of each command over the protocol and the units
(46_macro_control.md), and what a reserved command word does. -/

namespace Sys2Proof.Machine

/-- The rule of one unit. -/
def UnitId.run : UnitId → State → Except Trap State
  | .freq, s => .ok (freqUnit s)
  | .build, s => buildUnit s
  | .gencode, s => gencodeUnit s
  | .encode, s => encodeUnit s
  | .frame, s => frameUnit s
  | .parse, s => parseUnit s
  | .decode, s => decodeUnit s

/-- Units run one after the other; the first raise ends the command (00_scope.md R11, 60_exceptions.md R210). -/
def runUnits : List UnitId → State → CmdEnd
  | [], s => .ended s
  | u :: us, s =>
    match u.run s with
    | .ok t => runUnits us t
    | .error (.raise c info) => .raised s (some u) c info
    | .error (.stuck r) => .stuck r

/-- The units of COMPRESS: "the pipeline must short-circuit to an empty ContainerFile without invoking the Tree
Builder" (46_macro_control.md R180). -/
def compressUnits (s : State) : List UnitId :=
  if s.srcLen = 0 then [.freq, .frame] else [.freq, .build, .gencode, .encode, .frame]

/-- CLR (46_macro_control.md R182): clear everything and acknowledge a fault; the return from a fault (60_exceptions.md R214). -/
def execClr (s : State) : Host.Outcome State Fault Refusal :=
  protocol (encode .clr) (fun t => .ended t.cleared) s

/-- FREQ (40_freq.md R100). -/
def execFreq (s : State) : Host.Outcome State Fault Refusal :=
  protocol (encode .freq) (runUnits [.freq]) s

/-- BUILD (41_tree_build.md R112). -/
def execBuild (s : State) : Host.Outcome State Fault Refusal :=
  protocol (encode .build) (runUnits [.build]) s

/-- GENCODE (42_codegen.md R131). -/
def execGencode (s : State) : Host.Outcome State Fault Refusal :=
  protocol (encode .gencode) (runUnits [.gencode]) s

/-- ENCODE (43_bit_encode.md R141). -/
def execEncode (s : State) : Host.Outcome State Fault Refusal :=
  protocol (encode .encode) (runUnits [.encode]) s

/-- FRAME (45_container.md R162). -/
def execFrame (s : State) : Host.Outcome State Fault Refusal :=
  protocol (encode .frame) (runUnits [.frame]) s

/-- PARSE (45_container.md R166). -/
def execParse (s : State) : Host.Outcome State Fault Refusal :=
  protocol (encode .parse) (runUnits [.parse]) s

/-- DECODE (44_bit_decode.md R151). -/
def execDecode (s : State) : Host.Outcome State Fault Refusal :=
  protocol (encode .decode) (runUnits [.decode]) s

/-- COMPRESS (46_macro_control.md R180). -/
def execCompress (s : State) : Host.Outcome State Fault Refusal :=
  protocol (encode .compress) (fun t => runUnits (compressUnits t) t.clearDerived) s

/-- DECOMPRESS (46_macro_control.md R181). -/
def execDecompress (s : State) : Host.Outcome State Fault Refusal :=
  protocol (encode .decompress) (fun t => runUnits [.parse, .decode] t.clearDerived) s

/-- A reserved command word (46_macro_control.md R183): IllegalCommand, ERR.OP = ERRINFO = the word. -/
def execIllegal (w : Byte) (s : State) : Host.Outcome State Fault Refusal :=
  protocol w (fun t => .raised t none .illegalCommand w.toNat) s

end Sys2Proof.Machine
end

