-- ==== Sys2Proof/Machine/HostPort.lean ====
section
/-! DEFINITION. The host port: registers by number (10_state.md R23 to R29, R35, R37, R43, R44), windows (R30 to
R34, R36; 20_memory.md R57), reset (70_reset_and_hazards.md R230), the record formats (30_encoding.md R90 to R92)
and the fetch of the host's next move (R241). -/

namespace Sys2Proof.Machine

/-- A host read of a register: all 32 bits wide, bits not named read as zero, CMD and the reserved numbers read
as 0 (10_state.md R23, R44). -/
def readRegister (s : State) (n : BitVec 4) : Word :=
  match n.toNat with
  | 1 => s.status.word
  | 2 => s.err.word
  | 3 => s.errInfo
  | 4 => s.srcLen
  | 5 => s.dstLen
  | 6 => s.payLen
  | 7 => s.pad.setWidth 32
  | 8 => s.root.setWidth 32
  | 9 => s.nodeCnt.setWidth 32
  | _ => 0

/-- A host write of a register other than CMD: illegal values, read-only and reserved registers are ignored
(10_state.md R43, R44; Log 9). -/
def writeRegister (s : State) (n : BitVec 4) (v : Word) : State :=
  match n.toNat with
  | 4 => if v.toNat ≤ s.cfg.srcCap.toNat then { s with srcLen := v } else s
  | 6 => if v.toNat ≤ s.cfg.payCap.toNat then { s with payLen := v } else s
  | 7 => if v.toNat ≤ 7 then { s with pad := v.setWidth 3 } else s
  | _ => s

/-- The reply to a read of an unspecified byte: a free value, a new one for each read (20_memory.md R57; Log 4). -/
def drawnByte (s : State) : State := { s with reply := .byte (Config.drawByte s.draws), draws := s.draws + 1 }

/-- The reply to a read of an unspecified NODE record (20_memory.md R57; Log 4). -/
def drawnNode (s : State) : State := { s with reply := .record (Config.drawNode s.draws), draws := s.draws + 1 }

/-- A host read of a window element (70_reset_and_hazards.md R241): the element below the meaningful length, an
unspecified value at or above it. Nothing but the reply changes. -/
def readWindow (s : State) : WindowAddr → State
  | .src off => if off.toNat < s.srcLen.toNat then { s with reply := .byte (s.src.read .src off.toNat) } else drawnByte s
  | .dst off => if off.toNat < s.dstLen.toNat then { s with reply := .byte (s.dst.read .dst off.toNat) } else drawnByte s
  | .pay off => if off.toNat < s.payLen.toNat then { s with reply := .byte (s.pay.read .pay off.toNat) } else drawnByte s
  | .ft b => { s with reply := .word (tableGet s.ft b) }
  | .ct b => { s with reply := .code (tableGet s.ct b) }
  | .node i =>
    if i.toNat < s.nodeCnt.toNat then
      match s.node[i.toNat]? with
      | some r => { s with reply := .record r }
      | none => drawnNode s
    else drawnNode s

/-- A host write of a window element: that element only; DST and NODE are read-only and a write at or above the
capacity has no effect (10_state.md R42, R44; 20_memory.md R57). -/
def writeWindow (s : State) : WindowWrite → State
  | .src off v => if off.toNat < s.cfg.srcCap.toNat then { s with src := s.src.write off.toNat v } else s
  | .dst _ _ => s
  | .pay off v => if off.toNat < s.cfg.payCap.toNat then { s with pay := s.pay.write off.toNat v } else s
  | .ft b v => { s with ft := tableSet s.ft b v }
  | .ct b v => { s with ct := tableSet s.ct b v }
  | .node _ _ => s

/-- A host move other than a CMD write, the reply already cleared (70_reset_and_hazards.md R241). Reset gives
the same state as CLR but for DONE = 0 (46_macro_control.md R182, 10_state.md R45). -/
def hostMove (s : State) : HostMove → State
  | .reset => s.cleared
  | .readReg n => { s with reply := .word (readRegister s n) }
  | .writeReg n v => writeRegister s n v
  | .readWindow a => readWindow s a
  | .writeWindow w => writeWindow s w

/-- What the core finds when it looks for the host's next move. -/
inductive Fetched where
  /-- No move is pending: the core is idle and holds its state (60_exceptions.md R225, 70_reset_and_hazards.md R230). -/
  | idle
  /-- A write of CMD with command word `w`; `s` is the state with the move taken. -/
  | command (w : Byte) (s : State)
  /-- Any other move; `s` is the state with the move taken. -/
  | move (m : HostMove) (s : State)
deriving DecidableEq, Repr

/-- The state with its oldest pending move taken, the reply of the move before gone. -/
def State.taken (s : State) (rest : List HostMove) : State := { s with host := rest, reply := .nothing }

/-- The host's next move: the oldest pending one. A write of register 0 is a CMD write, whose word is v[7:0]
(10_state.md R23). -/
def fetchMove (s : State) : Fetched :=
  match s.host with
  | [] => .idle
  | .writeReg n v :: rest =>
    if n = 0 then .command (cmdByte v) (s.taken rest) else .move (.writeReg n v) (s.taken rest)
  | .reset :: rest => .move .reset (s.taken rest)
  | .readReg n :: rest => .move (.readReg n) (s.taken rest)
  | .readWindow a :: rest => .move (.readWindow a) (s.taken rest)
  | .writeWindow w :: rest => .move (.writeWindow w) (s.taken rest)

/-! ### Record formats on the host port -/

end Sys2Proof.Machine

namespace Sys2Proof

open Sys2Proof.Machine

/-- A CT record in window W4: len, then 32 bytes, bit position j in bit 7 - (j mod 8) of byte 1 + (j div 8)
(30_encoding.md R90). -/
def CtRec.portBytes (r : CtRec) : List Byte :=
  r.len :: (List.range 32).map fun m => byteOfBits fun t => r.bits.getLsbD (8 * m + t)

/-- A NODE record in window W5: kind, sym, freq (5 bytes), left (2), right (2), all big-endian, and 0x00
(30_encoding.md R91). -/
def NodeRec.portBytes (r : NodeRec) : List Byte :=
  [match r.kind with | .leaf => 0 | .internal => 1, r.sym] ++ beBytes 5 r.freq.toNat ++
    beBytes 2 r.left.toNat ++ beBytes 2 r.right.toNat ++ [0]

end Sys2Proof

namespace Sys2Proof.Machine

/-- The bytes of a reply on the host port: an FT counter is 4 bytes big-endian (30_encoding.md R92), as is a
register read whole. -/
def HostReply.portBytes : HostReply → List Byte
  | .nothing => []
  | .word v => beBytes 4 v.toNat
  | .byte v => [v]
  | .code v => v.portBytes
  | .record v => v.portBytes

/-- `LOAD SRC, bytes` (30_encoding.md R93): the bytes to SRC[0 ..], then their number to SRC_LEN. -/
def loadSrc (bs : List Byte) : List HostMove :=
  (bs.zipIdx.map fun e => .writeWindow (.src (BitVec.ofNat 32 e.2) e.1)) ++ [.writeReg 4 (BitVec.ofNat 32 bs.length)]

/-- `LOAD PAY, bytes` (30_encoding.md R93). -/
def loadPay (bs : List Byte) : List HostMove :=
  (bs.zipIdx.map fun e => .writeWindow (.pay (BitVec.ofNat 32 e.2) e.1)) ++ [.writeReg 6 (BitVec.ofNat 32 bs.length)]

/-- `SET CT[s], "<bits>"` (30_encoding.md R93): the number of bits, the bits, then zeros. -/
def setCode (b : Byte) (c : BitString) : HostMove := .writeWindow (.ct b (CtRec.ofCode c))

/-- The line of a mnemonic (30_encoding.md R93): a write of its command word to CMD. -/
def issue (i : Instr) : HostMove := .writeReg 0 ((encode i).setWidth 32)

end Sys2Proof.Machine
end

