-- ==== Sys2Proof/Machine/Step.lean ====
section
/-! DEFINITION. One step: the host's next move, a CMD write being decoded and executed (10_state.md R23,
46_macro_control.md R185). -/

namespace Sys2Proof.Machine

/-- A CMD write of word `w`: decode, then the command or IllegalCommand (46_macro_control.md R185). -/
def command (w : Byte) (s : State) : Host.Outcome State Fault Refusal :=
  match decodeWord w with
  | .ok i => exec i s
  | .error _ => execIllegal w s

/-- One step of the instance. -/
def step (s : State) : Host.Outcome State Fault Refusal :=
  match fetchMove s with
  | .idle => .next s
  | .command w t => command w t
  | .move m t => .next (hostMove t m)

/-- `s` with a write of the command word `w` to CMD as the host's next move (Log 1). -/
def State.withFetchWord (s : State) (nbits w : Nat) : State :=
  { s with host := .writeReg 0 (BitVec.ofNat 32 (w % 2 ^ nbits)) :: s.host }

end Sys2Proof.Machine
end

