-- ==== Sys2Proof/Safety.lean ====
section
/-! DEFINITION. The terms the claims use: the abstract tree (10_state.md R38), prefix-free code sets, the
container layout as a byte sequence (30_encoding.md R80), and the invariants of the state (10_state.md R24 to R29,
R39; 60_exceptions.md R216). -/

namespace Sys2Proof.Safety

open Sys2Proof.Machine

/-! ### The abstract tree -/

/-- `Tree(i)` (10_state.md R38): a Leaf, an Internal node, or an absent child. -/
inductive HTree where
  | absent
  | leaf (sym : Byte) (freq : BitVec 40)
  | node (freq : BitVec 40) (left right : HTree)
deriving DecidableEq, Repr

/-- `IsTree nodes i t xs`: the records of NODE below node index `i` are the abstract tree `t` (10_state.md R38), and
`xs` lists the indices met on the way down, each as often as it is met. -/
inductive IsTree (nodes : List NodeRec) : NodeIdx → HTree → List Nat → Prop where
  | absent : IsTree nodes nil .absent []
  | leaf {i : NodeIdx} {n : NodeRec} (hi : i ≠ nil) (hn : nodes[i.toNat]? = some n) (hk : n.kind = .leaf) :
      IsTree nodes i (.leaf n.sym n.freq) [i.toNat]
  | node {i : NodeIdx} {n : NodeRec} {l r : HTree} {xs ys : List Nat} (hi : i ≠ nil)
      (hn : nodes[i.toNat]? = some n) (hk : n.kind = .internal)
      (hl : IsTree nodes n.left l xs) (hr : IsTree nodes n.right r ys) :
      IsTree nodes i (.node n.freq l r) (i.toNat :: (xs ++ ys))

/-- The leaves with their paths from the root, "where "0" = left child, "1" = right child", left before right
(42_codegen.md R131). -/
def HTree.paths : HTree → List (Byte × BitString)
  | .absent => []
  | .leaf b _ => [(b, [])]
  | .node _ l r => l.paths.map (fun e => (e.1, false :: e.2)) ++ r.paths.map (fun e => (e.1, true :: e.2))

/-- The leaves, left before right. -/
def HTree.leaves : HTree → List (Byte × BitVec 40)
  | .absent => []
  | .leaf b f => [(b, f)]
  | .node _ l r => l.leaves ++ r.leaves

/-- The frequency of a node; 0 for an absent one. -/
def HTree.freq : HTree → BitVec 40
  | .absent => 0
  | .leaf _ f => f
  | .node f _ _ => f

/-- The root of the tree is an Internal node. -/
def HTree.isNode : HTree → Bool
  | .absent => false
  | .leaf _ _ => false
  | .node _ _ _ => true

/-- Every Internal node's frequency is the sum of its children's frequencies (41_tree_build.md R119). -/
def HTree.sums : HTree → Prop
  | .absent => True
  | .leaf _ _ => True
  | .node f l r => f.toNat = l.freq.toNat + r.freq.toNat ∧ l.sums ∧ r.sums

/-- How many nodes the longest way down meets. -/
def HTree.levels : HTree → Nat
  | .absent => 0
  | .leaf _ _ => 1
  | .node _ l r => 1 + max l.levels r.levels

/-- The sub-tree a path leads to. -/
def HTree.follow : HTree → BitString → HTree
  | t, [] => t
  | .node _ l r, b :: bs => (if b then r else l).follow bs
  | .absent, _ :: _ => .absent
  | .leaf _ _, _ :: _ => .absent

/-- `t` is the tree of the state, `Tree(ROOT)` (10_state.md R38), and it satisfies R39 (b) to (d): the root is an
Internal node; no sharing and no cycle, and every record in use is reached once; no symbol twice; at most 255 bits to
a leaf (R36, 42_codegen.md R131: "at most 255 deep"). -/
def TreeOf (s : State) (t : HTree) : Prop :=
  t.isNode = true ∧ (t.paths.map Prod.fst).Nodup ∧ t.levels ≤ 256 ∧
    ∃ xs, IsTree s.node s.root t xs ∧ xs.Perm (List.range s.node.length)

/-- 10_state.md R39, with the record forms of R34 and NODE_CNT the number of records in use (R35). -/
structure TreeInv (s : State) : Prop where
  count : s.nodeCnt.toNat = s.node.length
  room : s.node.length ≤ 65281
  /-- (a) -/
  empty : s.root = nil ↔ s.nodeCnt = 0
  /-- (c) every child index is NIL or below NODE_CNT, and the forms of R34. -/
  records : ∀ n ∈ s.node,
    (n.kind = .leaf → n.left = nil ∧ n.right = nil) ∧ (n.kind = .internal → n.sym = 0) ∧
    (n.left ≠ nil → n.left.toNat < s.node.length) ∧ (n.right ≠ nil → n.right.toNat < s.node.length)
  /-- (b), (c), (d) -/
  tree : s.root ≠ nil → ∃ t, TreeOf s t

/-! ### Codes -/

/-- Neither code is a prefix of the other; equal codes are prefixes of each other (00_scope.md R10). -/
def Apart (c d : BitString) : Prop := ¬ c <+: d ∧ ¬ d <+: c

/-- A prefix-free code set (00_scope.md, glossary): the codes at two different places of the list are apart. -/
def PrefixFree (cs : List BitString) : Prop := cs.Pairwise Apart

/-- Symbol `b` has an entry with code `c` in a code table (10_state.md R36). -/
def HasCode (ct : Vector CtRec 256) (b : Byte) (c : BitString) : Prop :=
  (tableGet ct b).len ≠ 0 ∧ (tableGet ct b).code = c

/-- The codes of a symbol sequence in order, concatenated (30_encoding.md R84). -/
def concatCodes (ct : Vector CtRec 256) (bs : List Byte) : BitString := bs.flatMap fun b => (tableGet ct b).code

/-! ### The container layout -/

/-- A table entry as it stands in a container: symbol, code_len, code_bits (30_encoding.md R81). -/
structure RawEntry where
  sym  : Byte
  len  : Byte
  bits : List Byte
deriving DecidableEq, Repr

/-- The entry's bytes. -/
def RawEntry.bytes (e : RawEntry) : List Byte := e.sym :: e.len :: e.bits

/-- The entry's code: the first code_len bits of code_bits, MSB-first (30_encoding.md R83). -/
def RawEntry.code (e : RawEntry) : BitString := (bitsOf e.bits).take e.len.toNat

/-- code_len is legal and code_bits has ceil(code_len / 8) bytes (30_encoding.md R81). -/
def RawEntry.ok (e : RawEntry) : Prop := e.len ≠ 0 ∧ e.bits.length = byteCount e.len.toNat

/-- The container layout, version 1 (30_encoding.md R80). -/
def layout (magic : Vector Byte 4) (es : List RawEntry) (pad : Byte) (payload : List Byte) : List Byte :=
  magic.toList ++ beBytes 2 es.length ++ es.flatMap RawEntry.bytes ++ [pad] ++ beBytes 4 payload.length ++ payload

/-- The entries FRAME writes: one for each symbol with a code, in ascending symbol order, the unused positions 0
(45_container.md R161, R162). -/
def tableEntriesOf (ct : Vector CtRec 256) : List RawEntry :=
  (symbols.filter fun b => (tableGet ct b).len != 0).map fun b =>
    { sym := b, len := (tableGet ct b).len, bits := packBits (tableGet ct b).code }

/-! ### Invariants of the registers and memories -/

/-- What every step keeps besides the tree: the memories in canonical form and inside their capacities, the lengths
legal (10_state.md R27 to R29), DONE and ERR never both set (R24), ERR.KIND ≠ 0 exactly when STATUS.ERR = 1 (R25),
nothing recorded without a fault (R26), and no output after a fault of a command that writes DST (60_exceptions.md R216). -/
structure RegInv (s : State) : Prop where
  srcWf : Memory.wf s.src.cells
  dstWf : Memory.wf s.dst.cells
  payWf : Memory.wf s.pay.cells
  srcRoom : Memory.below s.src.cells s.cfg.srcCap.toNat
  dstRoom : Memory.below s.dst.cells s.cfg.dstCap.toNat
  payRoom : Memory.below s.pay.cells s.cfg.payCap.toNat
  srcLen : s.srcLen.toNat ≤ s.cfg.srcCap.toNat
  dstLen : s.dstLen.toNat ≤ s.cfg.dstCap.toNat
  payLen : s.payLen.toNat ≤ s.cfg.payCap.toNat
  flags : ¬ (s.status.done = true ∧ s.status.err = true)
  kind : s.err.kind ≠ 0 ↔ s.status.err = true
  clean : s.status.err = false → s.err = { kind := 0, sub := 0, op := 0 } ∧ s.errInfo = 0
  noOutput : s.status.err = true →
    s.err.op ∈ [encode .frame, encode .decode, encode .compress, encode .decompress] → s.dstLen = 0

/-- A byte of a byte memory as the model reads it. -/
def readByte (s : State) (w : BufferId) (a : Nat) : Byte :=
  match w with
  | .src => s.src.read .src a
  | .dst => s.dst.read .dst a
  | .pay => s.pay.read .pay a

/-! ### What a command leaves unchanged -/

/-- The input: SRC_LEN and every byte of SRC. -/
def SameInput (s t : State) : Prop := t.srcLen = s.srcLen ∧ ∀ a, readByte t .src a = readByte s .src a

/-- The output: DST_LEN and every byte of DST. -/
def SameOutput (s t : State) : Prop := t.dstLen = s.dstLen ∧ ∀ a, readByte t .dst a = readByte s .dst a

/-- The payload: PAY_LEN, PAD and every byte of PAY. -/
def SamePayload (s t : State) : Prop :=
  t.payLen = s.payLen ∧ t.pad = s.pad ∧ ∀ a, readByte t .pay a = readByte s .pay a

/-- The tree: NODE, ROOT, NODE_CNT. -/
def SameTree (s t : State) : Prop := t.node = s.node ∧ t.root = s.root ∧ t.nodeCnt = s.nodeCnt

/-- The recorded fault: STATUS.ERR, ERR, ERRINFO. -/
def SameFault (s t : State) : Prop := t.status.err = s.status.err ∧ t.err = s.err ∧ t.errInfo = s.errInfo

/-- The parameters and the model's own fields. -/
def SameModel (s t : State) : Prop :=
  t.cfg = s.cfg ∧ t.host = s.host ∧ t.reply = s.reply ∧ t.draws = s.draws

/-! ### The greedy construction -/

/-- The entries of a frequency table, in ascending symbol order (41_tree_build.md R111). -/
def freqEntries (ft : Vector Word 256) : List (Byte × Word) :=
  (symbols.filter fun b => tableGet ft b != 0).map fun b => (b, tableGet ft b)

/-- The sum of all counters of FT. -/
def freqSum (ft : Vector Word 256) : Nat := (symbols.map fun b => (tableGet ft b).toNat).sum

/-- The frequency of a record. -/
def freqAt (nodes : List NodeRec) (x : Nat) : Nat :=
  match nodes[x]? with
  | some n => n.freq.toNat
  | none => 0

/-- The order of H: frequency, then node index (41_tree_build.md R113). -/
def Earlier (nodes : List NodeRec) (x y : Nat) : Prop :=
  freqAt nodes x < freqAt nodes y ∨ (freqAt nodes x = freqAt nodes y ∧ x < y)

/-- Node `x` is in H when the first `m` records exist: it is one of them and the child of none of them. -/
def Waiting (nodes : List NodeRec) (m x : Nat) : Prop :=
  x < m ∧ ∀ y n, y < m → nodes[y]? = some n → n.kind = .internal → n.left.toNat ≠ x ∧ n.right.toNat ≠ x

/-! ### How a command ended -/

/-- The command ended without fault (46_macro_control.md R185). -/
def Succeeded (s : State) : Prop := s.status.done = true ∧ s.status.err = false

/-- The command ended with the fault of cause `c` recorded by the command word `op` (60_exceptions.md R210). -/
def Faulted (s : State) (op : Byte) (c : FaultCause) (info : Nat) : Prop :=
  s.status.done = false ∧ s.status.err = true ∧ s.err = { kind := c.kind, sub := c.sub, op := op } ∧
    s.errInfo = errInfoWord info

/-- Command `i` in state `s` ends with the fault of cause `c` and the diagnostic value `info`. -/
def FaultsWith (i : Instr) (s : State) (c : FaultCause) (info : Nat) : Prop :=
  ∃ t, exec i s = .next t ∧ Faulted t (encode i) c info

end Sys2Proof.Safety
end

