-- ==== Sys2Proof/Certificates/Slice0/Obligations.lean ====
section
/-! DEFINITION. The statements for the provers, from the spec's numbered rules. -/

open Sys2Proof Sys2Proof.Machine Sys2Proof.Safety

/-! ### Command words -/

/-- 30_encoding.md R70, R72: decoding the word of a command gives the command back. -/
def Obligations.DecodeInvertsEncode : Prop :=
  ∀ i : Instr, i.wellFormed = true → decodeWord (encode i) = .ok i

/-- 30_encoding.md R73: ten words decode to a command, the other 246 are refused; no word is read as another
command's. -/
def Obligations.DecodeAcceptsExactlyTenWords : Prop :=
  ∀ b : Byte, ((∃ i, decodeWord b = .ok i) ↔ b.toNat ≤ 9) ∧ (∀ i, decodeWord b = .ok i → b = encode i)

/-- 30_encoding.md R72: words written out from the map's bit patterns. -/
def Obligations.SpecWordsDecode : Prop :=
  decodeWord 0b00000000 = .ok .clr ∧ decodeWord 0b00000001 = .ok .freq ∧ decodeWord 0b00000010 = .ok .build ∧
  decodeWord 0b00000011 = .ok .gencode ∧ decodeWord 0b00000100 = .ok .encode ∧
  decodeWord 0b00000101 = .ok .frame ∧ decodeWord 0b00000110 = .ok .parse ∧ decodeWord 0b00000111 = .ok .decode ∧
  decodeWord 0b00001000 = .ok .compress ∧ decodeWord 0b00001001 = .ok .decompress ∧
  decodeWord 0b00001010 = .error (.reservedOpc 0b1010) ∧ decodeWord 0b00010000 = .error (.zeroFieldSet 0b0001)

/-! ### The step and the protocol -/

/-- A step whose next host move is a CMD write runs the command the word decodes to, and for a word no command has the
rule of the reserved words, on the state with that move taken from the host's pending moves and the reply of the move
before cleared (10_state.md R23; Log 1, Log 12). -/
def Obligations.StepRunsDecodedCommand : Prop :=
  ∀ (s : State) (v : Word) (rest : List HostMove), s.host = .writeReg 0 v :: rest →
    (∀ i, decodeWord (cmdByte v) = .ok i → i.wellFormed = true →
      step s = exec i { s with host := rest, reply := .nothing }) ∧
    (∀ e, decodeWord (cmdByte v) = .error e →
      step s = execIllegal (cmdByte v) { s with host := rest, reply := .nothing }) ∧
    step s = command (cmdByte v) { s with host := rest, reply := .nothing }

/-- 46_macro_control.md R183: a reserved word raises IllegalCommand and changes nothing else. -/
def Obligations.ReservedWordRaisesIllegalCommand : Prop :=
  ∀ (s : State) (w : Byte), 0x0A ≤ w.toNat → s.status.err = false →
    command w s = .next { s with
      status := { done := false, err := true, empty := s.status.empty }
      err := { kind := 6, sub := 0, op := w }
      errInfo := w.setWidth 32 }

/-- 46_macro_control.md R184: while a fault is recorded every word but CLR's is ignored, and no step but a CLR or a
reset clears or overwrites the fault. -/
def Obligations.FaultHoldsUntilAcknowledged : Prop :=
  (∀ (s : State) (w : Byte), s.status.err = true → w ≠ 0x00 → command w s = .next s) ∧
  (∀ s t : State, s.status.err = true → step s = .next t →
    (∀ rest, s.host ≠ .reset :: rest) → (∀ v rest, s.host = .writeReg 0 v :: rest → cmdByte v ≠ 0x00) →
    t.status = s.status ∧ t.err = s.err ∧ t.errInfo = s.errInfo)

/-- 46_macro_control.md R185: after a CMD write exactly one of DONE and ERR is set. -/
def Obligations.ExactlyOneOfDoneAndErr : Prop :=
  ∀ (s t : State) (w : Byte), ¬ (s.status.done = true ∧ s.status.err = true) → command w s = .next t →
    (t.status.done = true ∧ t.status.err = false) ∨ (t.status.done = false ∧ t.status.err = true)

/-- 46_macro_control.md R182, 10_state.md R45: CLR, also while a fault is recorded, gives the reset values with
DONE = 1; no byte of the buffers keeps its value (Log 5: the contents are unspecified). -/
def Obligations.ClrRestoresResetValues : Prop :=
  ∀ s : State, exec .clr s = .next { State.reset with
    status := { done := true, err := false, empty := false }
    src := { cells := [], gen := s.src.gen + 1 }
    dst := { cells := [], gen := s.dst.gen + 1 }
    pay := { cells := [], gen := s.pay.gen + 1 }
    cfg := s.cfg, host := s.host, reply := s.reply, draws := s.draws }

/-- 10_state.md R45: the values after reset. -/
def Obligations.ResetValues : Prop :=
  State.reset.status = { done := false, err := false, empty := false } ∧
  State.reset.err = { kind := 0, sub := 0, op := 0 } ∧ State.reset.errInfo = 0 ∧
  State.reset.srcLen = 0 ∧ State.reset.dstLen = 0 ∧ State.reset.payLen = 0 ∧ State.reset.pad = 0 ∧
  State.reset.root = 0xFFFF ∧ State.reset.nodeCnt = 0 ∧
  (∀ b, tableGet State.reset.ft b = 0) ∧ (∀ b, tableGet State.reset.ct b = { len := 0, bits := 0 })

/-- 70_reset_and_hazards.md R230: the host's reset move, from every state, a recorded fault or not, gives the reset
values; the buffers are unspecified (Log 5). -/
def Obligations.ResetMoveGivesResetValues : Prop :=
  ∀ (s : State) (rest : List HostMove), s.host = .reset :: rest →
    step s = .next { State.reset with
      src := { cells := [], gen := s.src.gen + 1 }
      dst := { cells := [], gen := s.dst.gen + 1 }
      pay := { cells := [], gen := s.pay.gen + 1 }
      cfg := s.cfg, host := rest, reply := .nothing, draws := s.draws }

/-- 60_exceptions.md R208: KIND and SUB of every fault. -/
def Obligations.FaultCodes : Prop :=
  [FaultCause.missingCode, .badMagic, .shortHeader, .zeroCodeLen, .duplicateSymbol, .notPrefixFree, .badPadding,
    .lengthMismatch, .padExceedsPayload, .badPath, .truncatedStream, .capacityPay, .capacityDst, .emptyTable,
    .noTree, .illegalCommand].map (fun c => (c.kind.toNat, c.sub.toNat)) =
  [(1, 0), (2, 1), (2, 2), (2, 3), (2, 4), (2, 5), (2, 6), (2, 7), (2, 8), (2, 9), (3, 0), (4, 1), (4, 2), (5, 1),
    (5, 2), (6, 0)]

/-- 60_exceptions.md R210: fault entry writes ERR, ERRINFO and STATUS.ERR, clears the destinations of the unit that
raised and changes nothing else. That no NODE record is held after BUILD or PARSE faulted is the model's choice (Log 7). -/
def Obligations.FaultEntryClearsDestinations : Prop :=
  ∀ (s : State) (op : Byte) (u : Option UnitId) (c : FaultCause) (info : Nat),
    let t := s.takeFault op u c info
    t.err = { kind := c.kind, sub := c.sub, op := op } ∧ (info < 2 ^ 32 → t.errInfo.toNat = info) ∧
    t.status = { s.status with err := true } ∧
    SameInput s t ∧ t.ft = s.ft ∧ SameModel s t ∧
    (u = some .build ∨ u = some .parse → t.root = nil ∧ t.nodeCnt = 0 ∧ t.node = []) ∧
    (u ≠ some .build → u ≠ some .parse → SameTree s t) ∧
    (u = some .gencode ∨ u = some .parse → ∀ b, tableGet t.ct b = { len := 0, bits := 0 }) ∧
    (u ≠ some .gencode → u ≠ some .parse → t.ct = s.ct) ∧
    (u = some .encode ∨ u = some .parse → t.payLen = 0 ∧ t.pad = 0) ∧
    (u ≠ some .encode → u ≠ some .parse → SamePayload s t) ∧
    (u = some .frame ∨ u = some .decode → t.dstLen = 0) ∧
    (u ≠ some .frame → u ≠ some .decode → SameOutput s t)

/-! ### Frames -/

/-- FREQ, BUILD and GENCODE store to no byte memory; each leaves unchanged what is no destination of it
(40_freq.md R100, 41_tree_build.md R110, 42_codegen.md R130). -/
def Obligations.FreqBuildGencodeFrame : Prop :=
  (∀ s t : State, exec .freq s = .next t →
    SameInput s t ∧ SameTree s t ∧ t.ct = s.ct ∧ SamePayload s t ∧ SameOutput s t ∧ SameFault s t ∧ SameModel s t) ∧
  (∀ s t : State, exec .build s = .next t →
    SameInput s t ∧ t.ft = s.ft ∧ t.ct = s.ct ∧ SamePayload s t ∧ SameOutput s t ∧ SameModel s t ∧
    t.status.empty = s.status.empty ∧ (t.status.err = false → SameFault s t)) ∧
  (∀ s t : State, exec .gencode s = .next t →
    SameInput s t ∧ t.ft = s.ft ∧ SameTree s t ∧ SamePayload s t ∧ SameOutput s t ∧ SameModel s t ∧
    t.status.empty = s.status.empty ∧ (t.status.err = false → SameFault s t))

/-- ENCODE and PARSE: nothing but the destinations changes (43_bit_encode.md R140, 45_container.md R165). That without a
fault every byte of PAY at or above the new PAY_LEN is as before is the model's choice (Log 10). -/
def Obligations.EncodeParseFrame : Prop :=
  (∀ s t : State, exec .encode s = .next t →
    SameInput s t ∧ t.ft = s.ft ∧ SameTree s t ∧ t.ct = s.ct ∧ SameOutput s t ∧ SameModel s t ∧
    t.status.empty = s.status.empty ∧
    (t.status.err = false → SameFault s t ∧ ∀ a, t.payLen.toNat ≤ a → readByte t .pay a = readByte s .pay a)) ∧
  (∀ s t : State, exec .parse s = .next t →
    SameInput s t ∧ t.ft = s.ft ∧ SameOutput s t ∧ SameModel s t ∧ t.status.empty = s.status.empty ∧
    (t.status.err = false → SameFault s t ∧ ∀ a, t.payLen.toNat ≤ a → readByte t .pay a = readByte s .pay a))

/-- FRAME and DECODE write DST and DST_LEN only (45_container.md R160, 44_bit_decode.md R150); what DST holds at and
above DST_LEN afterwards is unspecified (20_memory.md R57; Log 5). -/
def Obligations.FrameDecodeFrame : Prop :=
  ∀ (i : Instr) (s t : State), i = .frame ∨ i = .decode → exec i s = .next t →
    SameInput s t ∧ t.ft = s.ft ∧ SameTree s t ∧ t.ct = s.ct ∧ SamePayload s t ∧ SameModel s t ∧
    t.status.empty = s.status.empty ∧ (t.status.err = false → SameFault s t)

/-- COMPRESS and DECOMPRESS do not change SRC or SRC_LEN; DECOMPRESS leaves FT and EMPTY clear (46_macro_control.md
R180, R181). No command but CLR writes SRC or SRC_LEN (10_state.md R27, R30). -/
def Obligations.MacroFrame : Prop :=
  (∀ (i : Instr) (s t : State), i ≠ .clr → exec i s = .next t → SameInput s t ∧ SameModel s t) ∧
  (∀ s t : State, s.status.err = false → exec .decompress s = .next t →
    (∀ b, tableGet t.ft b = 0) ∧ t.status.empty = false) ∧
  (∀ (i : Instr) (s t : State), i ≠ .clr → exec i s = .next t → t.status.err = false → SameFault s t)

/-! ### FREQ -/

/-- 40_freq.md R100, R101: FREQ completes; every counter is the number of its symbol in the input, the counters sum
to SRC_LEN, and EMPTY tells the empty input. -/
def Obligations.FreqCountsTheInput : Prop :=
  ∀ s : State, s.status.err = false → ∃ t, exec .freq s = .next t ∧ Succeeded t ∧
    (∀ b, (tableGet t.ft b).toNat = s.srcBytes.count b) ∧ freqSum t.ft = s.srcLen.toNat ∧
    (t.status.empty = true ↔ s.srcLen = 0)

/-! ### BUILD -/

/-- 41_tree_build.md R111 to R114, R117: with k ≥ 2 entries BUILD completes; the leaves stand in symbol order; every
further record joins the two least nodes still in H, the least as its left child, and its frequency is their sum. -/
def Obligations.BuildMergesTheTwoLeast : Prop :=
  ∀ (s : State) (k : Nat), s.status.err = false → k = (freqEntries s.ft).length → 2 ≤ k →
    ∃ t, exec .build s = .next t ∧ Succeeded t ∧
      t.node.length = 2 * k - 1 ∧ t.nodeCnt.toNat = 2 * k - 1 ∧ t.root.toNat = 2 * k - 2 ∧
      (∀ (i : Nat) (e : Byte × Word), (freqEntries s.ft)[i]? = some e →
        t.node[i]? = some (NodeRec.leafOf e.1 (e.2.setWidth 40))) ∧
      (∀ m, k ≤ m → m < 2 * k - 1 → ∃ n a b, t.node[m]? = some n ∧ n.kind = .internal ∧
        n.left.toNat = a ∧ n.right.toNat = b ∧ n.freq.toNat = freqAt t.node a + freqAt t.node b ∧
        Waiting t.node m a ∧ Waiting t.node m b ∧ Earlier t.node a b ∧
        ∀ x, Waiting t.node m x → x ≠ a → x ≠ b → Earlier t.node b x)

/-- 41_tree_build.md R115: one distinct symbol gives the synthetic root with the Leaf as its left child. -/
def Obligations.BuildWrapsALoneLeaf : Prop :=
  ∀ (s : State) (b : Byte) (f : Word), s.status.err = false → freqEntries s.ft = [(b, f)] →
    ∃ t, exec .build s = .next t ∧ Succeeded t ∧ t.root = 1 ∧ t.nodeCnt = 2 ∧
      t.node = [
        { kind := .leaf, sym := b, freq := f.setWidth 40, left := 0xFFFF, right := 0xFFFF },
        { kind := .internal, sym := 0, freq := f.setWidth 40, left := 0, right := 0xFFFF }]

/-- 41_tree_build.md R116: BUILD on an empty table faults and leaves no tree; COMPRESS never records this fault. -/
def Obligations.BuildFaultsOnEmptyTable : Prop :=
  (∀ s : State, s.status.err = false → (∀ b, tableGet s.ft b = 0) →
    ∃ t, exec .build s = .next t ∧ Faulted t (encode .build) .emptyTable 0 ∧ t.errInfo = 0 ∧
      t.root = nil ∧ t.nodeCnt = 0) ∧
  (∀ s t : State, s.status.err = false → exec .compress s = .next t → t.status.err = true → t.err.kind ≠ 5)

/-- 41_tree_build.md R119, 10_state.md R39: what BUILD makes of a non-empty table is a tree; its leaves are the
table's entries, every frequency is the sum of the children's, the root's the sum of all counters. -/
def Obligations.BuildMakesATree : Prop :=
  ∀ (s : State) (b : Byte), s.status.err = false → tableGet s.ft b ≠ 0 →
    ∃ t tree, exec .build s = .next t ∧ Succeeded t ∧ TreeOf t tree ∧ tree.sums ∧
      tree.freq.toNat = freqSum s.ft ∧
      tree.leaves.Perm ((freqEntries s.ft).map fun e => (e.1, e.2.setWidth 40))

/-- 41_tree_build.md R118: BUILD's result is a function of FT alone, and so is the code table GENCODE makes of it. -/
def Obligations.BuildDependsOnTableAlone : Prop :=
  ∀ s s' t t' : State, s.status.err = false → s'.status.err = false → s.ft = s'.ft →
    exec .build s = .next t → exec .build s' = .next t' → SameTree t t' ∧ t.status.err = t'.status.err ∧
      ∀ u u', t.status.err = false → exec .gencode t = .next u → exec .gencode t' = .next u' → u.ct = u'.ct

/-! ### GENCODE -/

/-- 42_codegen.md R131, R132 (a), (b), (d), (e): GENCODE completes where there is a tree; the codes are exactly the
leaf paths, and every position from len up is 0. -/
def Obligations.GencodeReadsCodesOffTheTree : Prop :=
  ∀ (s : State) (tree : HTree), s.status.err = false → s.root ≠ nil → TreeOf s tree →
    ∃ t, exec .gencode s = .next t ∧ Succeeded t ∧
      (∀ b c, HasCode t.ct b c ↔ (b, c) ∈ tree.paths) ∧
      (∀ b, (∀ c, (b, c) ∉ tree.paths) → tableGet t.ct b = { len := 0, bits := 0 }) ∧
      (∀ b j, (tableGet t.ct b).len.toNat ≤ j → (tableGet t.ct b).bits.getLsbD j = false)

/-- 42_codegen.md R132 (c): the codes GENCODE makes are prefix-free. -/
def Obligations.GencodeIsPrefixFree : Prop :=
  ∀ s t : State, s.status.err = false → s.root ≠ nil → TreeInv s → exec .gencode s = .next t →
    ∀ b b' c c', b ≠ b' → HasCode t.ct b c → HasCode t.ct b' c' → Apart c c'

/-- 42_codegen.md R133: GENCODE without a tree faults and leaves CT empty. -/
def Obligations.GencodeFaultsWithoutTree : Prop :=
  ∀ s : State, s.status.err = false → s.root = nil →
    ∃ t, exec .gencode s = .next t ∧ Faulted t (encode .gencode) .noTree 0 ∧ t.errInfo = 0 ∧
      ∀ b, tableGet t.ct b = { len := 0, bits := 0 }

/-! ### ENCODE -/

/-- 00_scope.md R14: the padding law. -/
def Obligations.PaddingLaw : Prop :=
  (∀ n, padCount n = (8 - n % 8) % 8 ∧ padCount n ≤ 7 ∧ (n + padCount n) % 8 = 0) ∧
  [0, 1, 2, 3, 4, 5, 6, 7].map padCount = [0, 7, 6, 5, 4, 3, 2, 1] ∧ packBits [] = []

/-- 43_bit_encode.md R141, R143: ENCODE completes when every symbol has a code and the payload fits; PAY holds the
codes in input order and the padding zeros, MSB-first. -/
def Obligations.EncodePacksTheCodes : Prop :=
  ∀ s : State, s.status.err = false → (∀ b ∈ s.srcBytes, (tableGet s.ct b).len ≠ 0) →
    byteCount (concatCodes s.ct s.srcBytes).length ≤ s.cfg.payCap.toNat →
    ∃ t, exec .encode s = .next t ∧ Succeeded t ∧
      t.payLen.toNat = byteCount (concatCodes s.ct s.srcBytes).length ∧
      t.pad.toNat = padCount (concatCodes s.ct s.srcBytes).length ∧
      bitsOf t.payBytes = concatCodes s.ct s.srcBytes ++ List.replicate t.pad.toNat false

/-- 43_bit_encode.md R142: MissingCodeError at the first symbol without a code; COMPRESS never records this fault. -/
def Obligations.EncodeFaultsOnMissingCode : Prop :=
  (∀ (s : State) (pre post : List Byte) (b : Byte), s.status.err = false → s.srcBytes = pre ++ b :: post →
    (∀ x ∈ pre, (tableGet s.ct x).len ≠ 0) → (tableGet s.ct b).len = 0 →
    ∃ t, exec .encode s = .next t ∧ Faulted t (encode .encode) .missingCode pre.length ∧
      t.errInfo.toNat = pre.length ∧ t.payLen = 0 ∧ t.pad = 0) ∧
  (∀ s t : State, s.status.err = false → exec .compress s = .next t → t.status.err = true → t.err.kind ≠ 1)

/-- 43_bit_encode.md R144: CapacityFault when the payload needs more than PAY_CAP bytes. -/
def Obligations.EncodeFaultsOnCapacity : Prop :=
  ∀ s : State, s.status.err = false → (∀ b ∈ s.srcBytes, (tableGet s.ct b).len ≠ 0) →
    s.cfg.payCap.toNat < byteCount (concatCodes s.ct s.srcBytes).length →
    ∃ t, exec .encode s = .next t ∧ Faulted t (encode .encode) .capacityPay 0 ∧ t.payLen = 0 ∧ t.pad = 0

/-! ### FRAME -/

/-- 45_container.md R161, R162: FRAME completes when the container fits; DST is the container layout of the table, the
padding count and the payload. -/
def Obligations.FrameWritesTheLayout : Prop :=
  ∀ s : State, s.status.err = false →
    (layout s.cfg.magic (tableEntriesOf s.ct) (s.pad.setWidth 8) s.payBytes).length ≤ s.cfg.dstCap.toNat →
    ∃ t, exec .frame s = .next t ∧ Succeeded t ∧
      t.dstBytes = layout s.cfg.magic (tableEntriesOf s.ct) (s.pad.setWidth 8) s.payBytes

/-- 45_container.md R163: the largest container, and CapacityFault when it does not fit; there is no output. -/
def Obligations.FrameFaultsOnCapacity : Prop :=
  (∀ s : State, (layout s.cfg.magic (tableEntriesOf s.ct) (s.pad.setWidth 8) s.payBytes).length ≤
    11 + 8704 + s.payLen.toNat) ∧
  (∀ s : State, s.status.err = false →
    s.cfg.dstCap.toNat < (layout s.cfg.magic (tableEntriesOf s.ct) (s.pad.setWidth 8) s.payBytes).length →
    ∃ t, exec .frame s = .next t ∧ Faulted t (encode .frame) .capacityDst 0 ∧ t.dstLen = 0)

/-! ### PARSE -/

/-- 45_container.md R166, R168, R170: PARSE accepts every container whose entries are well-formed, name no symbol
twice and have prefix-free codes, in any order, complete or not, with any unused bits; CT and the tree hold exactly
its codes. -/
def Obligations.ParseRebuildsTableAndTree : Prop :=
  ∀ (s : State) (es : List RawEntry) (pad : Byte) (payload : List Byte), s.status.err = false →
    s.srcBytes = layout s.cfg.magic es pad payload → (∀ e ∈ es, e.ok) → (es.map (·.sym)).Nodup →
    PrefixFree (es.map (·.code)) → pad.toNat ≤ 7 → (payload = [] → pad = 0) →
    payload.length ≤ s.cfg.payCap.toNat →
    ∃ t tree, exec .parse s = .next t ∧ Succeeded t ∧ t.root = 0 ∧ TreeOf t tree ∧
      tree.paths.Perm (es.map fun e => (e.sym, e.code)) ∧
      (∀ b c, HasCode t.ct b c ↔ (b, c) ∈ es.map fun e => (e.sym, e.code)) ∧
      t.payBytes = payload ∧ t.payLen.toNat = payload.length ∧ t.pad.toNat = pad.toNat

/-- 45_container.md R167 checks 1 and 2: the magic, and the room for symbol_count. -/
def Obligations.ParseRejectsBadHeader : Prop :=
  ∀ s : State, s.status.err = false →
    (s.srcBytes.take 4 ≠ s.cfg.magic.toList → FaultsWith .parse s .badMagic 0) ∧
    (s.srcBytes.take 4 = s.cfg.magic.toList → s.srcBytes.length < 6 → FaultsWith .parse s .shortHeader 4)

/-- 45_container.md R167 checks 3 to 7: after any number of good entries `pre`, the next one makes the container corrupt
when it does not fit, has no bits, names a symbol again, or has a code that is a prefix of an earlier code, equal to
one, or has one as a prefix; whatever follows it. -/
def Obligations.ParseRejectsBadEntry : Prop :=
  ∀ (s : State) (pre : List RawEntry) (count : Nat) (rest : List Byte), s.status.err = false →
    s.srcBytes = s.cfg.magic.toList ++ beBytes 2 count ++ pre.flatMap RawEntry.bytes ++ rest →
    pre.length < count → count < 65536 → (∀ x ∈ pre, x.ok) → (pre.map (·.sym)).Nodup →
    PrefixFree (pre.map (·.code)) →
    let e0 := 6 + (pre.flatMap RawEntry.bytes).length
    (rest.length < 2 → FaultsWith .parse s .shortHeader e0) ∧
    (∀ sym tail, rest = sym :: 0 :: tail → FaultsWith .parse s .zeroCodeLen e0) ∧
    (∀ sym len tail, rest = sym :: len :: tail → len ≠ 0 → tail.length < byteCount len.toNat →
      FaultsWith .parse s .shortHeader (e0 + 2)) ∧
    (∀ (e : RawEntry) tail, e.ok → rest = e.bytes ++ tail → e.sym ∈ pre.map (·.sym) →
      FaultsWith .parse s .duplicateSymbol e0) ∧
    (∀ (e : RawEntry) tail, e.ok → rest = e.bytes ++ tail → e.sym ∉ pre.map (·.sym) →
      (∃ x ∈ pre, ¬ Apart x.code e.code) → FaultsWith .parse s .notPrefixFree e0)

/-- 45_container.md R167 checks 8 to 12: after a good table, the padding byte, payload_len and the payload. -/
def Obligations.ParseRejectsBadTrailer : Prop :=
  ∀ (s : State) (es : List RawEntry) (rest : List Byte), s.status.err = false →
    s.srcBytes = s.cfg.magic.toList ++ beBytes 2 es.length ++ es.flatMap RawEntry.bytes ++ rest →
    (∀ e ∈ es, e.ok) → (es.map (·.sym)).Nodup → PrefixFree (es.map (·.code)) →
    let p := 6 + (es.flatMap RawEntry.bytes).length
    (rest = [] → FaultsWith .parse s .shortHeader p) ∧
    (∀ (pad : Byte) tail, rest = pad :: tail → 7 < pad.toNat → FaultsWith .parse s .badPadding p) ∧
    (∀ (pad : Byte) tail, rest = pad :: tail → pad.toNat ≤ 7 → tail.length < 4 →
      FaultsWith .parse s .shortHeader (p + 1)) ∧
    (∀ (pad : Byte) (plen : Nat) (payload : List Byte), rest = pad :: (beBytes 4 plen ++ payload) →
      pad.toNat ≤ 7 → plen < 2 ^ 32 →
      (payload.length ≠ plen → FaultsWith .parse s .lengthMismatch plen) ∧
      (payload.length = plen → plen = 0 → pad ≠ 0 → FaultsWith .parse s .padExceedsPayload p) ∧
      (payload.length = plen → (plen = 0 → pad = 0) → s.cfg.payCap.toNat < plen →
        FaultsWith .parse s .capacityPay 0))

/-- 45_container.md R171, 60_exceptions.md R210: PARSE always answers, and a fault of it is a CorruptContainerError
or a CapacityFault and leaves nothing of the container. -/
def Obligations.ParseFaultLeavesNothing : Prop :=
  ∀ s : State, s.status.err = false → ∃ t, exec .parse s = .next t ∧
    (Succeeded t ∨ (t.status.done = false ∧ t.status.err = true ∧ (t.err.kind = 2 ∨ t.err.kind = 4) ∧
      (∀ b, tableGet t.ct b = { len := 0, bits := 0 }) ∧ t.root = nil ∧ t.nodeCnt = 0 ∧ t.pad = 0 ∧ t.payLen = 0))

/-! ### DECODE -/

/-- 44_bit_decode.md R151, R156: DECODE completes when the payload bits are leaf paths of the tree one after the
other and the symbols fit; DST is their symbols. -/
def Obligations.DecodeEmitsTheSymbols : Prop :=
  ∀ (s : State) (tree : HTree) (es : List (Byte × BitString)), s.status.err = false → s.root ≠ nil →
    TreeOf s tree → s.pad.toNat ≤ 8 * s.payLen.toNat → (∀ e ∈ es, e ∈ tree.paths) →
    s.payloadBits = es.flatMap (·.2) → es.length ≤ s.cfg.dstCap.toNat →
    ∃ t, exec .decode s = .next t ∧ Succeeded t ∧ t.dstBytes = es.map (·.1)

/-- 44_bit_decode.md R152: the bits end inside a code; no payload bits never raise this fault. What ERRINFO holds for a
bit index of 2^32 or more is a free value (Log 6). -/
def Obligations.DecodeFaultsOnTruncatedStream : Prop :=
  (∀ (s : State) (tree : HTree) (es : List (Byte × BitString)) (q : BitString), s.status.err = false →
    s.root ≠ nil → TreeOf s tree → s.pad.toNat ≤ 8 * s.payLen.toNat → (∀ e ∈ es, e ∈ tree.paths) →
    s.payloadBits = es.flatMap (·.2) ++ q → q ≠ [] → (tree.follow q).isNode = true →
    es.length ≤ s.cfg.dstCap.toNat →
    ∃ t, exec .decode s = .next t ∧
      Faulted t (encode .decode) .truncatedStream (es.flatMap (·.2)).length ∧ t.dstLen = 0) ∧
  (∀ s : State, s.status.err = false → s.root ≠ nil → 8 * s.payLen.toNat = s.pad.toNat →
    ∃ t, exec .decode s = .next t ∧ Succeeded t ∧ t.dstLen = 0)

/-- 44_bit_decode.md R153: a bit selects an absent child. What ERRINFO holds for a bit index of 2^32 or more is a free
value (Log 6). -/
def Obligations.DecodeFaultsOnBadPath : Prop :=
  ∀ (s : State) (tree : HTree) (es : List (Byte × BitString)) (q : BitString) (b : Bool) (rest : BitString),
    s.status.err = false → s.root ≠ nil → TreeOf s tree → s.pad.toNat ≤ 8 * s.payLen.toNat →
    (∀ e ∈ es, e ∈ tree.paths) → s.payloadBits = es.flatMap (·.2) ++ q ++ b :: rest →
    (tree.follow q).isNode = true → tree.follow (q ++ [b]) = .absent → es.length ≤ s.cfg.dstCap.toNat →
    ∃ t, exec .decode s = .next t ∧
      Faulted t (encode .decode) .badPath (es.flatMap (·.2) ++ q).length ∧ t.dstLen = 0

/-- 44_bit_decode.md R155: one symbol more than DST_CAP. -/
def Obligations.DecodeFaultsOnCapacity : Prop :=
  ∀ (s : State) (tree : HTree) (es : List (Byte × BitString)) (rest : BitString), s.status.err = false →
    s.root ≠ nil → TreeOf s tree → s.pad.toNat ≤ 8 * s.payLen.toNat → (∀ e ∈ es, e ∈ tree.paths) →
    s.payloadBits = es.flatMap (·.2) ++ rest → s.cfg.dstCap.toNat < es.length →
    ∃ t, exec .decode s = .next t ∧ Faulted t (encode .decode) .capacityDst 0 ∧ t.dstLen = 0

/-- 44_bit_decode.md R154 and R151's second check: no tree, whatever PAY_LEN is, which a PARSE without fault excludes;
padding without payload. -/
def Obligations.DecodeFaultsWithoutTreeOrPayload : Prop :=
  (∀ s : State, s.status.err = false → s.root = nil →
    ∃ t, exec .decode s = .next t ∧ Faulted t (encode .decode) .noTree 0 ∧ t.dstLen = 0) ∧
  (∀ s : State, s.status.err = false → s.root ≠ nil → s.payLen = 0 → s.pad ≠ 0 →
    ∃ t, exec .decode s = .next t ∧ Faulted t (encode .decode) .padExceedsPayload 0 ∧ t.dstLen = 0) ∧
  (∀ s t : State, s.status.err = false → exec .parse s = .next t → t.status.err = false → t.root ≠ nil)

/-! ### The macro commands -/

/-- 46_macro_control.md R180: COMPRESS completes on every non-empty input when the buffers hold the worst case (at most
255 bits a symbol, a table of at most 8704 bytes); the table has a code for exactly the symbols of the input, the
payload is their codes in input order, and DST is the container. -/
def Obligations.CompressMakesTheContainer : Prop :=
  ∀ s : State, s.status.err = false → s.srcLen ≠ 0 → 32 * s.srcLen.toNat ≤ s.cfg.payCap.toNat →
    8715 + 32 * s.srcLen.toNat ≤ s.cfg.dstCap.toNat →
    ∃ t, exec .compress s = .next t ∧ Succeeded t ∧ t.status.empty = false ∧
      (∀ b, (tableGet t.ft b).toNat = s.srcBytes.count b) ∧
      (∀ b, (tableGet t.ct b).len ≠ 0 ↔ b ∈ s.srcBytes) ∧
      bitsOf t.payBytes = concatCodes t.ct s.srcBytes ++ List.replicate t.pad.toNat false ∧
      t.pad.toNat = padCount (concatCodes t.ct s.srcBytes).length ∧
      t.dstBytes = layout s.cfg.magic (tableEntriesOf t.ct) (t.pad.setWidth 8) t.payBytes

/-- 46_macro_control.md R180 step 3, 30_encoding.md R88, 60_exceptions.md R207: the empty input gives the 11-byte empty
container, EMPTY = 1, no fault and no tree. -/
def Obligations.CompressOfEmptyInput : Prop :=
  ∀ s : State, s.status.err = false → s.srcLen = 0 → 11 ≤ s.cfg.dstCap.toNat →
    ∃ t, exec .compress s = .next t ∧ Succeeded t ∧ t.status.empty = true ∧ t.root = nil ∧ t.nodeCnt = 0 ∧
      t.dstBytes = s.cfg.magic.toList ++ [0, 0, 0, 0, 0, 0, 0]

/-- 46_macro_control.md R180: COMPRESS always answers, and its only fault is CapacityFault, without output. -/
def Obligations.CompressFailsOnlyOnCapacity : Prop :=
  ∀ s : State, s.status.err = false → ∃ t, exec .compress s = .next t ∧
    (Succeeded t ∨ (t.status.done = false ∧ t.status.err = true ∧ t.err.kind = 4 ∧
      t.err.op = encode .compress ∧ t.dstLen = 0))

/-- 46_macro_control.md R180, "Result": COMPRESS is a function of the input alone; nothing the host or an earlier
command left in the state can influence it. -/
def Obligations.CompressDependsOnInputAlone : Prop :=
  ∀ s s' t t' : State, s.status.err = false → s'.status.err = false → s.cfg = s'.cfg →
    s.srcBytes = s'.srcBytes → exec .compress s = .next t → exec .compress s' = .next t' →
    t.status = t'.status ∧ (t.status.err = true → t.err = t'.err ∧ t.errInfo = t'.errInfo) ∧
    t.dstLen = t'.dstLen ∧ t.dstBytes = t'.dstBytes ∧ t.ft = t'.ft ∧ t.ct = t'.ct ∧ SameTree t t' ∧
    t.payLen = t'.payLen ∧ t.pad = t'.pad ∧ t.payBytes = t'.payBytes

/-- 46_macro_control.md R187: on cleared derived state, as after CLR and a load of SRC, the unit commands one by one
leave the state the macro command leaves. -/
def Obligations.MacroAgreesWithUnits : Prop :=
  (∀ s t : State, s.status.err = false → s.clearDerived = s → s.srcLen ≠ 0 →
    exec .compress s = .next t → Succeeded t →
    ∃ a b c d, exec .freq s = .next a ∧ exec .build a = .next b ∧ exec .gencode b = .next c ∧
      exec .encode c = .next d ∧ exec .frame d = .next t) ∧
  (∀ s t : State, s.status.err = false → s.clearDerived = s → s.srcLen = 0 →
    exec .compress s = .next t → Succeeded t → ∃ a, exec .freq s = .next a ∧ exec .frame a = .next t) ∧
  (∀ s t : State, s.status.err = false → s.clearDerived = s →
    exec .decompress s = .next t → Succeeded t → ∃ a, exec .parse s = .next a ∧ exec .decode a = .next t)

/-- 46_macro_control.md R181: DECOMPRESS completes on a container whose payload spells codes of its table. -/
def Obligations.DecompressReadsTheContainer : Prop :=
  ∀ (s : State) (es : List RawEntry) (pad : Byte) (payload : List Byte) (xs : List RawEntry),
    s.status.err = false → s.srcBytes = layout s.cfg.magic es pad payload → (∀ e ∈ es, e.ok) →
    (es.map (·.sym)).Nodup → PrefixFree (es.map (·.code)) → pad.toNat ≤ 7 → (payload = [] → pad = 0) →
    payload.length ≤ s.cfg.payCap.toNat → (∀ x ∈ xs, x ∈ es) → xs.length ≤ s.cfg.dstCap.toNat →
    (bitsOf payload).take (8 * payload.length - pad.toNat) = xs.flatMap (·.code) →
    ∃ t, exec .decompress s = .next t ∧ Succeeded t ∧ t.dstBytes = xs.map (·.sym)

/-- 46_macro_control.md R181: DECOMPRESS always answers; its faults are CorruptContainerError, TruncatedStreamError and
CapacityFault, and leave no output. -/
def Obligations.DecompressFaults : Prop :=
  ∀ s : State, s.status.err = false → ∃ t, exec .decompress s = .next t ∧
    (Succeeded t ∨ (t.status.done = false ∧ t.status.err = true ∧ t.err.op = encode .decompress ∧
      (t.err.kind = 2 ∨ t.err.kind = 3 ∨ t.err.kind = 4) ∧ t.dstLen = 0))

/-- 46_macro_control.md R186: load, COMPRESS, copy DST to SRC, DECOMPRESS: when neither command records CapacityFault,
none records a fault and the output is the input. -/
def Obligations.RoundTrip : Prop :=
  ∀ s t u : State, s.status.err = false → exec .compress s = .next t →
    ¬ (t.status.err = true ∧ t.err.kind = 4) → u.status.err = false → u.cfg = s.cfg → u.srcBytes = t.dstBytes →
    Succeeded t ∧ ∃ v, exec .decompress u = .next v ∧
      (¬ (v.status.err = true ∧ v.err.kind = 4) →
        Succeeded v ∧ v.dstLen = s.srcLen ∧ v.dstBytes = s.srcBytes)

/-! ### The host port -/

/-- 60_exceptions.md R225, 70_reset_and_hazards.md R230: with no pending move the core is idle and holds its state. -/
def Obligations.IdleHoldsTheState : Prop := ∀ s : State, s.host = [] → step s = .next s

/-- 10_state.md R23 to R29, R35, R37, R44: what a register reads as; the read changes nothing else. -/
def Obligations.RegisterReads : Prop :=
  ∀ (s : State) (n : BitVec 4) (rest : List HostMove), s.host = .readReg n :: rest →
    ∃ v : Word, step s = .next { s with host := rest, reply := .word v } ∧
      (n = 0 ∨ 10 ≤ n.toNat → v = 0) ∧
      (n = 1 → v.getLsbD 0 = s.status.done ∧ v.getLsbD 1 = s.status.err ∧ v.getLsbD 2 = s.status.empty ∧
        ∀ i, 3 ≤ i → v.getLsbD i = false) ∧
      (n = 2 → v.extractLsb' 0 4 = s.err.kind ∧ v.extractLsb' 4 4 = s.err.sub ∧ v.extractLsb' 8 8 = s.err.op ∧
        v.extractLsb' 16 16 = 0) ∧
      (n = 3 → v = s.errInfo) ∧ (n = 4 → v = s.srcLen) ∧ (n = 5 → v = s.dstLen) ∧ (n = 6 → v = s.payLen) ∧
      (n = 7 → v.toNat = s.pad.toNat) ∧ (n = 8 → v.toNat = s.root.toNat) ∧ (n = 9 → v.toNat = s.nodeCnt.toNat)

/-- 10_state.md R27, R29, R37, R43: a host write of a legal value to SRC_LEN, PAY_LEN or PAD changes that register
only; an illegal value, a read-only or a reserved register is ignored. -/
def Obligations.RegisterWrites : Prop :=
  ∀ (s : State) (n : BitVec 4) (v : Word) (rest : List HostMove), s.host = .writeReg n v :: rest → n ≠ 0 →
    let t := { s with host := rest, reply := .nothing }
    step s = .next (
      if n = 4 ∧ v.toNat ≤ s.cfg.srcCap.toNat then { t with srcLen := v }
      else if n = 6 ∧ v.toNat ≤ s.cfg.payCap.toNat then { t with payLen := v }
      else if n = 7 ∧ v.toNat ≤ 7 then { t with pad := v.setWidth 3 }
      else t)

/-- 20_memory.md R57, 70_reset_and_hazards.md R241: a window element below the meaningful length reads as what it
holds; at or above it the reply is a free value, a new one each time (Log 4). Nothing else changes. -/
def Obligations.WindowReads : Prop :=
  ∀ (s : State) (a : WindowAddr) (rest : List HostMove), s.host = .readWindow a :: rest → TreeInv s →
    ∃ r d, step s = .next { s with host := rest, reply := r, draws := d } ∧
      (match a with
      | .src off => if off.toNat < s.srcLen.toNat then r = .byte (readByte s .src off.toNat) ∧ d = s.draws
          else r = .byte (Config.drawByte s.draws) ∧ d = s.draws + 1
      | .dst off => if off.toNat < s.dstLen.toNat then r = .byte (readByte s .dst off.toNat) ∧ d = s.draws
          else r = .byte (Config.drawByte s.draws) ∧ d = s.draws + 1
      | .pay off => if off.toNat < s.payLen.toNat then r = .byte (readByte s .pay off.toNat) ∧ d = s.draws
          else r = .byte (Config.drawByte s.draws) ∧ d = s.draws + 1
      | .ft b => r = .word (tableGet s.ft b) ∧ d = s.draws
      | .ct b => r = .code (tableGet s.ct b) ∧ d = s.draws
      | .node i => if i.toNat < s.nodeCnt.toNat then (∃ n, s.node[i.toNat]? = some n ∧ r = .record n) ∧ d = s.draws
          else r = .record (Config.drawNode s.draws) ∧ d = s.draws + 1)

/-- 10_state.md R42, 20_memory.md R62: a host write to SRC, PAY, FT or CT changes exactly the element written; a write
at or above the capacity, to DST or to NODE changes nothing. -/
def Obligations.WindowWrites : Prop :=
  ∀ (s : State) (w : WindowWrite) (rest : List HostMove), s.host = .writeWindow w :: rest →
    ∃ t, step s = .next t ∧
      (match w with
      | .src off v => t = { s with host := rest, reply := .nothing, src := t.src } ∧
          ∀ a, readByte t .src a = if a = off.toNat ∧ a < s.cfg.srcCap.toNat then v else readByte s .src a
      | .pay off v => t = { s with host := rest, reply := .nothing, pay := t.pay } ∧
          ∀ a, readByte t .pay a = if a = off.toNat ∧ a < s.cfg.payCap.toNat then v else readByte s .pay a
      | .ft b v => t = { s with host := rest, reply := .nothing, ft := t.ft } ∧
          ∀ x, tableGet t.ft x = if x = b then v else tableGet s.ft x
      | .ct b v => t = { s with host := rest, reply := .nothing, ct := t.ct } ∧
          ∀ x, tableGet t.ct x = if x = b then v else tableGet s.ct x
      | .dst _ _ => t = { s with host := rest, reply := .nothing }
      | .node _ _ => t = { s with host := rest, reply := .nothing })

/-- 30_encoding.md R90, R91, R92: the record formats on the host port. -/
def Obligations.RecordFormats : Prop :=
  (∀ r : CtRec, r.portBytes.length = 33 ∧ r.portBytes.head? = some r.len ∧
    ∀ j, j < 256 → (bitsOf r.portBytes.tail)[j]? = some (r.bits.getLsbD j)) ∧
  (∀ r : NodeRec, r.portBytes = [if r.kind = .internal then 1 else 0, r.sym] ++ beBytes 5 r.freq.toNat ++
      beBytes 2 r.left.toNat ++ beBytes 2 r.right.toNat ++ [0] ∧ beNat ((r.portBytes.drop 2).take 5) = r.freq.toNat ∧
    beNat ((r.portBytes.drop 7).take 2) = r.left.toNat ∧ beNat ((r.portBytes.drop 9).take 2) = r.right.toNat) ∧
  (∀ v : Word, (HostReply.word v).portBytes.length = 4 ∧ beNat (HostReply.word v).portBytes = v.toNat)

/-! ### Invariants -/

/-- 10_state.md R24 to R29, R39, R45: the reset state meets the invariants. -/
def Obligations.ResetMeetsTheInvariants : Prop := RegInv State.reset ∧ TreeInv State.reset

/-- 10_state.md R24 to R29, 60_exceptions.md R216: every step, whichever host move it takes, keeps the lengths within the
capacities, the memories canonical, the flags and the fault record consistent and the output withheld after a fault. -/
def Obligations.StepKeepsTheRegisters : Prop :=
  ∀ s t : State, RegInv s → step s = .next t → RegInv t

/-- 10_state.md R39: every step keeps the tree a tree. -/
def Obligations.StepKeepsTheTree : Prop :=
  ∀ s t : State, TreeInv s → step s = .next t → TreeInv t

/-- 60_exceptions.md R200, 00_scope.md R5: nothing makes the machine stop or hang; every step from a state whose tree is
a tree answers a next state. -/
def Obligations.StepNeverStops : Prop :=
  ∀ s : State, TreeInv s → ∃ t, step s = .next t

/-- 10_state.md R46: the parameters are fixed for the life of an instance. -/
def Obligations.StepKeepsTheParameters : Prop :=
  ∀ s t : State, step s = .next t → t.cfg = s.cfg
end

