-- ==== Sys2Proof/Laws/Bits.lean ====
section
/-! SUPPORT. The laws of bits, bytes, container integers and codes: packing and unpacking agree. -/

namespace Sys2Proof.Laws

open Sys2Proof.Machine

theorem byteBits_byteOfBits (f : Nat → Bool) :
    byteBits (byteOfBits f) = [f 0, f 1, f 2, f 3, f 4, f 5, f 6, f 7] := by
  have h : ∀ i, (byteOfBits f).getMsbD i = [f 0, f 1, f 2, f 3, f 4, f 5, f 6, f 7].getD i false := fun i =>
    BitVec.getMsbD_ofBoolListBE
  have g : ∀ i, i < 8 → (byteOfBits f).getLsbD (7 - i) = [f 0, f 1, f 2, f 3, f 4, f 5, f 6, f 7].getD i false := by
    intro i hi
    have h2 := h i
    rw [BitVec.getMsbD] at h2
    simpa [hi] using h2
  have g0 := g 0 (by omega); have g1 := g 1 (by omega); have g2 := g 2 (by omega); have g3 := g 3 (by omega)
  have g4 := g 4 (by omega); have g5 := g 5 (by omega); have g6 := g 6 (by omega); have g7 := g 7 (by omega)
  simp only [Nat.sub_zero, Nat.reduceSub] at g0 g1 g2 g3 g4 g5 g6 g7
  simp only [byteBits, g0, g1, g2, g3, g4, g5, g6, g7]
  rfl

@[simp] theorem length_byteBits (b : Byte) : (byteBits b).length = 8 := rfl

@[simp] theorem length_bitsOf (bs : List Byte) : (bitsOf bs).length = 8 * bs.length := by
  induction bs with
  | nil => rfl
  | cons b bs ih => simp only [bitsOf, List.flatMap_cons, List.length_append] at ih ⊢; simp [ih]; omega

@[simp] theorem length_packBits (c : BitString) : (packBits c).length = byteCount c.length := by simp [packBits]

theorem padCount_le (n : Nat) : padCount n ≤ 7 := by simp only [padCount]; omega

/-- The padding law: the padded length is a multiple of 8, the one ceil(n / 8) bytes have (00_scope.md R14). -/
theorem add_padCount (n : Nat) : n + padCount n = 8 * byteCount n := by simp only [padCount, byteCount]; omega

theorem byteCount_mul (n : Nat) : byteCount (8 * n) = n := by simp only [byteCount]; omega

theorem bitsOf_map_range (f : Nat → Bool) (n : Nat) :
    bitsOf ((List.range n).map fun m => byteOfBits fun t => f (8 * m + t)) = (List.range (8 * n)).map f := by
  induction n with
  | zero => rfl
  | succ n ih =>
    simp only [bitsOf] at ih ⊢
    rw [List.range_succ, List.map_append, List.flatMap_append, ih]
    have h8 : 8 * (n + 1) = 8 * n + 8 := by omega
    have hr : List.range 8 = [0, 1, 2, 3, 4, 5, 6, 7] := rfl
    rw [h8, List.range_add, List.map_append, hr]
    simp [byteBits_byteOfBits]

/-- Unpacking what was packed gives the bits and the padding zeros. -/
theorem bitsOf_packBits (c : BitString) :
    bitsOf (packBits c) = c ++ List.replicate (padCount c.length) false := by
  have h : bitsOf (packBits c) = (List.range (8 * byteCount c.length)).map fun j => c.getD j false :=
    bitsOf_map_range (fun j => c.getD j false) _
  rw [h, ← add_padCount]
  apply List.ext_getElem (by simp)
  intro i h1 h2
  simp only [List.getElem_map, List.getElem_range, List.getElem_append, List.getElem_replicate]
  split
  · rename_i hc; simp [hc]
  · rename_i hc; simp [Nat.not_lt.mp hc]

theorem take_bitsOf_packBits (c : BitString) : (bitsOf (packBits c)).take c.length = c := by
  simp [bitsOf_packBits]

@[simp] theorem length_beBytes (n v : Nat) : (beBytes n v).length = n := by simp [beBytes]

theorem beNat_beBytes2 {v : Nat} (h : v < 65536) : beNat (beBytes 2 v) = v := by
  have hr : List.range 2 = [0, 1] := rfl
  simp only [beBytes, beNat, hr, List.map_cons, List.map_nil, List.foldl_cons, List.foldl_nil, BitVec.toNat_ofNat,
    Nat.shiftRight_eq_div_pow]
  norm_num
  omega

theorem beNat_beBytes4 {v : Nat} (h : v < 4294967296) : beNat (beBytes 4 v) = v := by
  have hr : List.range 4 = [0, 1, 2, 3] := rfl
  simp only [beBytes, beNat, hr, List.map_cons, List.map_nil, List.foldl_cons, List.foldl_nil, BitVec.toNat_ofNat,
    Nat.shiftRight_eq_div_pow]
  norm_num
  omega

@[simp] theorem length_code (r : CtRec) : r.code.length = r.len.toNat := by simp [CtRec.code]

theorem len_ofCode {c : BitString} (h : c.length ≤ 255) : (CtRec.ofCode c).len.toNat = c.length := by
  simp only [CtRec.ofCode, BitVec.toNat_ofNat]; omega

/-- A code of at most 255 bits is read back from its record. -/
theorem code_ofCode {c : BitString} (h : c.length ≤ 255) : (CtRec.ofCode c).code = c := by
  apply List.ext_getElem
  · rw [length_code, len_ofCode h]
  · intro i h1 h2
    have h3 : i < 256 := by omega
    simp only [CtRec.code, CtRec.ofCode, List.getElem_map, List.getElem_range, BitVec.getLsbD_setWidth,
      BitVec.getLsbD_ofBoolListLE]
    simp [h2, h3]

theorem len_ofCode_ne_zero {c : BitString} (h : c.length ≤ 255) (h0 : c ≠ []) : (CtRec.ofCode c).len ≠ 0 := by
  intro e
  have := len_ofCode h
  rw [e] at this
  exact h0 (List.length_eq_zero_iff.mp (by simpa using this.symm))

@[simp] theorem child_setChild (n : NodeRec) (b c : Bool) (i : NodeIdx) :
    (n.setChild b i).child c = if b = c then i else n.child c := by
  cases b <;> cases c <;> simp [NodeRec.setChild, NodeRec.child]

@[simp] theorem kind_setChild (n : NodeRec) (b : Bool) (i : NodeIdx) : (n.setChild b i).kind = n.kind := by
  cases b <;> rfl

@[simp] theorem sym_setChild (n : NodeRec) (b : Bool) (i : NodeIdx) : (n.setChild b i).sym = n.sym := by
  cases b <;> rfl

@[simp] theorem child_internalOf_nil (f : BitVec 40) (b : Bool) : (NodeRec.internalOf f nil nil).child b = nil := by
  cases b <;> rfl

end Sys2Proof.Laws
end

