-- ==== Sys2Proof/Laws/Tables.lean ====
section
/-! SUPPORT. The laws of the 256-element tables FT and CT. -/

namespace Sys2Proof.Laws

open Sys2Proof.Machine

@[simp] theorem tableGet_set {α : Type} (t : Vector α 256) (b c : Byte) (v : α) :
    tableGet (tableSet t b v) c = if b = c then v else tableGet t c := by
  simp only [tableGet, tableSet, Vector.getElem_set, BitVec.toNat_inj]

@[simp] theorem tableGet_replicate {α : Type} (v : α) (b : Byte) : tableGet (Vector.replicate 256 v) b = v := by
  simp [tableGet]

@[simp] theorem tableGet_emptyFreq (b : Byte) : tableGet emptyFreqTable b = 0 := tableGet_replicate _ b

@[simp] theorem tableGet_emptyCode (b : Byte) : tableGet emptyCodeTable b = { len := 0, bits := 0 } :=
  tableGet_replicate _ b

/-- Two tables with the same elements are equal. -/
theorem table_ext {α : Type} {t u : Vector α 256} (h : ∀ b, tableGet t b = tableGet u b) : t = u := by
  apply Vector.ext
  intro i hi
  have := h (BitVec.ofNat 8 i)
  simpa [tableGet, Nat.mod_eq_of_lt hi] using this

theorem length_symbols : symbols.length = 256 := by simp [symbols]

theorem mem_symbols (b : Byte) : b ∈ symbols := by
  simp only [symbols, List.mem_map, List.mem_range]
  exact ⟨b.toNat, b.isLt, by simp⟩

theorem getElem_symbols (i : Nat) (h : i < symbols.length) : symbols[i] = BitVec.ofNat 8 i := by
  simp [symbols]

/-- The list of a table: each symbol with its element. -/
theorem tableList_eq {α : Type} (t : Vector α 256) : tableList t = symbols.map fun b => (b, tableGet t b) := by
  apply List.ext_getElem
  · simp [tableList, length_symbols]
  · intro i h1 h2
    have hi : i < 256 := by simpa [length_symbols] using h2
    simp [tableList, getElem_symbols, tableGet, Nat.mod_eq_of_lt hi]

theorem mem_tableList {α : Type} (t : Vector α 256) (b : Byte) (v : α) :
    (b, v) ∈ tableList t ↔ v = tableGet t b := by
  simp only [tableList_eq, List.mem_map, Prod.mk.injEq]
  constructor
  · rintro ⟨c, -, rfl, rfl⟩; rfl
  · rintro rfl; exact ⟨b, mem_symbols b, rfl, rfl⟩

/-- The symbols stand in ascending order, each once. -/
theorem symbols_sorted : symbols.Pairwise (fun a b => a.toNat < b.toNat) := by
  rw [List.pairwise_iff_getElem]
  intro i j hi hj hij
  have h1 : j < 256 := by simpa [length_symbols] using hj
  simp [getElem_symbols, Nat.mod_eq_of_lt h1, Nat.mod_eq_of_lt (Nat.lt_trans hij h1), hij]

theorem nodup_symbols : symbols.Nodup :=
  symbols_sorted.imp fun h e => by subst e; omega

end Sys2Proof.Laws
end

