-- ==== Sys2Proof/Laws/Tree.lean ====
section
/-! SUPPORT. The tree walks of GENCODE and DECODE on records that form a tree (10_state.md R38, R39). -/

namespace Sys2Proof.Laws

open Sys2Proof.Machine Sys2Proof.Safety

/-! ### The relation between records and trees -/

theorem isTree_nil {nodes : List NodeRec} {t : HTree} {xs : List Nat} (h : IsTree nodes nil t xs) :
    t = .absent ∧ xs = [] := by
  cases h with
  | absent => exact ⟨rfl, rfl⟩
  | leaf hi => exact absurd rfl hi
  | node hi => exact absurd rfl hi

theorem isTree_absent {nodes : List NodeRec} {i : NodeIdx} {xs : List Nat} (h : IsTree nodes i .absent xs) :
    i = nil ∧ xs = [] := by
  cases h; exact ⟨rfl, rfl⟩

/-- A tree depends only on the records its walk meets. -/
theorem isTree_congr {nodes nodes' : List NodeRec} {i : NodeIdx} {t : HTree} {xs : List Nat}
    (h : IsTree nodes i t xs) (hx : ∀ x ∈ xs, nodes'[x]? = nodes[x]?) : IsTree nodes' i t xs := by
  induction h with
  | absent => exact .absent
  | leaf hi hn hk => exact .leaf hi ((hx _ (by simp)).trans hn) hk
  | node hi hn hk _ _ ihl ihr =>
    exact .node hi ((hx _ (by simp)).trans hn) hk (ihl fun x h => hx x (by simp [h])) (ihr fun x h => hx x (by simp [h]))

/-- The walk stays inside the records in use. -/
theorem isTree_lt {nodes : List NodeRec} {i : NodeIdx} {t : HTree} {xs : List Nat} (h : IsTree nodes i t xs) :
    ∀ x ∈ xs, x < nodes.length := by
  induction h with
  | absent => simp
  | leaf _ hn _ =>
    intro x hx
    rw [List.mem_singleton.mp hx]
    exact (List.getElem?_eq_some_iff.mp hn).1
  | node _ hn _ _ _ ihl ihr =>
    intro x hx
    rcases List.mem_cons.mp hx with rfl | hx
    · exact (List.getElem?_eq_some_iff.mp hn).1
    · rcases List.mem_append.mp hx with hx | hx
      · exact ihl x hx
      · exact ihr x hx

/-- An index that is not NIL is met by its own walk. -/
theorem isTree_head_mem {nodes : List NodeRec} {i : NodeIdx} {t : HTree} {xs : List Nat} (h : IsTree nodes i t xs)
    (hi : i ≠ nil) : i.toNat ∈ xs := by
  cases h with
  | absent => exact absurd rfl hi
  | leaf => simp
  | node => simp

/-- The records determine the tree. -/
theorem isTree_unique {nodes : List NodeRec} {i : NodeIdx} {t : HTree} {xs : List Nat} (h : IsTree nodes i t xs) :
    ∀ {u : HTree} {ys : List Nat}, IsTree nodes i u ys → u = t ∧ ys = xs := by
  induction h with
  | absent => intro u ys h2; exact isTree_nil h2
  | leaf hi hn hk =>
    intro u ys h2
    cases h2 with
    | absent => exact absurd rfl hi
    | leaf _ hn' _ => cases hn.symm.trans hn'; exact ⟨rfl, rfl⟩
    | node _ hn' hk' => cases hn.symm.trans hn'; rw [hk] at hk'; cases hk'
  | node hi hn hk _ _ ihl ihr =>
    intro u ys h2
    cases h2 with
    | absent => exact absurd rfl hi
    | leaf _ hn' hk' => cases hn.symm.trans hn'; rw [hk] at hk'; cases hk'
    | node _ hn' _ hl' hr' =>
      cases hn.symm.trans hn'
      obtain ⟨rfl, rfl⟩ := ihl hl'
      obtain ⟨rfl, rfl⟩ := ihr hr'
      exact ⟨rfl, rfl⟩

/-- The child a bit selects, as a sub-tree. -/
theorem isTree_child {nodes : List NodeRec} {i : NodeIdx} {f : BitVec 40} {l r : HTree} {xs : List Nat}
    (h : IsTree nodes i (.node f l r) xs) : ∃ n ls rs, i ≠ nil ∧ nodes[i.toNat]? = some n ∧ n.kind = .internal ∧
      n.freq = f ∧ IsTree nodes n.left l ls ∧ IsTree nodes n.right r rs ∧ xs = i.toNat :: (ls ++ rs) := by
  cases h with
  | node hi hn hk hl hr => exact ⟨_, _, _, hi, hn, hk, rfl, hl, hr, rfl⟩

/-! ### Paths -/

/-- No path is longer than the tree is high. -/
theorem path_length {t : HTree} {e : Byte × BitString} (h : e ∈ t.paths) : e.2.length + 1 ≤ t.levels := by
  induction t generalizing e with
  | absent => simp [HTree.paths] at h
  | leaf b f => simp only [HTree.paths, List.mem_singleton] at h; subst h; simp [HTree.levels]
  | node f l r ihl ihr =>
    simp only [HTree.paths, List.mem_append, List.mem_map] at h
    simp only [HTree.levels]
    rcases h with ⟨a, ha, rfl⟩ | ⟨a, ha, rfl⟩
    · have := ihl ha; simp only [List.length_cons]; omega
    · have := ihr ha; simp only [List.length_cons]; omega

theorem path_ne_nil {t : HTree} (ht : t.isNode = true) {e : Byte × BitString} (h : e ∈ t.paths) : e.2 ≠ [] := by
  cases t with
  | absent => simp [HTree.isNode] at ht
  | leaf => simp [HTree.isNode] at ht
  | node f l r =>
    simp only [HTree.paths, List.mem_append, List.mem_map] at h
    rcases h with ⟨a, -, rfl⟩ | ⟨a, -, rfl⟩ <;> simp

/-- A pair is a leaf with its path exactly when the path leads to a leaf with that symbol. -/
theorem mem_paths {t : HTree} {b : Byte} {c : BitString} : (b, c) ∈ t.paths ↔ ∃ f, t.follow c = .leaf b f := by
  induction t generalizing c with
  | absent => cases c <;> simp [HTree.paths, HTree.follow]
  | leaf b' f =>
    cases c with
    | nil => simp [HTree.paths, HTree.follow, eq_comm]
    | cons x c => simp [HTree.paths, HTree.follow]
  | node f l r ihl ihr =>
    cases c with
    | nil => simp [HTree.paths, HTree.follow]
    | cons x c => cases x <;> simp [HTree.paths, HTree.follow, ihl, ihr]

theorem follow_append (t : HTree) (p q : BitString) : t.follow (p ++ q) = (t.follow p).follow q := by
  induction p generalizing t with
  | nil => cases t <;> rfl
  | cons b p ih =>
    cases t with
    | absent => cases q <;> simp [HTree.follow]
    | leaf => cases q <;> simp [HTree.follow]
    | node f l r => simp [HTree.follow, ih]

/-- A path that is a prefix of another is that other: the leaf paths of a tree are prefix-free (42_codegen.md R132 c). -/
theorem path_eq_of_isPrefix {t : HTree} {e e' : Byte × BitString} (h : e ∈ t.paths) (h' : e' ∈ t.paths)
    (hp : e.2 <+: e'.2) : e = e' := by
  obtain ⟨b, c⟩ := e
  obtain ⟨b', c'⟩ := e'
  obtain ⟨q, rfl⟩ := hp
  obtain ⟨f, hf⟩ := mem_paths.mp h
  obtain ⟨f', hf'⟩ := mem_paths.mp h'
  rw [follow_append, hf] at hf'
  cases q with
  | nil => simp only [HTree.follow] at hf'; cases hf'; simp
  | cons x q => simp [HTree.follow] at hf'

theorem paths_map_fst (t : HTree) : t.paths.map Prod.fst = t.leaves.map Prod.fst := by
  induction t with
  | absent => rfl
  | leaf => rfl
  | node f l r ihl ihr => simp only [HTree.paths, HTree.leaves, List.map_append, List.map_map, ← ihl, ← ihr]; rfl

theorem length_paths (t : HTree) : t.paths.length = t.leaves.length := by
  have := congrArg List.length (paths_map_fst t)
  simpa using this

/-! ### GENCODE's walk -/

/-- On a tree of at most `fuel` levels the walk gives the leaves with their paths (42_codegen.md R131). -/
theorem walk_isTree {nodes : List NodeRec} {i : NodeIdx} {t : HTree} {xs : List Nat} (h : IsTree nodes i t xs)
    (hi : i ≠ nil) {fuel : Nat} (hl : t.levels ≤ fuel) (p : BitString) :
    walk nodes fuel i.toNat p = .ok (t.paths.map fun e => (e.1, p ++ e.2)) := by
  induction h generalizing fuel p with
  | absent => exact absurd rfl hi
  | leaf _ hn hk =>
    obtain ⟨fuel, rfl⟩ : ∃ k, fuel = k + 1 := ⟨fuel - 1, by simp only [HTree.levels] at hl; omega⟩
    simp [walk, hn, hk, HTree.paths]
  | @node i n l r ls rs hi hn hk hl' hr' ihl ihr =>
    obtain ⟨fuel, rfl⟩ : ∃ k, fuel = k + 1 := ⟨fuel - 1, by simp only [HTree.levels] at hl; omega⟩
    simp only [HTree.levels] at hl
    have h1 : (if n.left = nil then .ok [] else walk nodes fuel n.left.toNat (p ++ [false])) =
        (.ok (l.paths.map fun e => (e.1, p ++ [false] ++ e.2)) : Except Trap _) := by
      by_cases hc : n.left = nil
      · rw [hc] at hl'
        obtain ⟨rfl, -⟩ := isTree_nil hl'
        simp [hc, HTree.paths]
      · simp only [hc, if_false]; exact ihl hc (by omega) _
    have h2 : (if n.right = nil then .ok [] else walk nodes fuel n.right.toNat (p ++ [true])) =
        (.ok (r.paths.map fun e => (e.1, p ++ [true] ++ e.2)) : Except Trap _) := by
      by_cases hc : n.right = nil
      · rw [hc] at hr'
        obtain ⟨rfl, -⟩ := isTree_nil hr'
        simp [hc, HTree.paths]
      · simp only [hc, if_false]; exact ihr hc (by omega) _
    simp only [walk, hn, hk, h1, h2, HTree.paths, List.map_append, List.map_map]
    simp [Function.comp_def]

/-! ### DECODE's walk -/

/-- One code consumed: from an Internal node, the bits of a path to a leaf emit its symbol (44_bit_decode.md R151). -/
theorem decodeWalk_path {nodes : List NodeRec} {root i : NodeIdx} {cap : Nat} {t : HTree} {xs : List Nat}
    (h : IsTree nodes i t xs) {b : Byte} {c : BitString} (hc : (b, c) ∈ t.paths) (ht : t.isNode = true)
    (rest : BitString) (j start : Nat) (out : List Byte) :
    decodeWalk nodes root cap (c ++ rest) i j start out =
      if out.length = cap then .error (.raise .capacityDst 0)
      else decodeWalk nodes root cap rest root (j + c.length) (j + c.length) (out ++ [b]) := by
  induction h generalizing c j with
  | absent => simp [HTree.isNode] at ht
  | leaf => simp [HTree.isNode] at ht
  | @node i n l r ls rs hi hn hk hl hr ihl ihr =>
    have main : ∀ (x : Bool) (c' : BitString) (sub : HTree) (zs : List Nat), IsTree nodes (n.child x) sub zs →
        (b, c') ∈ sub.paths →
        (∀ j, sub.isNode = true → decodeWalk nodes root cap (c' ++ rest) (n.child x) j start out =
          if out.length = cap then .error (.raise .capacityDst 0)
          else decodeWalk nodes root cap rest root (j + c'.length) (j + c'.length) (out ++ [b])) →
        decodeWalk nodes root cap ((x :: c') ++ rest) i j start out =
          if out.length = cap then .error (.raise .capacityDst 0)
          else decodeWalk nodes root cap rest root (j + (x :: c').length) (j + (x :: c').length) (out ++ [b]) := by
      intro x c' sub zs hs hm ih
      simp only [List.cons_append, decodeWalk, hn]
      generalize n.child x = m at hs ih
      cases hs with
      | absent => simp [HTree.paths] at hm
      | leaf hi' hn' hk' =>
        simp only [HTree.paths, List.mem_singleton, Prod.mk.injEq] at hm
        obtain ⟨rfl, rfl⟩ := hm
        simp [hi', hn', hk']
      | node hi' hn' hk' _ _ =>
        have := ih (j + 1) rfl
        simp only [hi', hn', hk', if_false, this, List.length_cons]
        simp [Nat.add_assoc, Nat.add_comm 1]
    simp only [HTree.paths, List.mem_append, List.mem_map, Prod.mk.injEq] at hc
    rcases hc with ⟨⟨b', c'⟩, ha, rfl, rfl⟩ | ⟨⟨b', c'⟩, ha, rfl, rfl⟩
    · exact main false c' l ls hl ha fun j hs => ihl ha hs j
    · exact main true c' r rs hr ha fun j hs => ihr ha hs j

/-- The bits of a path to an Internal node move the cursor there. -/
theorem decodeWalk_inside {nodes : List NodeRec} {root i : NodeIdx} {cap : Nat} {t : HTree} {xs : List Nat}
    (h : IsTree nodes i t xs) {q : BitString} (hq : (t.follow q).isNode = true) (rest : BitString)
    (j start : Nat) (out : List Byte) :
    ∃ i' zs, IsTree nodes i' (t.follow q) zs ∧ (q ≠ [] → i'.toNat ∈ xs.tail) ∧ (q = [] → i' = i) ∧
      decodeWalk nodes root cap (q ++ rest) i j start out =
        decodeWalk nodes root cap rest i' (j + q.length) start out := by
  induction q generalizing t i j xs with
  | nil =>
    refine ⟨i, xs, ?_, fun h => absurd rfl h, fun _ => rfl, by simp⟩
    cases t <;> exact h
  | cons x q ih =>
    cases t with
    | absent => simp [HTree.follow, HTree.isNode] at hq
    | leaf => simp [HTree.follow, HTree.isNode] at hq
    | node f l r =>
      obtain ⟨n, ls, rs, hi, hn, hk, -, hl, hr, rfl⟩ := isTree_child h
      have main : ∀ (sub : HTree) (zs : List Nat), IsTree nodes (n.child x) sub zs → (sub.follow q).isNode = true →
          (∀ y ∈ zs, y ∈ ls ++ rs) →
          ∃ i' zs', IsTree nodes i' (sub.follow q) zs' ∧ i'.toNat ∈ ls ++ rs ∧
            decodeWalk nodes root cap ((x :: q) ++ rest) i j start out =
              decodeWalk nodes root cap rest i' (j + (x :: q).length) start out := by
        intro sub zs hs hf hz
        obtain ⟨i', zs', h1, h2, h3, h4⟩ := ih hs hf (j + 1)
        have hne : n.child x ≠ nil := by
          intro e
          rw [e] at hs
          obtain ⟨rfl, -⟩ := isTree_nil hs
          cases q <;> simp [HTree.follow, HTree.isNode] at hf
        refine ⟨i', zs', h1, ?_, ?_⟩
        · by_cases hq0 : q = []
          · rw [h3 hq0]; exact hz _ (isTree_head_mem hs hne)
          · exact hz _ (List.mem_of_mem_tail (h2 hq0))
        · simp only [List.cons_append, decodeWalk, hn]
          generalize n.child x = m at hs hne h4
          cases hs with
          | absent => exact absurd rfl hne
          | leaf hi' hn' hk' => cases q <;> simp [HTree.follow, HTree.isNode] at hf
          | node hi' hn' hk' _ _ =>
            simp only [hi', hn', hk', if_false, h4, List.length_cons]
            simp [Nat.add_assoc, Nat.add_comm 1]
      cases x with
      | false =>
        obtain ⟨i', zs', h1, h2, h3⟩ := main l ls hl hq (fun y hy => List.mem_append_left _ hy)
        exact ⟨i', zs', h1, fun _ => h2, fun h => absurd h (by simp), h3⟩
      | true =>
        obtain ⟨i', zs', h1, h2, h3⟩ := main r rs hr hq (fun y hy => List.mem_append_right _ hy)
        exact ⟨i', zs', h1, fun _ => h2, fun h => absurd h (by simp), h3⟩

/-- Whole codes consumed from the root: their symbols are emitted in order while they fit. -/
theorem decodeWalk_paths {nodes : List NodeRec} {root : NodeIdx} {cap : Nat} {t : HTree} {xs : List Nat}
    (h : IsTree nodes root t xs) (ht : t.isNode = true) {es : List (Byte × BitString)} (hes : ∀ e ∈ es, e ∈ t.paths)
    (rest : BitString) (j : Nat) (out : List Byte) (hcap : out.length + es.length ≤ cap) :
    decodeWalk nodes root cap (es.flatMap (·.2) ++ rest) root j j out =
      decodeWalk nodes root cap rest root (j + (es.flatMap (·.2)).length) (j + (es.flatMap (·.2)).length)
        (out ++ es.map (·.1)) := by
  induction es generalizing j out with
  | nil => simp
  | cons e es ih =>
    obtain ⟨b, c⟩ := e
    simp only [List.length_cons] at hcap
    have hlt : out.length ≠ cap := by omega
    simp only [List.flatMap_cons, List.append_assoc]
    rw [decodeWalk_path h (hes (b, c) (by simp)) ht, if_neg hlt,
      ih (fun e he => hes e (by simp [he])) _ _ (by simp; omega)]
    simp [Nat.add_assoc]

/-- Whatever the bits are, the walk over a tree whose root is met once ends in output or in a recorded fault of kind
CorruptContainerError, TruncatedStreamError or CapacityFault; output fits. -/
theorem decodeWalk_outcome {nodes : List NodeRec} {root : NodeIdx} {cap : Nat} {tr : HTree} {rs : List Nat}
    (hroot : IsTree nodes root tr rs) (htr : tr.isNode = true) (bits : BitString) {i : NodeIdx} {t : HTree}
    {xs : List Nat} (h : IsTree nodes i t xs) (ht : t.isNode = true) (j start : Nat) (out : List Byte)
    (hout : out.length ≤ cap) :
    (∃ o, decodeWalk nodes root cap bits i j start out = .ok o ∧ o.length ≤ cap) ∨
    (∃ c k, decodeWalk nodes root cap bits i j start out = .error (.raise c k) ∧
      (c = .truncatedStream ∨ c = .badPath ∨ c = .capacityDst)) := by
  induction bits generalizing i t xs j start out with
  | nil =>
    simp only [decodeWalk]
    split
    · exact .inr ⟨_, _, rfl, .inl rfl⟩
    · exact .inl ⟨out, rfl, hout⟩
  | cons b bs ih =>
    cases h with
    | absent => simp [HTree.isNode] at ht
    | leaf => simp [HTree.isNode] at ht
    | @node _ n l r ls rs' hi hn hk hl hr =>
      have main : ∀ (sub : HTree) (zs : List Nat), IsTree nodes (n.child b) sub zs →
          (∃ o, decodeWalk nodes root cap (b :: bs) i j start out = .ok o ∧ o.length ≤ cap) ∨
          (∃ c k, decodeWalk nodes root cap (b :: bs) i j start out = .error (.raise c k) ∧
            (c = .truncatedStream ∨ c = .badPath ∨ c = .capacityDst)) := by
        intro sub zs hs
        simp only [decodeWalk, hn]
        generalize n.child b = m at hs
        cases hs with
        | absent => exact .inr ⟨.badPath, j, by simp, .inr (.inl rfl)⟩
        | leaf hi' hn' hk' =>
          simp only [hi', if_false, hn', hk']
          split
          · exact .inr ⟨_, _, rfl, .inr (.inr rfl)⟩
          · exact ih hroot htr _ _ _ (by simp; omega)
        | node hi' hn' hk' hl' hr' =>
          simp only [hi', if_false, hn', hk']
          exact ih (.node hi' hn' hk' hl' hr') rfl _ _ _ hout
      cases b with
      | false => exact main l ls hl
      | true => exact main r rs' hr

end Sys2Proof.Laws
end

