-- ==== Sys2Proof/Laws/Trie.lean ====
section
/-! SUPPORT. PARSE's insertion (45_container.md R168), seen on trees: what it adds, and that it faults exactly where
the code set stops being prefix-free. -/

namespace Sys2Proof.Laws

open Sys2Proof.Machine Sys2Proof.Safety

/-- Insertion of a code on the abstract tree; none where a node of the tree is in the way. -/
def insertTree (sym : Byte) : BitString → HTree → Option HTree
  | [], .absent => some (.leaf sym 0)
  | [], .leaf _ _ => none
  | [], .node _ _ _ => none
  | b :: bs, .absent =>
    (insertTree sym bs .absent).map fun u => if b then .node 0 .absent u else .node 0 u .absent
  | _ :: _, .leaf _ _ => none
  | b :: bs, .node f l r =>
    if b then (insertTree sym bs r).map fun u => .node f l u else (insertTree sym bs l).map fun u => .node f u r

/-- Every Internal node below the root leads to a leaf. -/
def Bushy : HTree → Prop
  | .absent => True
  | .leaf _ _ => True
  | .node f l r => (HTree.node f l r).paths ≠ [] ∧ Bushy l ∧ Bushy r

theorem insertTree_paths {sym : Byte} {c : BitString} {t u : HTree} (h : insertTree sym c t = some u) :
    u.paths.Perm ((sym, c) :: t.paths) := by
  induction c generalizing t u with
  | nil =>
    cases t with
    | absent => simp only [insertTree, Option.some.injEq] at h; subst h; simp [HTree.paths]
    | leaf => simp [insertTree] at h
    | node => simp [insertTree] at h
  | cons b bs ih =>
    cases t with
    | absent =>
      simp only [insertTree, Option.map_eq_some_iff] at h
      obtain ⟨v, hv, rfl⟩ := h
      have hp := ih hv
      have hm : ∀ x : Bool, ((v.paths).map fun e : Byte × BitString => (e.1, x :: e.2)).Perm [(sym, x :: bs)] :=
        fun x => hp.map (fun e : Byte × BitString => (e.1, x :: e.2))
      cases b
      · simpa only [HTree.paths, List.map_nil, List.append_nil, Bool.false_eq_true, if_false] using hm false
      · simpa only [HTree.paths, List.map_nil, List.nil_append, if_true] using hm true
    | leaf => simp [insertTree] at h
    | node f l r =>
      simp only [insertTree] at h
      cases b with
      | false =>
        simp only [Bool.false_eq_true, if_false, Option.map_eq_some_iff] at h
        obtain ⟨v, hv, rfl⟩ := h
        have := ((ih hv).map (fun e : Byte × BitString => (e.1, false :: e.2))).append_right
          (r.paths.map fun e => (e.1, true :: e.2))
        simpa [HTree.paths] using this
      | true =>
        simp only [if_true, Option.map_eq_some_iff] at h
        obtain ⟨v, hv, rfl⟩ := h
        have := ((ih hv).map (fun e : Byte × BitString => (e.1, true :: e.2))).append_left
          (l.paths.map fun e => (e.1, false :: e.2))
        exact this.trans (by simp [HTree.paths])

theorem insertTree_bushy {sym : Byte} {c : BitString} {t u : HTree} (h : insertTree sym c t = some u)
    (hb : Bushy t) : Bushy u := by
  have hne : u.paths ≠ [] := fun e => by
    have := (insertTree_paths h).length_eq
    simp [e] at this
  induction c generalizing t u with
  | nil =>
    cases t with
    | absent => simp only [insertTree, Option.some.injEq] at h; subst h; trivial
    | leaf => simp [insertTree] at h
    | node => simp [insertTree] at h
  | cons b bs ih =>
    have sub : ∀ {t' u'}, insertTree sym bs t' = some u' → Bushy t' → Bushy u' := fun h' hb' =>
      ih h' hb' fun e => by have := (insertTree_paths h').length_eq; simp [e] at this
    cases t with
    | absent =>
      simp only [insertTree, Option.map_eq_some_iff] at h
      obtain ⟨v, hv, rfl⟩ := h
      have := sub hv trivial
      cases b
      · exact ⟨hne, this, trivial⟩
      · exact ⟨hne, trivial, this⟩
    | leaf => simp [insertTree] at h
    | node f l r =>
      simp only [insertTree] at h
      cases b with
      | false =>
        simp only [Bool.false_eq_true, if_false, Option.map_eq_some_iff] at h
        obtain ⟨v, hv, rfl⟩ := h
        exact ⟨hne, sub hv hb.2.1, hb.2.2⟩
      | true =>
        simp only [if_true, Option.map_eq_some_iff] at h
        obtain ⟨v, hv, rfl⟩ := h
        exact ⟨hne, hb.2.1, sub hv hb.2.2⟩

theorem insertTree_levels {sym : Byte} {c : BitString} {t u : HTree} (h : insertTree sym c t = some u) :
    u.levels ≤ max t.levels (c.length + 1) := by
  induction c generalizing t u with
  | nil =>
    cases t with
    | absent => simp only [insertTree, Option.some.injEq] at h; subst h; simp [HTree.levels]
    | leaf => simp [insertTree] at h
    | node => simp [insertTree] at h
  | cons b bs ih =>
    cases t with
    | absent =>
      simp only [insertTree, Option.map_eq_some_iff] at h
      obtain ⟨v, hv, rfl⟩ := h
      have := ih hv
      cases b <;> simp [HTree.levels] at this ⊢ <;> omega
    | leaf => simp [insertTree] at h
    | node f l r =>
      simp only [insertTree] at h
      cases b with
      | false =>
        simp only [Bool.false_eq_true, if_false, Option.map_eq_some_iff] at h
        obtain ⟨v, hv, rfl⟩ := h
        have := ih hv
        simp only [HTree.levels, List.length_cons]; omega
      | true =>
        simp only [if_true, Option.map_eq_some_iff] at h
        obtain ⟨v, hv, rfl⟩ := h
        have := ih hv
        simp only [HTree.levels, List.length_cons]; omega

theorem insertTree_isNode {sym : Byte} {b : Bool} {bs : BitString} {t u : HTree}
    (h : insertTree sym (b :: bs) t = some u) : u.isNode = true := by
  cases t with
  | absent =>
    simp only [insertTree, Option.map_eq_some_iff] at h
    obtain ⟨v, -, rfl⟩ := h
    cases b <;> rfl
  | leaf => simp [insertTree] at h
  | node f l r =>
    simp only [insertTree] at h
    cases b <;> simp only [Bool.false_eq_true, if_false, if_true, Option.map_eq_some_iff] at h <;>
      (obtain ⟨v, -, rfl⟩ := h; rfl)

/-- An absent child takes any code. -/
theorem insertTree_absent (sym : Byte) (c : BitString) : ∃ u, insertTree sym c .absent = some u := by
  induction c with
  | nil => exact ⟨_, rfl⟩
  | cons b bs ih =>
    obtain ⟨u, hu⟩ := ih
    exact ⟨if b then .node 0 .absent u else .node 0 u .absent, by simp only [insertTree, hu, Option.map_some]⟩

/-- Where the code is apart from every leaf path there is room for it. -/
theorem insertTree_of_apart {sym : Byte} {c : BitString} {t : HTree} (hb : Bushy t)
    (ha : ∀ e ∈ t.paths, Apart e.2 c) : ∃ u, insertTree sym c t = some u := by
  induction c generalizing t with
  | nil =>
    cases t with
    | absent => exact ⟨_, rfl⟩
    | leaf b f => exact absurd (List.nil_prefix) (ha (b, []) (by simp [HTree.paths])).1
    | node f l r =>
      obtain ⟨e, he⟩ := List.exists_mem_of_ne_nil _ hb.1
      exact absurd (List.nil_prefix) (ha e he).2
  | cons b bs ih =>
    cases t with
    | absent => exact insertTree_absent sym _
    | leaf s f => exact absurd (List.nil_prefix) (ha (s, []) (by simp [HTree.paths])).1
    | node f l r =>
      have lift : ∀ (x : Bool) (e : BitString), Apart (x :: e) (x :: bs) → Apart e bs := fun x e h =>
        ⟨fun h1 => h.1 ((List.prefix_cons_inj x).mpr h1), fun h2 => h.2 ((List.prefix_cons_inj x).mpr h2)⟩
      cases b with
      | false =>
        obtain ⟨u, hu⟩ := ih hb.2.1 fun e he => lift false e.2 (ha (e.1, false :: e.2) (by
          simp only [HTree.paths, List.mem_append, List.mem_map]; exact .inl ⟨e, he, rfl⟩))
        exact ⟨.node f u r, by simp only [insertTree, Bool.false_eq_true, if_false, hu, Option.map_some]⟩
      | true =>
        obtain ⟨u, hu⟩ := ih hb.2.2 fun e he => lift true e.2 (ha (e.1, true :: e.2) (by
          simp only [HTree.paths, List.mem_append, List.mem_map]; exact .inr ⟨e, he, rfl⟩))
        exact ⟨.node f l u, by simp only [insertTree, if_true, hu, Option.map_some]⟩

/-- Where there is room for a code it is apart from every leaf path. -/
theorem apart_of_insertTree {sym : Byte} {c : BitString} {t u : HTree} (h : insertTree sym c t = some u) :
    ∀ e ∈ t.paths, Apart e.2 c := by
  induction c generalizing t u with
  | nil =>
    cases t with
    | absent => simp [HTree.paths]
    | leaf => simp [insertTree] at h
    | node => simp [insertTree] at h
  | cons b bs ih =>
    cases t with
    | absent => simp [HTree.paths]
    | leaf => simp [insertTree] at h
    | node f l r =>
      have same : ∀ (x : Bool) (e : BitString), Apart e bs → Apart (x :: e) (x :: bs) := fun x e h =>
        ⟨fun h1 => h.1 ((List.prefix_cons_inj x).mp h1), fun h2 => h.2 ((List.prefix_cons_inj x).mp h2)⟩
      have diff : ∀ (x y : Bool) (e : BitString), x ≠ y → Apart (x :: e) (y :: bs) := fun x y e hxy =>
        ⟨fun h1 => hxy (List.cons_prefix_cons.mp h1).1, fun h2 => hxy (List.cons_prefix_cons.mp h2).1.symm⟩
      intro e he
      simp only [HTree.paths, List.mem_append, List.mem_map] at he
      simp only [insertTree] at h
      cases b with
      | false =>
        simp only [Bool.false_eq_true, if_false, Option.map_eq_some_iff] at h
        obtain ⟨v, hv, -⟩ := h
        rcases he with ⟨a, ha, rfl⟩ | ⟨a, ha, rfl⟩
        · exact same _ _ (ih hv a ha)
        · exact diff _ _ _ (by simp)
      | true =>
        simp only [if_true, Option.map_eq_some_iff] at h
        obtain ⟨v, hv, -⟩ := h
        rcases he with ⟨a, ha, rfl⟩ | ⟨a, ha, rfl⟩
        · exact diff _ _ _ (by simp)
        · exact same _ _ (ih hv a ha)

/-- A fresh Internal node takes the rest of a code as an absent child would. -/
theorem insertTree_fresh (sym : Byte) (b : Bool) (bs : BitString) :
    insertTree sym (b :: bs) (.node 0 .absent .absent) = insertTree sym (b :: bs) .absent := by
  cases b <;> simp [insertTree]

/-- The forms of NODE records (10_state.md R34). -/
def FormOk (n : NodeRec) : Prop :=
  (n.kind = .leaf → n.left = nil ∧ n.right = nil) ∧ (n.kind = .internal → n.sym = 0)

theorem formOk_leafOf (sym : Byte) (f : BitVec 40) : FormOk (NodeRec.leafOf sym f) :=
  ⟨fun _ => ⟨rfl, rfl⟩, fun h => by simp [NodeRec.leafOf] at h⟩

theorem formOk_internalOf (f : BitVec 40) (l r : NodeIdx) : FormOk (NodeRec.internalOf f l r) :=
  ⟨fun h => by simp [NodeRec.internalOf] at h, fun _ => rfl⟩

theorem formOk_setChild {n : NodeRec} (h : FormOk n) (hk : n.kind = .internal) (b : Bool) (i : NodeIdx) :
    FormOk (n.setChild b i) := by
  refine ⟨fun h' => ?_, fun _ => ?_⟩
  · rw [kind_setChild, hk] at h'; cases h'
  · rw [sym_setChild]; exact h.2 hk

theorem toNat_ofNat16 {n : Nat} (h : n < 65535) : (BitVec.ofNat 16 n).toNat = n := by
  simp only [BitVec.toNat_ofNat]; omega

theorem ofNat16_ne_nil {n : Nat} (h : n < 65535) : BitVec.ofNat 16 n ≠ nil := by
  intro e
  have := congrArg BitVec.toNat e
  rw [toNat_ofNat16 h] at this
  simp [nil] at this
  omega

/-- A tree put back at a node whose selected child now is `u`, the other child and its records being as before. -/
theorem isTree_replace {nodes nodes' : List NodeRec} {cur : NodeIdx} {n n' : NodeRec} {l r u : HTree}
    {ls rs ys zs : List Nat} {b : Bool} (hi : cur ≠ nil) (hl : IsTree nodes n.left l ls)
    (hr : IsTree nodes n.right r rs) (hn' : nodes'[cur.toNat]? = some n') (hk : n'.kind = .internal)
    (hf : n'.freq = n.freq) (hother : n'.child (!b) = n.child (!b))
    (hu : IsTree nodes' (n'.child b) u ys) (hp : ys.Perm ((if b then rs else ls) ++ zs))
    (hsame : ∀ x ∈ (if b then ls else rs), nodes'[x]? = nodes[x]?) :
    ∃ ws, IsTree nodes' cur (if b then .node n.freq l u else .node n.freq u r) ws ∧
      ws.Perm (cur.toNat :: (ls ++ rs) ++ zs) := by
  cases b with
  | false =>
    simp only [Bool.not_false, NodeRec.child, if_true, Bool.false_eq_true, if_false] at hother hu hp hsame ⊢
    refine ⟨cur.toNat :: (ys ++ rs), ?_, ?_⟩
    · rw [← hf]
      exact .node hi hn' hk hu (by rw [hother]; exact isTree_congr hr hsame)
    · refine List.Perm.cons _ ?_
      refine (hp.append_right rs).trans ?_
      show ((ls ++ zs) ++ rs).Perm ((ls ++ rs) ++ zs)
      rw [List.append_assoc, List.append_assoc]
      exact List.perm_append_comm.append_left ls
  | true =>
    simp only [Bool.not_true, NodeRec.child, if_true, Bool.false_eq_true, if_false] at hother hu hp hsame ⊢
    refine ⟨cur.toNat :: (ls ++ ys), ?_, ?_⟩
    · rw [← hf]
      exact .node hi hn' hk (by rw [hother]; exact isTree_congr hl hsame) hu
    · refine List.Perm.cons _ ?_
      show (ls ++ ys).Perm ((ls ++ rs) ++ zs)
      rw [List.append_assoc]
      exact hp.append_left ls

theorem freq_setChild (n : NodeRec) (b : Bool) (i : NodeIdx) : (n.setChild b i).freq = n.freq := by
  cases b <;> rfl

/-- What PARSE's insertion does from an Internal node on (45_container.md R168): where a node is in the way it raises
NotPrefixFree, otherwise the tree below the node takes the code, new records are appended, and only records of the
walk change. -/
theorem insertCode_isTree {sym : Byte} {e0 : Nat} (bs : BitString) :
    ∀ {nodes : List NodeRec} {cur : NodeIdx} {t : HTree} {xs : List Nat} (b : Bool),
    IsTree nodes cur t xs → t.isNode = true → xs.Nodup → (∀ n ∈ nodes, FormOk n) →
    nodes.length + bs.length + 1 ≤ 65535 →
    match insertTree sym (b :: bs) t with
    | none => insertCode sym e0 nodes cur.toNat (b :: bs) = .error (.raise .notPrefixFree e0)
    | some t' => ∃ nodes' k ys, insertCode sym e0 nodes cur.toNat (b :: bs) = .ok nodes' ∧
        IsTree nodes' cur t' ys ∧ ys.Perm (xs ++ List.range' nodes.length k) ∧
        nodes'.length = nodes.length + k ∧ k ≤ bs.length + 1 ∧
        (∀ x, x < nodes.length → x ∉ xs → nodes'[x]? = nodes[x]?) ∧ (∀ n ∈ nodes', FormOk n) := by
  induction bs with
  | nil =>
    intro nodes cur t xs b h ht hx hf room
    cases t with
    | absent => simp [HTree.isNode] at ht
    | leaf => simp [HTree.isNode] at ht
    | node f l r =>
      obtain ⟨n, ls, rs, hi, hn, hk, rfl, hl, hr, rfl⟩ := isTree_child h
      have hcur : cur.toNat < nodes.length := (List.getElem?_eq_some_iff.mp hn).1
      obtain ⟨hx1, hx2⟩ := List.nodup_cons.mp hx
      simp only [List.length_nil] at room
      have hidx : (BitVec.ofNat 16 nodes.length).toNat = nodes.length := toNat_ofNat16 (by omega)
      have hs : IsTree nodes (n.child b) (if b then r else l) (if b then rs else ls) := by cases b <;> assumption
      have hins : insertTree sym [b] (.node n.freq l r) =
          (insertTree sym [] (if b then r else l)).map
            fun u => if b then .node n.freq l u else .node n.freq u r := by cases b <;> simp [insertTree]
      have hcode : insertCode sym e0 nodes cur.toNat [b] =
          if n.child b = nil then .ok ((nodes ++ [NodeRec.leafOf sym 0]).set cur.toNat
            (n.setChild b (BitVec.ofNat 16 nodes.length))) else .error (.raise .notPrefixFree e0) := by
        simp only [insertCode, hn, hk, if_true]
      rw [hins, hcode]
      generalize hm : n.child b = m at hs
      generalize hst : (if b then r else l) = st at hs
      generalize hss : (if b then rs else ls) = ss at hs
      cases hs with
      | leaf hi' hn' hk' => simp [insertTree, hi']
      | node hi' hn' hk' _ _ => simp [insertTree, hi']
      | absent =>
        simp only [insertTree, Option.map_some, if_true]
        have hset : ∀ x, x < nodes.length → x ≠ cur.toNat →
            ((nodes ++ [NodeRec.leafOf sym 0]).set cur.toNat (n.setChild b (BitVec.ofNat 16 nodes.length)))[x]? =
              nodes[x]? := fun x h1 h2 => by
          rw [List.getElem?_set_ne (Ne.symm h2), List.getElem?_append_left h1]
        obtain ⟨ws, hw1, hw2⟩ := isTree_replace (nodes := nodes)
          (nodes' := (nodes ++ [NodeRec.leafOf sym 0]).set cur.toNat (n.setChild b (BitVec.ofNat 16 nodes.length)))
          (n' := n.setChild b (BitVec.ofNat 16 nodes.length)) (b := b) (u := .leaf sym 0) (ys := [nodes.length])
          (zs := [nodes.length]) hi hl hr (by rw [List.getElem?_set_self (by simp; omega)]) (by rw [kind_setChild, hk])
          (freq_setChild _ _ _) (by cases b <;> rfl)
          (by
            rw [child_setChild, if_pos rfl]
            have := IsTree.leaf (nodes := (nodes ++ [NodeRec.leafOf sym 0]).set cur.toNat
              (n.setChild b (BitVec.ofNat 16 nodes.length))) (i := BitVec.ofNat 16 nodes.length)
              (n := NodeRec.leafOf sym 0) (ofNat16_ne_nil (by omega))
              (by rw [hidx, List.getElem?_set_ne (by omega)]; simp) rfl
            rw [hidx] at this; exact this)
          (by rw [hss]; simp)
          (fun x hx => by
            have hxm : x ∈ ls ++ rs := by cases b <;> simp at hx <;> simp [hx]
            exact hset x (isTree_lt h x (by simp [List.mem_append.mp hxm])) fun e => hx1 (e ▸ hxm))
        refine ⟨_, 1, ws, rfl, hw1, by simpa using hw2, by simp, by simp, ?_, ?_⟩
        · intro x h1 h2
          exact hset x h1 fun e => h2 (by simp [e])
        · intro y hy
          rcases List.mem_or_eq_of_mem_set hy with hy | rfl
          · rcases List.mem_append.mp hy with hy | hy
            · exact hf y hy
            · rw [List.mem_singleton.mp hy]; exact formOk_leafOf _ _
          · exact formOk_setChild (hf n (List.mem_of_getElem? hn)) hk _ _
  | cons b' bs ih =>
    intro nodes cur t xs b h ht hx hf room
    cases t with
    | absent => simp [HTree.isNode] at ht
    | leaf => simp [HTree.isNode] at ht
    | node f l r =>
      obtain ⟨n, ls, rs, hi, hn, hk, rfl, hl, hr, rfl⟩ := isTree_child h
      have hcur : cur.toNat < nodes.length := (List.getElem?_eq_some_iff.mp hn).1
      obtain ⟨hx1, hx2⟩ := List.nodup_cons.mp hx
      simp only [List.length_cons] at room
      have hidx : (BitVec.ofNat 16 nodes.length).toNat = nodes.length := toNat_ofNat16 (by omega)
      have hs : IsTree nodes (n.child b) (if b then r else l) (if b then rs else ls) := by cases b <;> assumption
      have hsx : ∀ x ∈ (if b then rs else ls), x ∈ ls ++ rs := fun x hx => by
        cases b <;> simp at hx <;> simp [hx]
      have hox : ∀ x ∈ (if b then ls else rs), x ∈ ls ++ rs := fun x hx => by
        cases b <;> simp at hx <;> simp [hx]
      have hdis : ∀ x ∈ (if b then ls else rs), x ∉ (if b then rs else ls) := fun x h1 h2 => by
        have hd := (List.nodup_append.mp hx2).2.2
        cases b <;> simp at h1 h2
        · exact hd x h2 x h1 rfl
        · exact hd x h1 x h2 rfl
      have hnds : (if b then rs else ls).Nodup := by
        cases b
        · exact (List.nodup_append.mp hx2).1
        · exact (List.nodup_append.mp hx2).2.1
      have hins : insertTree sym (b :: b' :: bs) (.node n.freq l r) =
          (insertTree sym (b' :: bs) (if b then r else l)).map
            fun u => if b then .node n.freq l u else .node n.freq u r := by cases b <;> simp [insertTree]
      have hcode : insertCode sym e0 nodes cur.toNat (b :: b' :: bs) =
          if n.child b = nil then insertCode sym e0 ((nodes ++ [NodeRec.internalOf 0 nil nil]).set cur.toNat
            (n.setChild b (BitVec.ofNat 16 nodes.length))) nodes.length (b' :: bs)
          else insertCode sym e0 nodes (n.child b).toNat (b' :: bs) := by
        conv_lhs => rw [insertCode]
        simp only [hn, hk, reduceCtorEq, if_false]
      rw [hins, hcode]
      generalize hm : n.child b = m at hs
      generalize hst : (if b then r else l) = st at hs
      generalize hss : (if b then rs else ls) = ss at hs hnds hsx hdis
      by_cases hnode : st.isNode = true
      · have hne : m ≠ nil := fun e => by rw [e] at hs; rw [(isTree_nil hs).1] at hnode; cases hnode
        rw [if_neg hne]
        have hrec := ih b' hs hnode hnds hf (by omega)
        cases hit : insertTree sym (b' :: bs) st with
        | none => rw [hit] at hrec; exact hrec
        | some u =>
          rw [hit] at hrec
          obtain ⟨nodes', k, ys, h1, h2, h3, h4, h5, h6, h7⟩ := hrec
          simp only [Option.map_some]
          have hcx : cur.toNat ∉ ss := fun e => hx1 (hsx _ e)
          have hn' : nodes'[cur.toNat]? = some n := (h6 _ hcur hcx).trans hn
          obtain ⟨ws, hw1, hw2⟩ := isTree_replace (b := b) (u := u) hi hl hr hn' hk rfl rfl (hm ▸ h2) (hss ▸ h3)
            (fun x hx => h6 x (isTree_lt h x (List.mem_cons_of_mem _ (hox x hx))) (hdis x hx))
          refine ⟨nodes', k, ws, h1, hw1, hw2, h4, by simp only [List.length_cons]; omega, ?_, h7⟩
          intro x hx1 hx2
          exact h6 x hx1 fun e => hx2 (List.mem_cons_of_mem _ (hsx x e))
      · cases hs with
        | node => simp [HTree.isNode] at hnode
        | leaf hi' hn' hk' => simp [insertTree, hi', insertCode, hn', hk']
        | absent =>
          rw [if_pos rfl]
          have hset : ∀ x, x < nodes.length → x ≠ cur.toNat →
              ((nodes ++ [NodeRec.internalOf 0 nil nil]).set cur.toNat
                (n.setChild b (BitVec.ofNat 16 nodes.length)))[x]? = nodes[x]? := fun x h1 h2 => by
            rw [List.getElem?_set_ne (Ne.symm h2), List.getElem?_append_left h1]
          have hget : ((nodes ++ [NodeRec.internalOf 0 nil nil]).set cur.toNat
                (n.setChild b (BitVec.ofNat 16 nodes.length)))[cur.toNat]? =
                some (n.setChild b (BitVec.ofNat 16 nodes.length)) := by
            rw [List.getElem?_set_self (by simp; omega)]
          have hnew : ((nodes ++ [NodeRec.internalOf 0 nil nil]).set cur.toNat
                (n.setChild b (BitVec.ofNat 16 nodes.length)))[nodes.length]? =
                some (NodeRec.internalOf 0 nil nil) := by
            rw [List.getElem?_set_ne (by omega)]; simp
          have hform : ∀ y ∈ ((nodes ++ [NodeRec.internalOf 0 nil nil]).set cur.toNat
                (n.setChild b (BitVec.ofNat 16 nodes.length))), FormOk y := by
            intro y hy
            rcases List.mem_or_eq_of_mem_set hy with hy | rfl
            · rcases List.mem_append.mp hy with hy | hy
              · exact hf y hy
              · rw [List.mem_singleton.mp hy]; exact formOk_internalOf _ _ _
            · exact formOk_setChild (hf n (List.mem_of_getElem? hn)) hk _ _
          have hlen : ((nodes ++ [NodeRec.internalOf 0 nil nil]).set cur.toNat
                (n.setChild b (BitVec.ofNat 16 nodes.length))).length = nodes.length + 1 := by simp
          generalize hN : ((nodes ++ [NodeRec.internalOf 0 nil nil]).set cur.toNat
                (n.setChild b (BitVec.ofNat 16 nodes.length))) = N at hset hget hnew hform hlen ⊢
          have ht0 : IsTree N (BitVec.ofNat 16 nodes.length) (.node 0 .absent .absent) [nodes.length] := by
            have := IsTree.node (nodes := N) (i := BitVec.ofNat 16 nodes.length)
              (n := NodeRec.internalOf 0 nil nil) (ofNat16_ne_nil (by omega)) (by rw [hidx]; exact hnew) rfl
              .absent .absent
            rw [hidx] at this; exact this
          have hrec := ih b' ht0 rfl (by simp) hform (by omega)
          rw [insertTree_fresh, hidx] at hrec
          obtain ⟨u, hu⟩ := insertTree_absent sym (b' :: bs)
          rw [hu] at hrec ⊢
          obtain ⟨nodes', k, ys, h1, h2, h3, h4, h5, h6, h7⟩ := hrec
          simp only [Option.map_some]
          have hN' : ∀ x, x < nodes.length → x ≠ cur.toNat → nodes'[x]? = nodes[x]? := fun x h1 h2 => by
            rw [h6 x (by omega) (by simp; omega), hset x h1 h2]
          have hn' : nodes'[cur.toNat]? = some (n.setChild b (BitVec.ofNat 16 nodes.length)) := by
            rw [h6 _ (by omega) (by simp; omega), hget]
          obtain ⟨ws, hw1, hw2⟩ := isTree_replace (b := b) (u := u) (ys := ys)
            (zs := nodes.length :: List.range' (nodes.length + 1) k) hi hl hr hn' (by rw [kind_setChild, hk])
            (freq_setChild _ _ _) (by cases b <;> rfl) (by rw [child_setChild, if_pos rfl]; exact h2)
            (by rw [hss]; rw [hlen] at h3; exact h3)
            (fun x hx => hN' x (isTree_lt h x (List.mem_cons_of_mem _ (hox x hx))) fun e => hx1 (e ▸ hox x hx))
          refine ⟨nodes', k + 1, ws, h1, hw1, by rw [List.range'_succ]; exact hw2, by omega,
            by simp only [List.length_cons]; omega, ?_, h7⟩
          intro x h1 h2
          exact hN' x h1 fun e => h2 (by simp [e])

end Sys2Proof.Laws
end

