-- ==== Sys2Proof/Laws/Forest.lean ====
section
/-! SUPPORT. BUILD, said once: what H and NODE hold before every pass of the merge loop (41_tree_build.md R112). -/

namespace Sys2Proof.Laws

open Sys2Proof.Machine Sys2Proof.Safety

/-! ### The collection H -/

theorem before_eq_false (a b : HeapPair) :
    HeapPair.before a b = false ↔ ¬ (a.1 < b.1 ∨ (a.1 = b.1 ∧ a.2 < b.2)) := by
  simp only [HeapPair.before, Bool.or_eq_false_iff, Bool.and_eq_false_iff, decide_eq_false_iff_not,
    beq_eq_false_iff_ne]
  omega

theorem leastPair_spec (p : HeapPair) (ps : List HeapPair) :
    leastPair p ps ∈ p :: ps ∧ ∀ q ∈ p :: ps, HeapPair.before q (leastPair p ps) = false := by
  induction ps generalizing p with
  | nil => simp [leastPair, HeapPair.before]
  | cons r ps ih =>
    have hstep : leastPair p (r :: ps) = leastPair (if HeapPair.before r p then r else p) ps := rfl
    rw [hstep]
    obtain ⟨h1, h2⟩ := ih (if HeapPair.before r p then r else p)
    have hle : ∀ q : HeapPair, (q = p ∨ q = r) → HeapPair.before q (if HeapPair.before r p then r else p) = false := by
      intro q hq
      rcases hrp : HeapPair.before r p with _ | _
      · rw [before_eq_false] at hrp
        rcases hq with rfl | rfl <;> simp only [Bool.false_eq_true, if_false, before_eq_false] <;> omega
      · have hrp' : ¬ HeapPair.before r p = false := by rw [hrp]; simp
        rw [before_eq_false, not_not] at hrp'
        rcases hq with rfl | rfl <;> simp only [if_true, before_eq_false] <;> omega
    refine ⟨?_, ?_⟩
    · rcases List.mem_cons.mp h1 with h | h
      · rw [h]; split <;> simp
      · simp [h]
    · intro q hq
      have htrans : ∀ a b c : HeapPair, HeapPair.before a b = false → HeapPair.before b c = false →
          HeapPair.before a c = false := by
        intro a b c hab hbc
        rw [before_eq_false] at *
        omega
      rcases List.mem_cons.mp hq with rfl | hq
      · exact htrans _ _ _ (hle q (.inl rfl)) (h2 _ (by simp))
      · rcases List.mem_cons.mp hq with rfl | hq
        · exact htrans _ _ _ (hle q (.inr rfl)) (h2 _ (by simp))
        · exact h2 q (by simp [hq])

/-- `H.extract_min()` takes out the least pair (41_tree_build.md R113). -/
theorem extractMin_spec {h : List HeapPair} (hne : h ≠ []) : ∃ a h', extractMin h = some (a, h') ∧
    h.Perm (a :: h') ∧ ∀ q ∈ h', HeapPair.before q a = false := by
  obtain ⟨p, ps, rfl⟩ := List.exists_cons_of_ne_nil hne
  obtain ⟨h1, h2⟩ := leastPair_spec p ps
  have hp := List.perm_cons_erase h1
  exact ⟨_, _, rfl, hp, fun q hq => h2 q (hp.mem_iff.mpr (List.mem_cons_of_mem _ hq))⟩

/-! ### Facts that only the records below an index decide -/

theorem freqAt_append {nodes : List NodeRec} {x : Nat} (h : x < nodes.length) (n : NodeRec) :
    freqAt (nodes ++ [n]) x = freqAt nodes x := by
  simp [freqAt, List.getElem?_append_left h]

theorem waiting_append {nodes : List NodeRec} {m x : Nat} (h : m ≤ nodes.length) (n : NodeRec) :
    Waiting (nodes ++ [n]) m x ↔ Waiting nodes m x := by
  constructor <;> rintro ⟨h1, h2⟩ <;> refine ⟨h1, fun y k hy hk => h2 y k hy ?_⟩
  · rw [List.getElem?_append_left (by omega)]; exact hk
  · rw [List.getElem?_append_left (by omega)] at hk; exact hk

theorem earlier_append {nodes : List NodeRec} {x y : Nat} (hx : x < nodes.length) (hy : y < nodes.length)
    (n : NodeRec) : Earlier (nodes ++ [n]) x y ↔ Earlier nodes x y := by
  simp [Earlier, freqAt_append hx, freqAt_append hy]

/-- Record `m` joins the two least nodes that were in H when it was made (41_tree_build.md R112, R114). -/
def Joins (nodes : List NodeRec) (m : Nat) : Prop :=
  ∃ n a b, nodes[m]? = some n ∧ n.kind = .internal ∧ n.left.toNat = a ∧ n.right.toNat = b ∧
    n.freq.toNat = freqAt nodes a + freqAt nodes b ∧ Waiting nodes m a ∧ Waiting nodes m b ∧ Earlier nodes a b ∧
    ∀ x, Waiting nodes m x → x ≠ a → x ≠ b → Earlier nodes b x

theorem joins_append {nodes : List NodeRec} {m : Nat} (h : Joins nodes m) (k : NodeRec) : Joins (nodes ++ [k]) m := by
  obtain ⟨n, a, b, h1, h2, h3, h4, h5, h6, h7, h8, h9⟩ := h
  have hm : m < nodes.length := (List.getElem?_eq_some_iff.mp h1).1
  have ha : a < nodes.length := Nat.lt_trans h6.1 hm
  have hb : b < nodes.length := Nat.lt_trans h7.1 hm
  refine ⟨n, a, b, by rw [List.getElem?_append_left hm]; exact h1, h2, h3, h4, ?_,
    (waiting_append hm.le k).mpr h6, (waiting_append hm.le k).mpr h7, (earlier_append ha hb k).mpr h8, ?_⟩
  · rw [freqAt_append ha, freqAt_append hb]; exact h5
  · intro x hx hxa hxb
    have hx' := (waiting_append hm.le k).mp hx
    exact (earlier_append hb (Nat.lt_trans hx'.1 hm) k).mpr (h9 x hx' hxa hxb)

/-! ### The loop invariant -/

/-- Before every pass: H holds the nodes that are no child yet, each the root of a tree; the trees share nothing and
cover NODE; their leaves are the table's entries. -/
structure ForestInv (es : List (Byte × Word)) (f : Forest) : Prop where
  count : f.nodes.length + f.heap.length = 2 * es.length
  nonempty : f.heap ≠ []
  leaves : ∀ (i : Nat) (e : Byte × Word), es[i]? = some e → f.nodes[i]? = some (NodeRec.leafOf e.1 (e.2.setWidth 40))
  joins : ∀ m, es.length ≤ m → m < f.nodes.length → Joins f.nodes m
  waiting : ∀ x, Waiting f.nodes f.nodes.length x ↔ x ∈ f.heap.map Prod.snd
  nodup : (f.heap.map Prod.snd).Nodup
  freqs : ∀ p ∈ f.heap, p.1 = freqAt f.nodes p.2
  total : (f.heap.map Prod.fst).sum = (es.map fun e => e.2.toNat).sum
  forms : ∀ n ∈ f.nodes, FormOk n ∧ (n.left ≠ nil → n.left.toNat < f.nodes.length) ∧
    (n.right ≠ nil → n.right.toNat < f.nodes.length)
  trees : ∃ (tr : Nat → HTree) (xs : Nat → List Nat),
    (∀ p ∈ f.heap, IsTree f.nodes (BitVec.ofNat 16 p.2) (tr p.2) (xs p.2) ∧ (tr p.2).sums ∧
      (tr p.2).freq.toNat = p.1 ∧ 1 ≤ (tr p.2).levels ∧ (tr p.2).levels ≤ (tr p.2).leaves.length) ∧
    ((f.heap.map Prod.snd).flatMap xs).Perm (List.range f.nodes.length) ∧
    ((f.heap.map Prod.snd).flatMap fun x => (tr x).leaves).Perm (es.map fun e => (e.1, e.2.setWidth 40))

theorem toNat_setWidth40 (w : Word) : (w.setWidth 40).toNat = w.toNat := by
  rw [BitVec.toNat_setWidth]; have := w.isLt; omega

theorem getElem?_leafForest {es : List (Byte × Word)} (x : Nat) :
    (leafForest es).nodes[x]? = es[x]?.map fun e => NodeRec.leafOf e.1 (e.2.setWidth 40) := by
  simp [leafForest]

/-- The leaves, before the first pass. -/
theorem forestInv_start {es : List (Byte × Word)} (hne : es ≠ []) (hlen : es.length ≤ 256) :
    ForestInv es (leafForest es) := by
  have hsnd : (leafForest es).heap.map Prod.snd = List.range es.length := by
    simp only [leafForest, List.map_map]
    rw [List.range_eq_range', ← List.zipIdx_map_snd 0 es]
    rfl
  have hnl : (leafForest es).nodes.length = es.length := by simp [leafForest]
  have hfreq : ∀ p ∈ (leafForest es).heap, ∃ e, es[p.2]? = some e ∧ p.1 = e.2.toNat := by
    intro p hp
    simp only [leafForest, List.mem_map] at hp
    obtain ⟨q, hq, rfl⟩ := hp
    exact ⟨q.1, List.mem_zipIdx_iff_getElem?.mp hq, rfl⟩
  have hleaf : ∀ n ∈ (leafForest es).nodes, ∃ e : Byte × Word, n = NodeRec.leafOf e.1 (e.2.setWidth 40) := by
    intro n hn
    simp only [leafForest, List.mem_map] at hn
    obtain ⟨e, -, rfl⟩ := hn
    exact ⟨e, rfl⟩
  constructor
  · simp [leafForest]; omega
  · intro h
    have := congrArg List.length h
    simp [leafForest] at this
    exact hne this
  · intro i e he
    rw [getElem?_leafForest, he]; rfl
  · intro m h1 h2
    rw [hnl] at h2; omega
  · intro x
    rw [hsnd, List.mem_range]
    constructor
    · intro h; have := h.1; omega
    · intro h
      refine ⟨by omega, fun y n _ hn hk => ?_⟩
      obtain ⟨e, rfl⟩ := hleaf n (List.mem_of_getElem? hn)
      simp [NodeRec.leafOf] at hk
  · rw [hsnd]; exact List.nodup_range
  · intro p hp
    obtain ⟨e, he, h1⟩ := hfreq p hp
    rw [freqAt, getElem?_leafForest, he, h1]
    exact (toNat_setWidth40 _).symm
  · simp only [leafForest, List.map_map]
    congr 1
    have : es.map (fun e => e.2.toNat) = (es.zipIdx.map Prod.fst).map fun e => e.2.toNat := by
      rw [List.zipIdx_map_fst]
    rw [this, List.map_map]
    rfl
  · intro n hn
    obtain ⟨e, rfl⟩ := hleaf n hn
    exact ⟨formOk_leafOf _ _, fun h => absurd rfl h, fun h => absurd rfl h⟩
  · refine ⟨fun x => match es[x]? with | some e => .leaf e.1 (e.2.setWidth 40) | none => .absent, fun x => [x], ?_, ?_, ?_⟩
    · intro p hp
      obtain ⟨e, he, h1⟩ := hfreq p hp
      have hlt := (List.getElem?_eq_some_iff.mp he).1
      have hidx : (BitVec.ofNat 16 p.2).toNat = p.2 := toNat_ofNat16 (by omega)
      simp only [he]
      refine ⟨?_, trivial, ?_, by simp [HTree.levels], by simp [HTree.levels, HTree.leaves]⟩
      · have := IsTree.leaf (nodes := (leafForest es).nodes) (i := BitVec.ofNat 16 p.2)
          (n := NodeRec.leafOf e.1 (e.2.setWidth 40)) (ofNat16_ne_nil (by omega))
          (by rw [hidx, getElem?_leafForest, he]; rfl) rfl
        rw [hidx] at this; exact this
      · rw [h1]; exact toNat_setWidth40 _
    · rw [hsnd, hnl]; simp
    · rw [hsnd]
      apply List.Perm.of_eq
      apply List.ext_getElem?
      intro i
      have : ((List.range es.length).flatMap fun x => (match es[x]? with
          | some e => HTree.leaf e.1 (e.2.setWidth 40) | none => HTree.absent).leaves) =
          (List.range es.length).flatMap fun x => (es[x]?.map fun e => (e.1, e.2.setWidth 40)).toList := by
        congr 1; funext x
        cases es[x]? <;> rfl
      rw [this]
      have h2 : ∀ l : List (Byte × Word), ((List.range l.length).flatMap fun x =>
          (l[x]?.map fun e => (e.1, e.2.setWidth 40)).toList) = l.map fun e => (e.1, e.2.setWidth 40) := by
        intro l
        induction l with
        | nil => rfl
        | cons a l ih =>
          rw [List.length_cons, List.range_succ_eq_map, List.flatMap_cons, List.flatMap_map]
          simp only [List.getElem?_cons_zero, Option.map_some, Option.toList_some, List.getElem?_cons_succ,
            List.map_cons, List.singleton_append]
          exact congrArg _ ih
      rw [h2]

theorem total_lt {es : List (Byte × Word)} (hlen : es.length ≤ 256) :
    (es.map fun e => e.2.toNat).sum < 2 ^ 40 := by
  have h : (es.map fun e => e.2.toNat).sum ≤ (es.map fun e => e.2.toNat).length • (2 ^ 32 - 1) :=
    List.sum_le_card_nsmul _ _ fun x hx => by
      obtain ⟨e, -, rfl⟩ := List.mem_map.mp hx
      have := e.2.isLt
      omega
  simp only [List.length_map, smul_eq_mul] at h
  omega

/-- One pass: the two least pairs are joined. -/
theorem forestInv_pass {es : List (Byte × Word)} {f : Forest} (h : ForestInv es f) (hlen : es.length ≤ 256)
    (h2 : 2 ≤ f.heap.length) : ForestInv es (mergePass f) ∧ (mergePass f).heap.length + 1 = f.heap.length := by
  obtain ⟨a, h1, ha, hpa, hla⟩ := extractMin_spec h.nonempty
  have hl1 := hpa.length_eq
  simp only [List.length_cons] at hl1
  have hne1 : h1 ≠ [] := by
    intro e; rw [e] at hl1; simp at hl1; omega
  obtain ⟨b, hh, hb, hpb, hlb⟩ := extractMin_spec hne1
  have hl2 := hpb.length_eq
  simp only [List.length_cons] at hl2
  have hp : f.heap.Perm (a :: b :: hh) := hpa.trans (hpb.cons _)
  have hps : (f.heap.map Prod.snd).Perm (a.2 :: b.2 :: hh.map Prod.snd) := hp.map Prod.snd
  have hmp : mergePass f = {
      heap := (a.1 + b.1, f.nodes.length) :: hh
      nodes := f.nodes ++ [NodeRec.internalOf (BitVec.ofNat 40 (a.1 + b.1)) (BitVec.ofNat 16 a.2)
        (BitVec.ofNat 16 b.2)] } := by
    simp only [mergePass, ha, hb]
  rw [hmp]
  have hma : a ∈ f.heap := hp.mem_iff.mpr (by simp)
  have hmb : b ∈ f.heap := hp.mem_iff.mpr (by simp)
  have hmh : ∀ q ∈ hh, q ∈ f.heap := fun q hq => hp.mem_iff.mpr (by simp [hq])
  have hcount := h.count
  have hidxlt : ∀ q ∈ f.heap, q.2 < f.nodes.length := fun q hq =>
    ((h.waiting q.2).mpr (List.mem_map.mpr ⟨q, hq, rfl⟩)).1
  have hva : (BitVec.ofNat 16 a.2).toNat = a.2 := toNat_ofNat16 (by have := hidxlt a hma; omega)
  have hvb : (BitVec.ofNat 16 b.2).toNat = b.2 := toNat_ofNat16 (by have := hidxlt b hmb; omega)
  have hsum : a.1 + b.1 ≤ (es.map fun e => e.2.toNat).sum := by
    have := (hp.map Prod.fst).sum_eq
    rw [h.total] at this
    simp only [List.map_cons, List.sum_cons] at this
    omega
  have hfr : (BitVec.ofNat 40 (a.1 + b.1)).toNat = a.1 + b.1 := by
    have := total_lt hlen
    rw [BitVec.toNat_ofNat]; omega
  have hnd := hps.nodup_iff.mp h.nodup
  simp only [List.nodup_cons, List.mem_cons, not_or] at hnd
  obtain ⟨⟨hab, hah⟩, hbh, hndh⟩ := hnd
  generalize hN : NodeRec.internalOf (BitVec.ofNat 40 (a.1 + b.1)) (BitVec.ofNat 16 a.2) (BitVec.ofNat 16 b.2) = N
  have hNl : N.left.toNat = a.2 := by rw [← hN]; exact hva
  have hNr : N.right.toNat = b.2 := by rw [← hN]; exact hvb
  have hNk : N.kind = .internal := by rw [← hN]; rfl
  have hNf : N.freq.toNat = a.1 + b.1 := by rw [← hN]; exact hfr
  have hnew : (f.nodes ++ [N])[f.nodes.length]? = some N := by simp
  have hlast : ∀ q : HeapPair, q ∈ f.heap → freqAt (f.nodes ++ [N]) q.2 = q.1 := fun q hq => by
    rw [freqAt_append (hidxlt q hq), ← h.freqs q hq]
  refine ⟨?_, by simp; omega⟩
  constructor
  · simp only [List.length_append, List.length_cons, List.length_nil]; omega
  · simp
  · intro i e he
    have := (List.getElem?_eq_some_iff.mp (h.leaves i e he)).1
    rw [List.getElem?_append_left this]; exact h.leaves i e he
  · intro m hm1 hm2
    simp only [List.length_append, List.length_singleton] at hm2
    by_cases hm : m < f.nodes.length
    · exact joins_append (h.joins m hm1 hm) N
    · obtain rfl : m = f.nodes.length := by omega
      have hw : ∀ x, Waiting (f.nodes ++ [N]) f.nodes.length x ↔ x ∈ f.heap.map Prod.snd := fun x =>
        (waiting_append le_rfl N).trans (h.waiting x)
      have hear : ∀ p q : HeapPair, p ∈ f.heap → q ∈ f.heap → p.2 ≠ q.2 → HeapPair.before q p = false →
          Earlier (f.nodes ++ [N]) p.2 q.2 := fun p q hp hq hne hb => by
        rw [before_eq_false] at hb
        rw [Earlier, hlast p hp, hlast q hq]
        omega
      refine ⟨N, a.2, b.2, hnew, hNk, hNl, hNr, ?_, (hw _).mpr (List.mem_map.mpr ⟨a, hma, rfl⟩),
        (hw _).mpr (List.mem_map.mpr ⟨b, hmb, rfl⟩), ?_, ?_⟩
      · rw [hNf, hlast a hma, hlast b hmb]
      · exact hear a b hma hmb hab (hla b (hpb.mem_iff.mpr (by simp)))
      · intro x hx hxa hxb
        obtain ⟨q, hq, rfl⟩ := List.mem_map.mp ((hw x).mp hx)
        have hqh : q ∈ hh := by
          rcases List.mem_cons.mp (hp.mem_iff.mp hq) with rfl | hq
          · exact absurd rfl hxa
          · rcases List.mem_cons.mp hq with rfl | hq
            · exact absurd rfl hxb
            · exact hq
        exact hear b q hmb hq (Ne.symm hxb) (hlb q hqh)
  · intro x
    simp only [List.length_append, List.length_singleton, List.map_cons, List.mem_cons]
    constructor
    · rintro ⟨hx1, hx2⟩
      by_cases hx : x = f.nodes.length
      · exact .inl hx
      · right
        have hwx : Waiting f.nodes f.nodes.length x :=
          (waiting_append le_rfl N).mp ⟨by omega, fun y n hy => hx2 y n (by omega)⟩
        have hmem := hps.mem_iff.mp ((h.waiting x).mp hwx)
        obtain ⟨g1, g2⟩ := hx2 f.nodes.length N (by omega) hnew hNk
        rw [hNl] at g1; rw [hNr] at g2
        simp only [List.mem_cons] at hmem
        rcases hmem with rfl | rfl | hmem
        · exact absurd rfl g1
        · exact absurd rfl g2
        · exact hmem
    · rintro (rfl | hx)
      · refine ⟨by omega, fun y n hy hn hk => ?_⟩
        by_cases hy' : y < f.nodes.length
        · rw [List.getElem?_append_left hy'] at hn
          obtain ⟨-, hl, hr⟩ := h.forms n (List.mem_of_getElem? hn)
          refine ⟨fun e => ?_, fun e => ?_⟩
          · by_cases hnil : n.left = nil
            · rw [hnil] at e; simp [nil] at e; omega
            · have := hl hnil; omega
          · by_cases hnil : n.right = nil
            · rw [hnil] at e; simp [nil] at e; omega
            · have := hr hnil; omega
        · obtain rfl : y = f.nodes.length := by omega
          rw [hnew] at hn; cases hn
          have := hidxlt a hma; have := hidxlt b hmb
          omega
      · obtain ⟨q, hq, rfl⟩ := List.mem_map.mp hx
        have hwx := (waiting_append le_rfl N).mpr ((h.waiting q.2).mpr (List.mem_map.mpr ⟨q, hmh q hq, rfl⟩))
        refine ⟨by have := hwx.1; omega, fun y n hy hn hk => ?_⟩
        by_cases hy' : y < f.nodes.length
        · exact hwx.2 y n hy' hn hk
        · obtain rfl : y = f.nodes.length := by omega
          rw [hnew] at hn; cases hn
          rw [hNl, hNr]
          exact ⟨fun e => hah (e ▸ hx), fun e => hbh (e ▸ hx)⟩
  · simp only [List.map_cons, List.nodup_cons]
    refine ⟨fun hx => ?_, hndh⟩
    obtain ⟨q, hq, hq2⟩ := List.mem_map.mp hx
    have := hidxlt q (hmh q hq)
    omega
  · intro p hp
    rcases List.mem_cons.mp hp with rfl | hp
    · rw [freqAt, hnew]; exact hNf.symm
    · exact (hlast p (hmh p hp)).symm
  · have := (hp.map Prod.fst).sum_eq
    rw [h.total] at this
    simp only [List.map_cons, List.sum_cons] at this ⊢
    omega
  · intro n hn
    rcases List.mem_append.mp hn with hn | hn
    · obtain ⟨g1, g2, g3⟩ := h.forms n hn
      simp only [List.length_append, List.length_singleton]
      exact ⟨g1, fun e => by have := g2 e; omega, fun e => by have := g3 e; omega⟩
    · rw [List.mem_singleton.mp hn]
      have hfo : FormOk N := hN ▸ formOk_internalOf _ _ _
      have := hidxlt a hma; have := hidxlt b hmb
      simp only [List.length_append, List.length_singleton]
      exact ⟨hfo, fun _ => by omega, fun _ => by omega⟩
  · obtain ⟨tr, xs, g1, g2, g3⟩ := h.trees
    have hneq : ∀ q ∈ f.heap, q.2 ≠ f.nodes.length := fun q hq => by have := hidxlt q hq; omega
    have hold : ∀ {i t ys}, IsTree f.nodes i t ys → IsTree (f.nodes ++ [N]) i t ys := fun hi =>
      isTree_congr hi fun x hx => List.getElem?_append_left (isTree_lt hi x hx)
    have hmapu : ∀ {α : Type} (u : α) (g : Nat → α), (hh.map Prod.snd).map (Function.update g f.nodes.length u) =
        (hh.map Prod.snd).map g := fun u g => List.map_congr_left fun x hx => by
      obtain ⟨q, hq, rfl⟩ := List.mem_map.mp hx
      exact Function.update_of_ne (hneq q (hmh q hq)) _ _
    refine ⟨Function.update tr f.nodes.length (.node N.freq (tr a.2) (tr b.2)),
      Function.update xs f.nodes.length (f.nodes.length :: (xs a.2 ++ xs b.2)), ?_, ?_, ?_⟩
    · intro p hp
      rcases List.mem_cons.mp hp with rfl | hp
      · simp only [Function.update_self]
        obtain ⟨a1, a2, a3, a4, a5⟩ := g1 a hma
        obtain ⟨b1, b2, b3, b4, b5⟩ := g1 b hmb
        have hidx : (BitVec.ofNat 16 f.nodes.length).toNat = f.nodes.length := toNat_ofNat16 (by omega)
        refine ⟨?_, ⟨by rw [hNf, a3, b3], a2, b2⟩, hNf, by simp [HTree.levels],
          by simp only [HTree.levels, HTree.leaves, List.length_append]; omega⟩
        have := IsTree.node (nodes := f.nodes ++ [N]) (i := BitVec.ofNat 16 f.nodes.length) (n := N)
          (ofNat16_ne_nil (by omega)) (by rw [hidx]; exact hnew) hNk
          (l := tr a.2) (r := tr b.2) (xs := xs a.2) (ys := xs b.2)
          (by rw [show N.left = BitVec.ofNat 16 a.2 from hN ▸ rfl]; exact hold a1)
          (by rw [show N.right = BitVec.ofNat 16 b.2 from hN ▸ rfl]; exact hold b1)
        rw [hidx] at this; exact this
      · have hn := hneq p (hmh p hp)
        rw [Function.update_of_ne hn, Function.update_of_ne hn]
        obtain ⟨p1, p2⟩ := g1 p (hmh p hp)
        exact ⟨hold p1, p2⟩
    · have e1 := hmapu (f.nodes.length :: (xs a.2 ++ xs b.2)) xs
      simp only [List.map_cons, List.flatMap_cons, Function.update_self, List.length_append, List.length_singleton]
      rw [List.flatMap_def, e1, ← List.flatMap_def, List.range_succ]
      have := (hps.flatMap_right xs).symm.trans g2
      simp only [List.flatMap_cons] at this
      rw [← List.append_assoc] at this
      exact (this.cons _).trans (List.perm_append_singleton _ _).symm
    · have e1 := hmapu (HTree.node N.freq (tr a.2) (tr b.2)) tr
      have e2 : ∀ (l : List Nat) (g : Nat → HTree), (l.flatMap fun x => (g x).leaves) =
          ((l.map g).flatMap HTree.leaves) := fun l g => by rw [List.flatMap_map]
      rw [e2, List.map_cons, List.map_cons, Function.update_self, e1]
      have := (hps.flatMap_right fun x => (tr x).leaves).symm.trans g3
      rw [e2] at this
      simp only [List.map_cons, List.flatMap_cons, HTree.leaves] at this ⊢
      rwa [← List.append_assoc] at this

theorem forestInv_passes {es : List (Byte × Word)} (hlen : es.length ≤ 256) (n : Nat) {f : Forest}
    (h : ForestInv es f) (hn : f.heap.length = n + 1) :
    ForestInv es (mergePasses n f) ∧ (mergePasses n f).heap.length = 1 := by
  induction n generalizing f with
  | zero => exact ⟨h, hn⟩
  | succ n ih =>
    obtain ⟨h1, h2⟩ := forestInv_pass h hlen (by omega)
    exact ih h1 (by omega)

/-- What BUILD makes of at least two entries (41_tree_build.md R111 to R114, R117). -/
theorem buildTree_many {es : List (Byte × Word)} (h2 : 2 ≤ es.length) (hlen : es.length ≤ 256) :
    ∃ f p, buildTree es = .ok (f.nodes, p.2) ∧ f.heap = [p] ∧ ForestInv es f := by
  match es, h2 with
  | e1 :: e2 :: rest, _ =>
    obtain ⟨h1, h3⟩ := forestInv_passes hlen (rest.length + 1) (forestInv_start (by simp) hlen) (by simp [leafForest])
    obtain ⟨p, hp⟩ := List.length_eq_one_iff.mp h3
    exact ⟨_, p, by simp only [buildTree, hp], hp, h1⟩

/-- The root is the last record made. -/
theorem forestInv_root {es : List (Byte × Word)} {f : Forest} (h : ForestInv es f) {p : HeapPair}
    (hp : f.heap = [p]) (h2 : 2 ≤ es.length) (hlen : es.length ≤ 256) :
    f.nodes.length = 2 * es.length - 1 ∧ p.2 = 2 * es.length - 2 := by
  have hc := h.count
  rw [hp, List.length_singleton] at hc
  refine ⟨by omega, ?_⟩
  have hw := h.waiting
  rw [hp] at hw
  have : f.nodes.length - 1 ∈ [p].map Prod.snd := (hw _).mp
    ⟨by omega, fun y n hy hn hk => by
      obtain ⟨-, hl, hr⟩ := h.forms n (List.mem_of_getElem? hn)
      by_cases hyk : y < es.length
      · obtain ⟨e, he⟩ : ∃ e, es[y]? = some e := ⟨_, List.getElem?_eq_getElem hyk⟩
        rw [h.leaves y e he] at hn; cases hn; simp [NodeRec.leafOf] at hk
      · obtain ⟨n', a, b, j1, -, j3, j4, -, j6, j7, -⟩ := h.joins y (by omega) hy
        rw [hn] at j1; cases j1
        have := j6.1; have := j7.1
        omega⟩
  simp at this
  omega

end Sys2Proof.Laws
end

