-- ==== Sys2Proof/Laws/Memory.lean ====
section
/-! SUPPORT. The laws of the byte memories: a read after a write, and the canonical form is kept. -/

namespace Sys2Proof.Laws

open Sys2Proof.Machine

theorem read?_write (m : List Host.Cell) (a c : Nat) (v : Byte) :
    Memory.read? (Memory.write m a v) c = if a = c then some v else Memory.read? m c := by
  induction m with
  | nil => simp [Memory.write, Memory.read?]
  | cons d m ih =>
    obtain ⟨k, x⟩ := d
    simp only [Memory.write]
    split
    · rfl
    · split
      · subst_vars
        simp only [Memory.read?]
        split <;> simp_all
      · simp only [Memory.read?, ih]
        split <;> simp_all

theorem mem_write {m : List Host.Cell} {a : Nat} {v : Byte} {d : Host.Cell} (h : d ∈ Memory.write m a v) :
    d = (a, v) ∨ d ∈ m := by
  induction m with
  | nil => simpa [Memory.write] using h
  | cons e m ih =>
    obtain ⟨k, x⟩ := e
    simp only [Memory.write] at h
    split at h
    · simpa using h
    · split at h
      · rcases List.mem_cons.mp h with h | h
        · exact .inl h
        · exact .inr (by simp [h])
      · rcases List.mem_cons.mp h with h | h
        · exact .inr (by simp [h])
        · rcases ih h with h | h
          · exact .inl h
          · exact .inr (by simp [h])

/-- Writing keeps the canonical form. -/
theorem wf_write {m : List Host.Cell} (h : Memory.wf m) (a : Nat) (v : Byte) : Memory.wf (Memory.write m a v) := by
  induction m with
  | nil => simp [Memory.write]
  | cons e m ih =>
    obtain ⟨k, x⟩ := e
    obtain ⟨hk, hm⟩ := List.pairwise_cons.mp h
    simp only [Memory.write]
    split
    · rename_i hlt
      refine List.pairwise_cons.mpr ⟨fun d hd => ?_, h⟩
      rcases List.mem_cons.mp hd with rfl | hd
      · exact hlt
      · exact Nat.lt_trans hlt (hk d hd)
    · split
      · subst_vars
        exact List.pairwise_cons.mpr ⟨hk, hm⟩
      · refine List.pairwise_cons.mpr ⟨fun d hd => ?_, ih hm⟩
        rcases mem_write hd with rfl | hd
        · show k < a; omega
        · exact hk d hd

/-- Writing below a capacity stays below it. -/
theorem below_write {m : List Host.Cell} {cap a : Nat} (h : Memory.below m cap) (ha : a < cap) (v : Byte) :
    Memory.below (Memory.write m a v) cap := by
  intro d hd
  rcases mem_write hd with rfl | hd
  · exact ha
  · exact h d hd

@[simp] theorem read_write (b : Buffer) (w : BufferId) (a c : Nat) (v : Byte) :
    (b.write a v).read w c = if a = c then v else b.read w c := by
  simp only [Buffer.read, Buffer.write, read?_write]
  split <;> rfl

@[simp] theorem write_gen (b : Buffer) (a : Nat) (v : Byte) : (b.write a v).gen = b.gen := rfl

@[simp] theorem forget_cells (b : Buffer) : b.forget.cells = [] := rfl

@[simp] theorem writeBytes_gen (b : Buffer) (a : Nat) (vs : List Byte) : (b.writeBytes a vs).gen = b.gen := by
  induction vs generalizing b a with
  | nil => rfl
  | cons v vs ih => simp [Buffer.writeBytes, ih]

/-- What a byte reads as after bytes are written at `a`, `a + 1`, ...: the byte stored there, the old one elsewhere. -/
theorem read_writeBytes (b : Buffer) (w : BufferId) (a c : Nat) (vs : List Byte) :
    (b.writeBytes a vs).read w c = if a ≤ c then (vs[c - a]?).getD (b.read w c) else b.read w c := by
  induction vs generalizing b a with
  | nil => simp [Buffer.writeBytes]
  | cons v vs ih =>
    simp only [Buffer.writeBytes, ih, read_write]
    by_cases h : a = c
    · subst h; simp
    · by_cases h2 : a ≤ c
      · have h3 : a + 1 ≤ c := by omega
        have h4 : c - a = (c - (a + 1)) + 1 := by omega
        simp [h, h2, h3, h4]
      · have h3 : ¬ a + 1 ≤ c := by omega
        simp [h, h2, h3]

/-- The bytes just written are read back. -/
theorem map_read_writeBytes (b : Buffer) (w : BufferId) (vs : List Byte) :
    (List.range vs.length).map ((b.writeBytes 0 vs).read w) = vs := by
  apply List.ext_getElem (by simp)
  intro i h1 h2
  simp [read_writeBytes, h2]

theorem wf_writeBytes {b : Buffer} (h : Memory.wf b.cells) (a : Nat) (vs : List Byte) :
    Memory.wf (b.writeBytes a vs).cells := by
  induction vs generalizing b a with
  | nil => exact h
  | cons v vs ih => exact ih (wf_write h a v) (a + 1)

theorem below_writeBytes {b : Buffer} {cap : Nat} (h : Memory.below b.cells cap) (a : Nat) (vs : List Byte)
    (hc : a + vs.length ≤ cap) : Memory.below (b.writeBytes a vs).cells cap := by
  induction vs generalizing b a with
  | nil => exact h
  | cons v vs ih =>
    simp only [List.length_cons] at hc
    exact ih (below_write h (by omega) v) (a + 1) (by omega)

end Sys2Proof.Laws
end

