-- ==== Sys2Proof/Laws/Parse.lean ====
section
/-! SUPPORT. PARSE, said once: what the table loop holds after each entry, and every way an entry can go
(45_container.md R166 to R170). -/

namespace Sys2Proof.Laws

open Sys2Proof.Machine Sys2Proof.Safety

theorem zero_ne_nil : (0 : NodeIdx) ≠ nil := by decide

theorem one_ne_nil : (1 : NodeIdx) ≠ nil := by decide

/-! ### Entries as they stand in a container -/

theorem length_bits {e : RawEntry} (h : e.ok) : e.bits.length = byteCount e.len.toNat := h.2

theorem length_rawCode {e : RawEntry} (h : e.ok) : e.code.length = e.len.toNat := by
  simp only [RawEntry.code, List.length_take, length_bitsOf, h.2, byteCount]; omega

theorem rawCode_ne_nil {e : RawEntry} (h : e.ok) : e.code ≠ [] := by
  intro c
  have := length_rawCode h
  rw [c] at this
  exact h.1 (BitVec.eq_of_toNat_eq this.symm)

theorem rawCode_le {e : RawEntry} (h : e.ok) : e.code.length ≤ 255 := by
  rw [length_rawCode h]; have := e.len.isLt; omega

theorem length_bytes (e : RawEntry) : e.bytes.length = 2 + e.bits.length := by simp [RawEntry.bytes]; omega

theorem ofNat8_toNat (b : Byte) : BitVec.ofNat 8 b.toNat = b := by simp

/-- The record a table entry becomes. -/
theorem ofCode_len {e : RawEntry} (h : e.ok) : (CtRec.ofCode e.code).len = e.len := by
  apply BitVec.eq_of_toNat_eq
  rw [len_ofCode (rawCode_le h), length_rawCode h]

/-! ### Nodup lists of symbols are short -/

theorem nodup_length {bs : List Byte} (h : bs.Nodup) : bs.length ≤ 256 := by
  have := (h.subperm (fun b _ => mem_symbols b : bs ⊆ symbols)).length_le
  rwa [length_symbols] at this

/-! ### The loop invariant -/

/-- The children of the root are bushy: every path inside the tree leads on to a leaf. -/
def Grown : HTree → Prop
  | .absent => False
  | .leaf _ _ => False
  | .node _ l r => Bushy l ∧ Bushy r

theorem grown_isNode {t : HTree} (h : Grown t) : t.isNode = true := by
  cases t with
  | absent => exact h.elim
  | leaf => exact h.elim
  | node => rfl

theorem grown_insert {sym : Byte} {c : BitString} {t u : HTree} (hc : c ≠ []) (h : insertTree sym c t = some u)
    (hg : Grown t) : Grown u := by
  cases t with
  | absent => exact hg.elim
  | leaf => exact hg.elim
  | node f l r =>
    cases c with
    | nil => exact absurd rfl hc
    | cons b bs =>
      simp only [insertTree] at h
      cases b <;> simp only [Bool.false_eq_true, if_false, if_true, Option.map_eq_some_iff] at h <;>
        obtain ⟨v, hv, rfl⟩ := h
      · exact ⟨insertTree_bushy hv hg.1, hg.2⟩
      · exact ⟨hg.1, insertTree_bushy hv hg.2⟩

theorem insert_of_apart {sym : Byte} {c : BitString} {t : HTree} (hc : c ≠ []) (hg : Grown t)
    (ha : ∀ e ∈ t.paths, Apart e.2 c) : ∃ u, insertTree sym c t = some u := by
  by_cases hb : Bushy t
  · exact insertTree_of_apart hb ha
  · cases t with
    | absent => exact hg.elim
    | leaf => exact hg.elim
    | node f l r =>
      have hp : (HTree.node f l r).paths = [] := by
        by_contra hne; exact hb ⟨hne, hg.1, hg.2⟩
      simp only [HTree.paths, List.append_eq_nil_iff, List.map_eq_nil_iff] at hp
      cases c with
      | nil => exact absurd rfl hc
      | cons b bs =>
        obtain ⟨u, hu⟩ := insertTree_of_apart (sym := sym) (c := bs) (t := if b then r else l)
          (by cases b
              · exact hg.1
              · exact hg.2)
          (by cases b <;> simp [hp.1, hp.2])
        cases b
        · exact ⟨.node f u r, by simpa [insertTree] using hu⟩
        · exact ⟨.node f l u, by simpa [insertTree] using hu⟩

/-- After the entries `es`: the offset, the table, and the records below NODE[0] as a tree with the codes as its
leaf paths. -/
structure ParseInv (es : List RawEntry) (st : ParseState) : Prop where
  ok : ∀ e ∈ es, e.ok
  nodup : (es.map (·.sym)).Nodup
  free : PrefixFree (es.map (·.code))
  offset : st.p = 6 + (es.flatMap RawEntry.bytes).length
  table : ∀ e ∈ es, tableGet st.ct e.sym = CtRec.ofCode e.code
  absent : ∀ b, b ∉ es.map (·.sym) → tableGet st.ct b = { len := 0, bits := 0 }
  forms : ∀ n ∈ st.nodes, FormOk n
  few : st.nodes.length ≤ 1 + 255 * es.length
  tree : ∃ t xs, IsTree st.nodes 0 t xs ∧ Grown t ∧ t.levels ≤ 256 ∧ xs.Perm (List.range st.nodes.length) ∧
    t.paths.Perm (es.map fun e => (e.sym, e.code))

/-- The childless root (45_container.md R166). -/
theorem parseInv_start (rest : List Byte) :
    ParseInv [] { p := 6, rest := rest, ct := emptyCodeTable, nodes := [NodeRec.internalOf 0 nil nil] } where
  ok := by simp
  nodup := by simp
  free := by simp [PrefixFree]
  offset := by simp
  table := by simp
  absent := by simp
  forms := by
    intro n hn
    rw [List.mem_singleton.mp hn]; exact formOk_internalOf _ _ _
  few := by simp
  tree := by
    refine ⟨.node 0 .absent .absent, [0], ?_, ⟨trivial, trivial⟩, by simp [HTree.levels], by simp [List.range_succ],
      by simp [HTree.paths]⟩
    exact IsTree.node (nodes := [NodeRec.internalOf 0 nil nil]) (i := 0) (n := NodeRec.internalOf 0 nil nil)
      zero_ne_nil rfl rfl .absent .absent

theorem take_bytes {e : RawEntry} (h : e.ok) (r : List Byte) : (e.bits ++ r).take (byteCount e.len.toNat) = e.bits := by
  rw [← h.2]; simp

theorem drop_bytes {e : RawEntry} (h : e.ok) (r : List Byte) : (e.bits ++ r).drop (byteCount e.len.toNat) = r := by
  rw [← h.2]; simp

/-- A symbol has a record exactly when an entry named it. -/
theorem parseInv_coded {es : List RawEntry} {st : ParseState} (h : ParseInv es st) (b : Byte) :
    (tableGet st.ct b).len ≠ 0 ↔ b ∈ es.map (·.sym) := by
  constructor
  · intro hn
    by_contra hc
    rw [h.absent b hc] at hn; exact hn rfl
  · intro hm
    obtain ⟨e, he, rfl⟩ := List.mem_map.mp hm
    rw [h.table e he, ofCode_len (h.ok e he)]
    exact (h.ok e he).1

/-- A well-formed entry, in its three cases (45_container.md R167 checks 6 and 7, R168). -/
theorem parseEntry_entry {es : List RawEntry} {st : ParseState} (h : ParseInv es st) {e : RawEntry} (he : e.ok)
    {r : List Byte} (hr : st.rest = e.bytes ++ r) :
    (e.sym ∈ es.map (·.sym) → parseEntry st = .error (.raise .duplicateSymbol st.p)) ∧
    (e.sym ∉ es.map (·.sym) → (∃ x ∈ es, ¬ Apart x.code e.code) →
      parseEntry st = .error (.raise .notPrefixFree st.p)) ∧
    (e.sym ∉ es.map (·.sym) → (∀ x ∈ es, Apart x.code e.code) →
      ∃ st', parseEntry st = .ok st' ∧ st'.rest = r ∧ ParseInv (es ++ [e]) st') := by
  have hshape : st.rest = e.sym :: e.len :: (e.bits ++ r) := by rw [hr]; simp [RawEntry.bytes]
  have hshort : ¬ (e.bits ++ r).length < byteCount e.len.toNat := by rw [← he.2]; simp
  have hexp : parseEntry st =
      if (tableGet st.ct e.sym).len ≠ 0 then .error (.raise .duplicateSymbol st.p)
      else match insertCode e.sym st.p st.nodes 0 e.code with
        | .error x => .error x
        | .ok nodes => .ok {
            p := st.p + 2 + byteCount e.len.toNat, rest := r
            ct := tableSet st.ct e.sym (CtRec.ofCode e.code), nodes := nodes } := by
    simp only [parseEntry, hshape, he.1, hshort, if_false, take_bytes he, drop_bytes he, RawEntry.code] <;> rfl
  have hc := rawCode_ne_nil he
  obtain ⟨t, xs, h1, h2, h3, h4, h5⟩ := h.tree
  have hnew : e.sym ∉ es.map (·.sym) → es.length ≤ 255 := fun hn => by
    have := nodup_length (bs := e.sym :: es.map (·.sym)) (List.nodup_cons.mpr ⟨hn, h.nodup⟩)
    simp only [List.length_cons, List.length_map] at this; omega
  have hins : e.sym ∉ es.map (·.sym) →
      match insertTree e.sym e.code t with
      | none => insertCode e.sym st.p st.nodes 0 e.code = .error (.raise .notPrefixFree st.p)
      | some t' => ∃ nodes' k ys, insertCode e.sym st.p st.nodes 0 e.code = .ok nodes' ∧
          IsTree nodes' 0 t' ys ∧ ys.Perm (xs ++ List.range' st.nodes.length k) ∧
          nodes'.length = st.nodes.length + k ∧ k ≤ 255 ∧ (∀ n ∈ nodes', FormOk n) := fun hn => by
    obtain ⟨b, bs, hb⟩ := List.exists_cons_of_ne_nil hc
    have hlen := rawCode_le he
    rw [hb] at hlen ⊢
    simp only [List.length_cons] at hlen
    have hfew := h.few
    have hes := hnew hn
    have := insertCode_isTree (sym := e.sym) (e0 := st.p) bs b h1 (grown_isNode h2)
      (h4.nodup_iff.mpr List.nodup_range) h.forms (by omega)
    cases hi : insertTree e.sym (b :: bs) t with
    | none => rw [hi] at this; exact this
    | some u =>
      rw [hi] at this
      obtain ⟨nodes', k, ys, g1, g2, g3, g4, g5, -, g7⟩ := this
      exact ⟨nodes', k, ys, g1, g2, g3, g4, by omega, g7⟩
  refine ⟨fun hm => ?_, fun hm hx => ?_, fun hm hx => ?_⟩
  · rw [hexp, if_pos ((parseInv_coded h _).mpr hm)]
  · rw [hexp, if_neg (fun hn => hm ((parseInv_coded h _).mp hn))]
    have := hins hm
    cases hi : insertTree e.sym e.code t with
    | none => rw [hi] at this; rw [this]
    | some u =>
      obtain ⟨x, hxm, hxa⟩ := hx
      have hxp : (x.sym, x.code) ∈ t.paths := h5.mem_iff.mpr (List.mem_map.mpr ⟨x, hxm, rfl⟩)
      exact absurd (apart_of_insertTree hi _ hxp) hxa
  · rw [hexp, if_neg (fun hn => hm ((parseInv_coded h _).mp hn))]
    obtain ⟨u, hu⟩ := insert_of_apart (sym := e.sym) hc h2 fun y hy => by
      obtain ⟨x, hxm, rfl⟩ := List.mem_map.mp (h5.mem_iff.mp hy)
      exact hx x hxm
    have := hins hm
    rw [hu] at this
    obtain ⟨nodes', k, ys, g1, g2, g3, g4, g5, g6⟩ := this
    rw [g1]
    have hstar : (es ++ [e]).map (fun x => (x.sym, x.code)) =
        es.map (fun x => (x.sym, x.code)) ++ [(e.sym, e.code)] := by simp
    refine ⟨_, rfl, rfl, ?_⟩
    constructor
    · intro x hx
      rcases List.mem_append.mp hx with hx | hx
      · exact h.ok x hx
      · rw [List.mem_singleton.mp hx]; exact he
    · rw [List.map_append, List.nodup_append]
      refine ⟨h.nodup, by simp, ?_⟩
      intro a ha b hb
      simp only [List.map_cons, List.map_nil, List.mem_singleton] at hb
      subst hb
      exact fun hab => hm (hab ▸ ha)
    · rw [PrefixFree, List.map_append, List.pairwise_append]
      refine ⟨h.free, by simp, ?_⟩
      intro a ha b hb
      simp only [List.map_cons, List.map_nil, List.mem_singleton] at hb
      subst hb
      obtain ⟨x, hxm, rfl⟩ := List.mem_map.mp ha
      exact hx x hxm
    · have := h.offset
      simp only [List.flatMap_append, List.flatMap_cons, List.flatMap_nil, List.append_nil, List.length_append,
        length_bytes, he.2]
      omega
    · intro x hx
      rw [tableGet_set]
      rcases List.mem_append.mp hx with hx | hx
      · rw [if_neg (fun e' : e.sym = x.sym => hm (e' ▸ List.mem_map.mpr ⟨x, hx, rfl⟩)), h.table x hx]
      · rw [List.mem_singleton.mp hx, if_pos rfl]
    · intro b hb
      simp only [List.map_append, List.map_cons, List.map_nil, List.mem_append, List.mem_singleton, not_or] at hb
      rw [tableGet_set, if_neg (fun e' => hb.2 e'.symm), h.absent b hb.1]
    · exact g6
    · have := h.few
      simp only [g4, List.length_append, List.length_singleton]; omega
    · refine ⟨u, ys, g2, grown_insert hc hu h2, ?_, ?_, ?_⟩
      · have := insertTree_levels hu
        have := rawCode_le he
        omega
      · rw [g4, List.range_eq_range', ← List.range'_append_1]
        rw [List.range_eq_range'] at h4
        simpa using g3.trans (h4.append_right _)
      · rw [hstar]
        exact (insertTree_paths hu).trans ((h5.cons _).trans (List.perm_append_singleton _ _).symm)

/-- Every way an entry can begin: too few bytes, a zero length, too few code bytes, or a well-formed entry. -/
theorem parseEntry_shapes (st : ParseState) :
    (∃ c i, parseEntry st = .error (.raise c i) ∧ c.kind = 2) ∨
    ∃ e r, RawEntry.ok e ∧ st.rest = e.bytes ++ r := by
  rcases hr : st.rest with _ | ⟨sym, _ | ⟨len, rest⟩⟩
  · exact .inl ⟨.shortHeader, st.p, by simp [parseEntry, hr], rfl⟩
  · exact .inl ⟨.shortHeader, st.p, by simp [parseEntry, hr], rfl⟩
  · by_cases hl : len = 0
    · exact .inl ⟨.zeroCodeLen, st.p, by simp [parseEntry, hr, hl], rfl⟩
    · by_cases hs : rest.length < byteCount len.toNat
      · exact .inl ⟨.shortHeader, st.p + 2, by simp only [parseEntry, hr, hl, hs, if_false, if_true], rfl⟩
      · refine .inr ⟨⟨sym, len, rest.take (byteCount len.toNat)⟩, rest.drop (byteCount len.toNat), ⟨hl, ?_⟩, ?_⟩
        · simp only [List.length_take]; omega
        · simp [RawEntry.bytes]

/-- One entry, from a state the loop can be in: a CorruptContainerError, or one more well-formed entry read. -/
theorem parseEntry_cases {es : List RawEntry} {st : ParseState} (h : ParseInv es st) :
    (∃ c i, parseEntry st = .error (.raise c i) ∧ c.kind = 2) ∨
    ∃ e st', parseEntry st = .ok st' ∧ st.rest = e.bytes ++ st'.rest ∧ ParseInv (es ++ [e]) st' := by
  rcases parseEntry_shapes st with hs | ⟨e, r, he, hr⟩
  · exact .inl hs
  · obtain ⟨h1, h2, h3⟩ := parseEntry_entry h he hr
    by_cases hm : e.sym ∈ es.map (·.sym)
    · exact .inl ⟨_, _, h1 hm, rfl⟩
    · by_cases hx : ∀ x ∈ es, Apart x.code e.code
      · obtain ⟨st', hp, rfl, hi⟩ := h3 hm hx
        exact .inr ⟨e, st', hp, hr, hi⟩
      · push Not at hx
        exact .inl ⟨_, _, h2 hm hx, rfl⟩

/-- The loop, from a state it can be in. -/
theorem parseEntries_cases {n : Nat} {es : List RawEntry} {st : ParseState} (h : ParseInv es st) :
    (∃ c i, parseEntries n st = .error (.raise c i) ∧ c.kind = 2) ∨
    ∃ fs st', parseEntries n st = .ok st' ∧ fs.length = n ∧
      st.rest = fs.flatMap RawEntry.bytes ++ st'.rest ∧ ParseInv (es ++ fs) st' := by
  induction n generalizing es st with
  | zero => exact .inr ⟨[], st, rfl, rfl, rfl, by simpa using h⟩
  | succ n ih =>
    rcases parseEntry_cases h with ⟨c, i, hp, hk⟩ | ⟨e, st', hp, hr, hi⟩
    · exact .inl ⟨c, i, by simp only [parseEntries, hp], hk⟩
    · rcases ih hi with ⟨c, i, hp', hk⟩ | ⟨fs, st'', hp', hl, hr', hi'⟩
      · exact .inl ⟨c, i, by simp only [parseEntries, hp, hp'], hk⟩
      · refine .inr ⟨e :: fs, st'', by simp only [parseEntries, hp, hp'], by simp [hl], ?_, ?_⟩
        · rw [hr, hr']; simp
        · simpa using hi'

/-- The loop over well-formed entries with new symbols and codes apart reads them all. -/
theorem parseEntries_good {fs es : List RawEntry} {st : ParseState} {m : Nat} {r : List Byte} (h : ParseInv es st)
    (hr : st.rest = fs.flatMap RawEntry.bytes ++ r) (ho : ∀ e ∈ fs, e.ok) (hn : ((es ++ fs).map (·.sym)).Nodup)
    (hf : PrefixFree ((es ++ fs).map (·.code))) :
    ∃ st', parseEntries (fs.length + m) st = parseEntries m st' ∧ st'.rest = r ∧ ParseInv (es ++ fs) st' := by
  induction fs generalizing es st with
  | nil => exact ⟨st, by simp, by simpa using hr, by simpa using h⟩
  | cons e fs ih =>
    have hsym : e.sym ∉ es.map (·.sym) := fun hm => by
      rw [List.map_append, List.nodup_append] at hn
      exact hn.2.2 _ hm e.sym (by simp) rfl
    have hap : ∀ x ∈ es, Apart x.code e.code := fun x hx => by
      rw [PrefixFree, List.map_append, List.pairwise_append] at hf
      exact hf.2.2 _ (List.mem_map.mpr ⟨x, hx, rfl⟩) _ (by simp)
    obtain ⟨st', hp, hr', hi⟩ := (parseEntry_entry h (ho e (by simp))
      (r := fs.flatMap RawEntry.bytes ++ r) (by rw [hr]; simp)).2.2 hsym hap
    obtain ⟨st'', hp', hr'', hi'⟩ := ih hi hr' (fun x hx => ho x (by simp [hx])) (by simpa using hn) (by simpa using hf)
    refine ⟨st'', ?_, hr'', by simpa using hi'⟩
    rw [show (e :: fs).length + m = (fs.length + m) + 1 by simp; omega]
    simp only [parseEntries, hp, hp']

/-! ### The whole parser -/

/-- What a container PARSE accepts left behind. -/
structure ParsedInv (es : List RawEntry) (payCap : Nat) (c : Parsed) : Prop where
  loop : ∃ st, ParseInv es st ∧ c.ct = st.ct ∧ c.nodes = st.nodes
  pad : c.pad.toNat ≤ 7
  padFits : c.pad.toNat ≤ 8 * c.payload.length
  room : c.payload.length ≤ payCap

/-- PARSE from any bytes: a CorruptContainerError, a CapacityFault, or the parts of a container. -/
theorem parseContainer_cases (magic : Vector Byte 4) (payCap : Nat) (src : List Byte) :
    (∃ c i, parseContainer magic payCap src = .error (.raise c i) ∧ (c.kind = 2 ∨ c.kind = 4)) ∨
    ∃ es c, parseContainer magic payCap src = .ok c ∧ ParsedInv es payCap c := by
  unfold parseContainer
  split
  · exact .inl ⟨_, _, rfl, .inl rfl⟩
  · split
    · exact .inl ⟨_, _, rfl, .inl rfl⟩
    · rcases parseEntries_cases (n := beNat ((src.drop 4).take 2)) (parseInv_start (src.drop 6)) with
        ⟨c, i, hp, hk⟩ | ⟨fs, st, hp, -, -, hi⟩
      · rw [hp]; exact .inl ⟨c, i, rfl, .inl hk⟩
      · rw [hp]
        simp only [parseTrailer]
        split
        · split
          · exact .inl ⟨_, _, rfl, .inl rfl⟩
          · split
            · exact .inl ⟨_, _, rfl, .inl rfl⟩
            · split
              · exact .inl ⟨_, _, rfl, .inl rfl⟩
              · split
                · exact .inl ⟨_, _, rfl, .inl rfl⟩
                · split
                  · exact .inl ⟨_, _, rfl, .inr rfl⟩
                  · rename_i h1 h2 h3 h4 h5
                    simp only [not_not] at h3
                    exact .inr ⟨fs, _, rfl, ⟨⟨st, by simpa using hi, rfl, rfl⟩, by dsimp only; omega,
                      by dsimp only; omega, by dsimp only; omega⟩⟩
        · exact .inl ⟨_, _, rfl, .inl rfl⟩

end Sys2Proof.Laws
end

