-- ==== Sys2Proof/Laws/State.lean ====
section
/-! SUPPORT. One lemma per field per update of the state, each true by computation, so that no later proof
unfolds a record update. -/

namespace Sys2Proof.Laws

open Sys2Proof.Machine

@[simp] theorem setDone_status (s : State) (b : Bool) : (s.setDone b).status = { s.status with done := b } := rfl
@[simp] theorem setDone_err (s : State) (b : Bool) : (s.setDone b).err = s.err := rfl
@[simp] theorem setDone_errInfo (s : State) (b : Bool) : (s.setDone b).errInfo = s.errInfo := rfl
@[simp] theorem setDone_srcLen (s : State) (b : Bool) : (s.setDone b).srcLen = s.srcLen := rfl
@[simp] theorem setDone_dstLen (s : State) (b : Bool) : (s.setDone b).dstLen = s.dstLen := rfl
@[simp] theorem setDone_payLen (s : State) (b : Bool) : (s.setDone b).payLen = s.payLen := rfl
@[simp] theorem setDone_pad (s : State) (b : Bool) : (s.setDone b).pad = s.pad := rfl
@[simp] theorem setDone_root (s : State) (b : Bool) : (s.setDone b).root = s.root := rfl
@[simp] theorem setDone_nodeCnt (s : State) (b : Bool) : (s.setDone b).nodeCnt = s.nodeCnt := rfl
@[simp] theorem setDone_src (s : State) (b : Bool) : (s.setDone b).src = s.src := rfl
@[simp] theorem setDone_dst (s : State) (b : Bool) : (s.setDone b).dst = s.dst := rfl
@[simp] theorem setDone_pay (s : State) (b : Bool) : (s.setDone b).pay = s.pay := rfl
@[simp] theorem setDone_ft (s : State) (b : Bool) : (s.setDone b).ft = s.ft := rfl
@[simp] theorem setDone_node (s : State) (b : Bool) : (s.setDone b).node = s.node := rfl
@[simp] theorem setDone_ct (s : State) (b : Bool) : (s.setDone b).ct = s.ct := rfl
@[simp] theorem setDone_cfg (s : State) (b : Bool) : (s.setDone b).cfg = s.cfg := rfl
@[simp] theorem setDone_host (s : State) (b : Bool) : (s.setDone b).host = s.host := rfl
@[simp] theorem setDone_reply (s : State) (b : Bool) : (s.setDone b).reply = s.reply := rfl
@[simp] theorem setDone_draws (s : State) (b : Bool) : (s.setDone b).draws = s.draws := rfl

@[simp] theorem setEmpty_status (s : State) (b : Bool) : (s.setEmpty b).status = { s.status with empty := b } := rfl
@[simp] theorem setEmpty_err (s : State) (b : Bool) : (s.setEmpty b).err = s.err := rfl
@[simp] theorem setEmpty_errInfo (s : State) (b : Bool) : (s.setEmpty b).errInfo = s.errInfo := rfl
@[simp] theorem setEmpty_srcLen (s : State) (b : Bool) : (s.setEmpty b).srcLen = s.srcLen := rfl
@[simp] theorem setEmpty_dstLen (s : State) (b : Bool) : (s.setEmpty b).dstLen = s.dstLen := rfl
@[simp] theorem setEmpty_payLen (s : State) (b : Bool) : (s.setEmpty b).payLen = s.payLen := rfl
@[simp] theorem setEmpty_pad (s : State) (b : Bool) : (s.setEmpty b).pad = s.pad := rfl
@[simp] theorem setEmpty_root (s : State) (b : Bool) : (s.setEmpty b).root = s.root := rfl
@[simp] theorem setEmpty_nodeCnt (s : State) (b : Bool) : (s.setEmpty b).nodeCnt = s.nodeCnt := rfl
@[simp] theorem setEmpty_src (s : State) (b : Bool) : (s.setEmpty b).src = s.src := rfl
@[simp] theorem setEmpty_dst (s : State) (b : Bool) : (s.setEmpty b).dst = s.dst := rfl
@[simp] theorem setEmpty_pay (s : State) (b : Bool) : (s.setEmpty b).pay = s.pay := rfl
@[simp] theorem setEmpty_ft (s : State) (b : Bool) : (s.setEmpty b).ft = s.ft := rfl
@[simp] theorem setEmpty_node (s : State) (b : Bool) : (s.setEmpty b).node = s.node := rfl
@[simp] theorem setEmpty_ct (s : State) (b : Bool) : (s.setEmpty b).ct = s.ct := rfl
@[simp] theorem setEmpty_cfg (s : State) (b : Bool) : (s.setEmpty b).cfg = s.cfg := rfl
@[simp] theorem setEmpty_host (s : State) (b : Bool) : (s.setEmpty b).host = s.host := rfl
@[simp] theorem setEmpty_reply (s : State) (b : Bool) : (s.setEmpty b).reply = s.reply := rfl
@[simp] theorem setEmpty_draws (s : State) (b : Bool) : (s.setEmpty b).draws = s.draws := rfl

@[simp] theorem cleared_status (s : State) : (s.cleared).status = { done := false, err := false, empty := false } := rfl
@[simp] theorem cleared_err (s : State) : (s.cleared).err = { kind := 0, sub := 0, op := 0 } := rfl
@[simp] theorem cleared_errInfo (s : State) : (s.cleared).errInfo = 0 := rfl
@[simp] theorem cleared_srcLen (s : State) : (s.cleared).srcLen = 0 := rfl
@[simp] theorem cleared_dstLen (s : State) : (s.cleared).dstLen = 0 := rfl
@[simp] theorem cleared_payLen (s : State) : (s.cleared).payLen = 0 := rfl
@[simp] theorem cleared_pad (s : State) : (s.cleared).pad = 0 := rfl
@[simp] theorem cleared_root (s : State) : (s.cleared).root = nil := rfl
@[simp] theorem cleared_nodeCnt (s : State) : (s.cleared).nodeCnt = 0 := rfl
@[simp] theorem cleared_src (s : State) : (s.cleared).src = s.src.forget := rfl
@[simp] theorem cleared_dst (s : State) : (s.cleared).dst = s.dst.forget := rfl
@[simp] theorem cleared_pay (s : State) : (s.cleared).pay = s.pay.forget := rfl
@[simp] theorem cleared_ft (s : State) : (s.cleared).ft = emptyFreqTable := rfl
@[simp] theorem cleared_node (s : State) : (s.cleared).node = [] := rfl
@[simp] theorem cleared_ct (s : State) : (s.cleared).ct = emptyCodeTable := rfl
@[simp] theorem cleared_cfg (s : State) : (s.cleared).cfg = s.cfg := rfl
@[simp] theorem cleared_host (s : State) : (s.cleared).host = s.host := rfl
@[simp] theorem cleared_reply (s : State) : (s.cleared).reply = s.reply := rfl
@[simp] theorem cleared_draws (s : State) : (s.cleared).draws = s.draws := rfl

@[simp] theorem clearDerived_status (s : State) : (s.clearDerived).status = { s.status with empty := false } := rfl
@[simp] theorem clearDerived_err (s : State) : (s.clearDerived).err = s.err := rfl
@[simp] theorem clearDerived_errInfo (s : State) : (s.clearDerived).errInfo = s.errInfo := rfl
@[simp] theorem clearDerived_srcLen (s : State) : (s.clearDerived).srcLen = s.srcLen := rfl
@[simp] theorem clearDerived_dstLen (s : State) : (s.clearDerived).dstLen = 0 := rfl
@[simp] theorem clearDerived_payLen (s : State) : (s.clearDerived).payLen = 0 := rfl
@[simp] theorem clearDerived_pad (s : State) : (s.clearDerived).pad = 0 := rfl
@[simp] theorem clearDerived_root (s : State) : (s.clearDerived).root = nil := rfl
@[simp] theorem clearDerived_nodeCnt (s : State) : (s.clearDerived).nodeCnt = 0 := rfl
@[simp] theorem clearDerived_src (s : State) : (s.clearDerived).src = s.src := rfl
@[simp] theorem clearDerived_dst (s : State) : (s.clearDerived).dst = s.dst := rfl
@[simp] theorem clearDerived_pay (s : State) : (s.clearDerived).pay = s.pay := rfl
@[simp] theorem clearDerived_ft (s : State) : (s.clearDerived).ft = emptyFreqTable := rfl
@[simp] theorem clearDerived_node (s : State) : (s.clearDerived).node = [] := rfl
@[simp] theorem clearDerived_ct (s : State) : (s.clearDerived).ct = emptyCodeTable := rfl
@[simp] theorem clearDerived_cfg (s : State) : (s.clearDerived).cfg = s.cfg := rfl
@[simp] theorem clearDerived_host (s : State) : (s.clearDerived).host = s.host := rfl
@[simp] theorem clearDerived_reply (s : State) : (s.clearDerived).reply = s.reply := rfl
@[simp] theorem clearDerived_draws (s : State) : (s.clearDerived).draws = s.draws := rfl

@[simp] theorem taken_status (s : State) (rest : List HostMove) : (s.taken rest).status = s.status := rfl
@[simp] theorem taken_err (s : State) (rest : List HostMove) : (s.taken rest).err = s.err := rfl
@[simp] theorem taken_errInfo (s : State) (rest : List HostMove) : (s.taken rest).errInfo = s.errInfo := rfl
@[simp] theorem taken_srcLen (s : State) (rest : List HostMove) : (s.taken rest).srcLen = s.srcLen := rfl
@[simp] theorem taken_dstLen (s : State) (rest : List HostMove) : (s.taken rest).dstLen = s.dstLen := rfl
@[simp] theorem taken_payLen (s : State) (rest : List HostMove) : (s.taken rest).payLen = s.payLen := rfl
@[simp] theorem taken_pad (s : State) (rest : List HostMove) : (s.taken rest).pad = s.pad := rfl
@[simp] theorem taken_root (s : State) (rest : List HostMove) : (s.taken rest).root = s.root := rfl
@[simp] theorem taken_nodeCnt (s : State) (rest : List HostMove) : (s.taken rest).nodeCnt = s.nodeCnt := rfl
@[simp] theorem taken_src (s : State) (rest : List HostMove) : (s.taken rest).src = s.src := rfl
@[simp] theorem taken_dst (s : State) (rest : List HostMove) : (s.taken rest).dst = s.dst := rfl
@[simp] theorem taken_pay (s : State) (rest : List HostMove) : (s.taken rest).pay = s.pay := rfl
@[simp] theorem taken_ft (s : State) (rest : List HostMove) : (s.taken rest).ft = s.ft := rfl
@[simp] theorem taken_node (s : State) (rest : List HostMove) : (s.taken rest).node = s.node := rfl
@[simp] theorem taken_ct (s : State) (rest : List HostMove) : (s.taken rest).ct = s.ct := rfl
@[simp] theorem taken_cfg (s : State) (rest : List HostMove) : (s.taken rest).cfg = s.cfg := rfl
@[simp] theorem taken_host (s : State) (rest : List HostMove) : (s.taken rest).host = rest := rfl
@[simp] theorem taken_reply (s : State) (rest : List HostMove) : (s.taken rest).reply = .nothing := rfl
@[simp] theorem taken_draws (s : State) (rest : List HostMove) : (s.taken rest).draws = s.draws := rfl

@[simp] theorem freqUnit_status (s : State) : (freqUnit s).status = { s.status with empty := s.srcLen == 0 } := rfl
@[simp] theorem freqUnit_err (s : State) : (freqUnit s).err = s.err := rfl
@[simp] theorem freqUnit_errInfo (s : State) : (freqUnit s).errInfo = s.errInfo := rfl
@[simp] theorem freqUnit_srcLen (s : State) : (freqUnit s).srcLen = s.srcLen := rfl
@[simp] theorem freqUnit_dstLen (s : State) : (freqUnit s).dstLen = s.dstLen := rfl
@[simp] theorem freqUnit_payLen (s : State) : (freqUnit s).payLen = s.payLen := rfl
@[simp] theorem freqUnit_pad (s : State) : (freqUnit s).pad = s.pad := rfl
@[simp] theorem freqUnit_root (s : State) : (freqUnit s).root = s.root := rfl
@[simp] theorem freqUnit_nodeCnt (s : State) : (freqUnit s).nodeCnt = s.nodeCnt := rfl
@[simp] theorem freqUnit_src (s : State) : (freqUnit s).src = s.src := rfl
@[simp] theorem freqUnit_dst (s : State) : (freqUnit s).dst = s.dst := rfl
@[simp] theorem freqUnit_pay (s : State) : (freqUnit s).pay = s.pay := rfl
@[simp] theorem freqUnit_ft (s : State) : (freqUnit s).ft = freqTable s.srcBytes := rfl
@[simp] theorem freqUnit_node (s : State) : (freqUnit s).node = s.node := rfl
@[simp] theorem freqUnit_ct (s : State) : (freqUnit s).ct = s.ct := rfl
@[simp] theorem freqUnit_cfg (s : State) : (freqUnit s).cfg = s.cfg := rfl
@[simp] theorem freqUnit_host (s : State) : (freqUnit s).host = s.host := rfl
@[simp] theorem freqUnit_reply (s : State) : (freqUnit s).reply = s.reply := rfl
@[simp] theorem freqUnit_draws (s : State) : (freqUnit s).draws = s.draws := rfl

@[simp] theorem drawnByte_status (s : State) : (drawnByte s).status = s.status := rfl
@[simp] theorem drawnByte_err (s : State) : (drawnByte s).err = s.err := rfl
@[simp] theorem drawnByte_errInfo (s : State) : (drawnByte s).errInfo = s.errInfo := rfl
@[simp] theorem drawnByte_srcLen (s : State) : (drawnByte s).srcLen = s.srcLen := rfl
@[simp] theorem drawnByte_dstLen (s : State) : (drawnByte s).dstLen = s.dstLen := rfl
@[simp] theorem drawnByte_payLen (s : State) : (drawnByte s).payLen = s.payLen := rfl
@[simp] theorem drawnByte_pad (s : State) : (drawnByte s).pad = s.pad := rfl
@[simp] theorem drawnByte_root (s : State) : (drawnByte s).root = s.root := rfl
@[simp] theorem drawnByte_nodeCnt (s : State) : (drawnByte s).nodeCnt = s.nodeCnt := rfl
@[simp] theorem drawnByte_src (s : State) : (drawnByte s).src = s.src := rfl
@[simp] theorem drawnByte_dst (s : State) : (drawnByte s).dst = s.dst := rfl
@[simp] theorem drawnByte_pay (s : State) : (drawnByte s).pay = s.pay := rfl
@[simp] theorem drawnByte_ft (s : State) : (drawnByte s).ft = s.ft := rfl
@[simp] theorem drawnByte_node (s : State) : (drawnByte s).node = s.node := rfl
@[simp] theorem drawnByte_ct (s : State) : (drawnByte s).ct = s.ct := rfl
@[simp] theorem drawnByte_cfg (s : State) : (drawnByte s).cfg = s.cfg := rfl
@[simp] theorem drawnByte_host (s : State) : (drawnByte s).host = s.host := rfl
@[simp] theorem drawnByte_reply (s : State) : (drawnByte s).reply = .byte (Config.drawByte s.draws) := rfl
@[simp] theorem drawnByte_draws (s : State) : (drawnByte s).draws = s.draws + 1 := rfl

@[simp] theorem drawnNode_status (s : State) : (drawnNode s).status = s.status := rfl
@[simp] theorem drawnNode_err (s : State) : (drawnNode s).err = s.err := rfl
@[simp] theorem drawnNode_errInfo (s : State) : (drawnNode s).errInfo = s.errInfo := rfl
@[simp] theorem drawnNode_srcLen (s : State) : (drawnNode s).srcLen = s.srcLen := rfl
@[simp] theorem drawnNode_dstLen (s : State) : (drawnNode s).dstLen = s.dstLen := rfl
@[simp] theorem drawnNode_payLen (s : State) : (drawnNode s).payLen = s.payLen := rfl
@[simp] theorem drawnNode_pad (s : State) : (drawnNode s).pad = s.pad := rfl
@[simp] theorem drawnNode_root (s : State) : (drawnNode s).root = s.root := rfl
@[simp] theorem drawnNode_nodeCnt (s : State) : (drawnNode s).nodeCnt = s.nodeCnt := rfl
@[simp] theorem drawnNode_src (s : State) : (drawnNode s).src = s.src := rfl
@[simp] theorem drawnNode_dst (s : State) : (drawnNode s).dst = s.dst := rfl
@[simp] theorem drawnNode_pay (s : State) : (drawnNode s).pay = s.pay := rfl
@[simp] theorem drawnNode_ft (s : State) : (drawnNode s).ft = s.ft := rfl
@[simp] theorem drawnNode_node (s : State) : (drawnNode s).node = s.node := rfl
@[simp] theorem drawnNode_ct (s : State) : (drawnNode s).ct = s.ct := rfl
@[simp] theorem drawnNode_cfg (s : State) : (drawnNode s).cfg = s.cfg := rfl
@[simp] theorem drawnNode_host (s : State) : (drawnNode s).host = s.host := rfl
@[simp] theorem drawnNode_reply (s : State) : (drawnNode s).reply = .record (Config.drawNode s.draws) := rfl
@[simp] theorem drawnNode_draws (s : State) : (drawnNode s).draws = s.draws + 1 := rfl

@[simp] theorem clearDest_status (s : State) (u : Option UnitId) : (s.clearDest u).status = s.status := by
  rcases u with _ | u
  · rfl
  · cases u <;> rfl
@[simp] theorem clearDest_err (s : State) (u : Option UnitId) : (s.clearDest u).err = s.err := by
  rcases u with _ | u
  · rfl
  · cases u <;> rfl
@[simp] theorem clearDest_errInfo (s : State) (u : Option UnitId) : (s.clearDest u).errInfo = s.errInfo := by
  rcases u with _ | u
  · rfl
  · cases u <;> rfl
@[simp] theorem clearDest_srcLen (s : State) (u : Option UnitId) : (s.clearDest u).srcLen = s.srcLen := by
  rcases u with _ | u
  · rfl
  · cases u <;> rfl
@[simp] theorem clearDest_src (s : State) (u : Option UnitId) : (s.clearDest u).src = s.src := by
  rcases u with _ | u
  · rfl
  · cases u <;> rfl
@[simp] theorem clearDest_ft (s : State) (u : Option UnitId) : (s.clearDest u).ft = s.ft := by
  rcases u with _ | u
  · rfl
  · cases u <;> rfl
@[simp] theorem clearDest_cfg (s : State) (u : Option UnitId) : (s.clearDest u).cfg = s.cfg := by
  rcases u with _ | u
  · rfl
  · cases u <;> rfl
@[simp] theorem clearDest_host (s : State) (u : Option UnitId) : (s.clearDest u).host = s.host := by
  rcases u with _ | u
  · rfl
  · cases u <;> rfl
@[simp] theorem clearDest_reply (s : State) (u : Option UnitId) : (s.clearDest u).reply = s.reply := by
  rcases u with _ | u
  · rfl
  · cases u <;> rfl
@[simp] theorem clearDest_draws (s : State) (u : Option UnitId) : (s.clearDest u).draws = s.draws := by
  rcases u with _ | u
  · rfl
  · cases u <;> rfl

@[simp] theorem takeFault_srcLen (s : State) (op : Byte) (u : Option UnitId) (c : FaultCause) (i : Nat) :
    (s.takeFault op u c i).srcLen = s.srcLen := clearDest_srcLen s u
@[simp] theorem takeFault_src (s : State) (op : Byte) (u : Option UnitId) (c : FaultCause) (i : Nat) :
    (s.takeFault op u c i).src = s.src := clearDest_src s u
@[simp] theorem takeFault_ft (s : State) (op : Byte) (u : Option UnitId) (c : FaultCause) (i : Nat) :
    (s.takeFault op u c i).ft = s.ft := clearDest_ft s u
@[simp] theorem takeFault_cfg (s : State) (op : Byte) (u : Option UnitId) (c : FaultCause) (i : Nat) :
    (s.takeFault op u c i).cfg = s.cfg := clearDest_cfg s u
@[simp] theorem takeFault_host (s : State) (op : Byte) (u : Option UnitId) (c : FaultCause) (i : Nat) :
    (s.takeFault op u c i).host = s.host := clearDest_host s u
@[simp] theorem takeFault_reply (s : State) (op : Byte) (u : Option UnitId) (c : FaultCause) (i : Nat) :
    (s.takeFault op u c i).reply = s.reply := clearDest_reply s u
@[simp] theorem takeFault_draws (s : State) (op : Byte) (u : Option UnitId) (c : FaultCause) (i : Nat) :
    (s.takeFault op u c i).draws = s.draws := clearDest_draws s u
@[simp] theorem takeFault_dstLen (s : State) (op : Byte) (u : Option UnitId) (c : FaultCause) (i : Nat) :
    (s.takeFault op u c i).dstLen = (s.clearDest u).dstLen := rfl
@[simp] theorem takeFault_payLen (s : State) (op : Byte) (u : Option UnitId) (c : FaultCause) (i : Nat) :
    (s.takeFault op u c i).payLen = (s.clearDest u).payLen := rfl
@[simp] theorem takeFault_pad (s : State) (op : Byte) (u : Option UnitId) (c : FaultCause) (i : Nat) :
    (s.takeFault op u c i).pad = (s.clearDest u).pad := rfl
@[simp] theorem takeFault_root (s : State) (op : Byte) (u : Option UnitId) (c : FaultCause) (i : Nat) :
    (s.takeFault op u c i).root = (s.clearDest u).root := rfl
@[simp] theorem takeFault_nodeCnt (s : State) (op : Byte) (u : Option UnitId) (c : FaultCause) (i : Nat) :
    (s.takeFault op u c i).nodeCnt = (s.clearDest u).nodeCnt := rfl
@[simp] theorem takeFault_dst (s : State) (op : Byte) (u : Option UnitId) (c : FaultCause) (i : Nat) :
    (s.takeFault op u c i).dst = (s.clearDest u).dst := rfl
@[simp] theorem takeFault_pay (s : State) (op : Byte) (u : Option UnitId) (c : FaultCause) (i : Nat) :
    (s.takeFault op u c i).pay = (s.clearDest u).pay := rfl
@[simp] theorem takeFault_node (s : State) (op : Byte) (u : Option UnitId) (c : FaultCause) (i : Nat) :
    (s.takeFault op u c i).node = (s.clearDest u).node := rfl
@[simp] theorem takeFault_ct (s : State) (op : Byte) (u : Option UnitId) (c : FaultCause) (i : Nat) :
    (s.takeFault op u c i).ct = (s.clearDest u).ct := rfl
@[simp] theorem takeFault_err (s : State) (op : Byte) (u : Option UnitId) (c : FaultCause) (i : Nat) :
    (s.takeFault op u c i).err = { kind := c.kind, sub := c.sub, op := op } := rfl
@[simp] theorem takeFault_errInfo (s : State) (op : Byte) (u : Option UnitId) (c : FaultCause) (i : Nat) :
    (s.takeFault op u c i).errInfo = errInfoWord i := rfl
@[simp] theorem takeFault_status (s : State) (op : Byte) (u : Option UnitId) (c : FaultCause) (i : Nat) :
    (s.takeFault op u c i).status = { s.status with err := true } := by
  show { (s.clearDest u).status with err := true } = _
  rw [clearDest_status]

/-- No fault has the code "no fault recorded" (60_exceptions.md R200). -/
theorem kind_ne_zero (c : FaultCause) : c.kind ≠ 0 := by cases c <;> decide

end Sys2Proof.Laws
end

