-- ==== Sys2Proof/Laws/Protocol.lean ====
section
/-! SUPPORT. Everything a command can do, said once: the protocol, the sequencer and the units by inversion. -/

namespace Sys2Proof.Laws

open Sys2Proof.Machine

/-- A command word written while a fault is recorded is ignored, CLR's apart (46_macro_control.md R184). -/
theorem protocol_ignored {op : Byte} {rule : State → CmdEnd} {s : State} (he : s.status.err = true)
    (hop : op ≠ encode .clr) : protocol op rule s = .next s := by
  simp [protocol, he, hop]

/-- Without a recorded fault the rule runs, from the state with DONE cleared (46_macro_control.md R185). -/
theorem protocol_runs {op : Byte} {rule : State → CmdEnd} {s : State} (he : s.status.err = false) :
    protocol op rule s = finish op (rule (s.setDone false)) := by
  simp [protocol, he]

/-- What a command word can do when it answers a next state. -/
theorem protocol_cases {op : Byte} {rule : State → CmdEnd} {s t : State} (h : protocol op rule s = .next t) :
    (s.status.err = true ∧ op ≠ encode .clr ∧ t = s) ∨
    ((s.status.err = true → op = encode .clr) ∧ ∃ u, rule (s.setDone false) = .ended u ∧ t = u.setDone true) ∨
    ((s.status.err = true → op = encode .clr) ∧
      ∃ u w c i, rule (s.setDone false) = .raised u w c i ∧ t = u.takeFault op w c i) := by
  unfold protocol at h
  split at h
  · rename_i hc; cases h; exact .inl ⟨hc.1, hc.2, rfl⟩
  · rename_i hc
    have hc' : s.status.err = true → op = encode .clr := fun he => by
      by_contra hn; exact hc ⟨he, hn⟩
    cases hr : rule (s.setDone false) with
    | ended u => rw [hr] at h; cases h; exact .inr (.inl ⟨hc', u, rfl, rfl⟩)
    | raised u w c i => rw [hr] at h; cases h; exact .inr (.inr ⟨hc', u, w, c, i, rfl, rfl⟩)
    | stuck r => rw [hr] at h; cases h

/-- A one-unit command: what its end says of the unit. -/
theorem runUnits_single (u : UnitId) (s : State) :
    runUnits [u] s = match u.run s with
      | .ok t => .ended t
      | .error (.raise c i) => .raised s (some u) c i
      | .error (.stuck r) => .stuck r := by
  cases h : u.run s with
  | ok t => simp only [runUnits, h]
  | error e => cases e <;> simp only [runUnits, h]

/-- What a unit leaves unchanged when it ends without a raise: every element that is no destination of it
(30_encoding.md R72, the column "writes"). -/
structure UnitFrame (u : UnitId) (s t : State) : Prop where
  src : t.src = s.src
  srcLen : t.srcLen = s.srcLen
  cfg : t.cfg = s.cfg
  host : t.host = s.host
  reply : t.reply = s.reply
  draws : t.draws = s.draws
  err : t.err = s.err
  errInfo : t.errInfo = s.errInfo
  done : t.status.done = s.status.done
  errFlag : t.status.err = s.status.err
  freq : u ≠ .freq → t.ft = s.ft ∧ t.status = s.status
  tree : u ≠ .build → u ≠ .parse → t.node = s.node ∧ t.root = s.root ∧ t.nodeCnt = s.nodeCnt
  code : u ≠ .gencode → u ≠ .parse → t.ct = s.ct
  payload : u ≠ .encode → u ≠ .parse → t.pay = s.pay ∧ t.payLen = s.payLen ∧ t.pad = s.pad
  output : u ≠ .frame → u ≠ .decode → t.dst = s.dst ∧ t.dstLen = s.dstLen

theorem build_ok {s t : State} (h : buildUnit s = .ok t) :
    ∃ nodes r, buildTree (tableEntries s.ft) = .ok (nodes, r) ∧
      t = { s with node := nodes, root := BitVec.ofNat 16 r, nodeCnt := BitVec.ofNat 17 nodes.length } := by
  unfold buildUnit at h
  split at h
  · cases h
  · rename_i nodes r hb; cases h; exact ⟨nodes, r, hb, rfl⟩

theorem gencode_ok {s t : State} (h : gencodeUnit s = .ok t) :
    s.root ≠ nil ∧ ∃ es, walk s.node maxLevels s.root.toNat [] = .ok es ∧ t = { s with ct := tableOfCodes es } := by
  unfold gencodeUnit at h
  split at h
  · cases h
  · rename_i hr
    split at h
    · cases h
    · rename_i es he; cases h; exact ⟨hr, es, he, rfl⟩

theorem encode_ok {s t : State} (h : encodeUnit s = .ok t) :
    ∃ bits, codeBits s.ct s.srcBytes 0 = .ok bits ∧
      (packBits (bits ++ List.replicate (padCount bits.length) false)).length ≤ s.cfg.payCap.toNat ∧
      t = { s with
        pay := s.pay.writeBytes 0 (packBits (bits ++ List.replicate (padCount bits.length) false))
        payLen := BitVec.ofNat 32 (packBits (bits ++ List.replicate (padCount bits.length) false)).length
        pad := BitVec.ofNat 3 (padCount bits.length) } := by
  unfold encodeUnit at h
  split at h
  · cases h
  · rename_i bits hb
    dsimp only at h
    split at h
    · cases h
    · rename_i hc; cases h; exact ⟨bits, hb, Nat.not_lt.mp hc, rfl⟩

theorem frame_ok {s t : State} (h : frameUnit s = .ok t) :
    11 + tableSize s.ct + s.payLen.toNat ≤ s.cfg.dstCap.toNat ∧
      t = { s with
        dst := s.dst.forget.writeBytes 0 (containerBytes s.cfg.magic s.ct s.pad s.payBytes)
        dstLen := BitVec.ofNat 32 (11 + tableSize s.ct + s.payLen.toNat) } := by
  unfold frameUnit at h
  dsimp only at h
  split at h
  · cases h
  · rename_i hc; cases h; exact ⟨Nat.not_lt.mp hc, rfl⟩

theorem parse_ok {s t : State} (h : parseUnit s = .ok t) :
    ∃ c, parseContainer s.cfg.magic s.cfg.payCap.toNat s.srcBytes = .ok c ∧
      t = { s with
        ct := c.ct, node := c.nodes, root := 0, nodeCnt := BitVec.ofNat 17 c.nodes.length
        pay := s.pay.writeBytes 0 c.payload, payLen := BitVec.ofNat 32 c.payload.length, pad := c.pad.setWidth 3 } := by
  unfold parseUnit at h
  split at h
  · cases h
  · rename_i c hc; cases h; exact ⟨c, hc, rfl⟩

theorem decode_ok {s t : State} (h : decodeUnit s = .ok t) :
    s.root ≠ nil ∧ s.pad.toNat ≤ 8 * s.payLen.toNat ∧
    ∃ out, decodeWalk s.node s.root s.cfg.dstCap.toNat s.payloadBits s.root 0 0 [] = .ok out ∧
      t = { s with dst := s.dst.forget.writeBytes 0 out, dstLen := BitVec.ofNat 32 out.length } := by
  unfold decodeUnit at h
  split at h
  · cases h
  · rename_i hr
    split at h
    · cases h
    · rename_i hp
      split at h
      · cases h
      · rename_i out ho; cases h; exact ⟨hr, Nat.not_lt.mp hp, out, ho, rfl⟩

/-- The frame of every unit. -/
theorem run_frame {u : UnitId} {s t : State} (h : u.run s = .ok t) : UnitFrame u s t := by
  cases u with
  | freq =>
    cases h
    constructor <;> simp
  | build =>
    obtain ⟨nodes, r, -, rfl⟩ := build_ok h
    constructor <;> simp
  | gencode =>
    obtain ⟨-, es, -, rfl⟩ := gencode_ok h
    constructor <;> simp
  | encode =>
    obtain ⟨bits, -, -, rfl⟩ := encode_ok h
    constructor <;> simp
  | frame =>
    obtain ⟨-, rfl⟩ := frame_ok h
    constructor <;> simp
  | parse =>
    obtain ⟨c, -, rfl⟩ := parse_ok h
    constructor <;> simp
  | decode =>
    obtain ⟨-, -, out, -, rfl⟩ := decode_ok h
    constructor <;> simp

/-- An induction over the units of a command: what holds at the start and every unit keeps holds at the end, and
holds of the state the raising unit started from. -/
theorem runUnits_induct (P : State → Prop) {us : List UnitId}
    (hstep : ∀ u ∈ us, ∀ s t, P s → u.run s = .ok t → P t) {s : State} (hs : P s) :
    match runUnits us s with
    | .ended t => P t
    | .raised t u c i => P t ∧ ∃ v ∈ us, u = some v ∧ v.run t = .error (.raise c i)
    | .stuck r => ∃ t, P t ∧ ∃ v ∈ us, v.run t = .error (.stuck r) := by
  induction us generalizing s with
  | nil => exact hs
  | cons u us ih =>
    simp only [runUnits]
    cases hr : u.run s with
    | ok t =>
      have := ih (fun v hv => hstep v (List.mem_cons_of_mem _ hv)) (hstep u (by simp) s t hs hr)
      simp only
      revert this
      cases runUnits us t with
      | ended _ => exact id
      | raised _ _ _ _ => rintro ⟨h1, v, hv, h2⟩; exact ⟨h1, v, by simp [hv], h2⟩
      | stuck _ => rintro ⟨t', h1, v, hv, h2⟩; exact ⟨t', h1, v, by simp [hv], h2⟩
    | error e =>
      cases e with
      | raise c i => exact ⟨hs, u, by simp, rfl, hr⟩
      | stuck r => exact ⟨s, hs, u, by simp, hr⟩

end Sys2Proof.Laws
end

