-- ==== Sys2Proof/Laws/Units.lean ====
section
/-! SUPPORT. What each unit computes, said once in the terms of the statements. -/

namespace Sys2Proof.Laws

open Sys2Proof.Machine Sys2Proof.Safety

/-! ### The tree invariant -/

theorem treeInv_congr {s t : State} (h : TreeInv s) (h1 : t.node = s.node) (h2 : t.root = s.root)
    (h3 : t.nodeCnt = s.nodeCnt) : TreeInv t := by
  constructor
  · rw [h1, h3]; exact h.count
  · rw [h1]; exact h.room
  · rw [h2, h3]; exact h.empty
  · rw [h1]; exact h.records
  · rw [h2]
    intro hr
    obtain ⟨tr, ht⟩ := h.tree hr
    exact ⟨tr, by unfold TreeOf at ht ⊢; rw [h1, h2]; exact ht⟩

/-- No tree: ROOT = NIL and no record in use. -/
theorem treeInv_none {t : State} (h1 : t.node = []) (h2 : t.root = nil) (h3 : t.nodeCnt = 0) : TreeInv t := by
  constructor
  · rw [h1, h3]; rfl
  · rw [h1]; simp
  · simp [h2, h3]
  · rw [h1]; simp
  · intro h; exact absurd h2 h

theorem toNat_ofNat17 {n : Nat} (h : n ≤ 65281) : (BitVec.ofNat 17 n).toNat = n := by
  rw [BitVec.toNat_ofNat]; omega

/-- Child indices stay below NODE_CNT where the records are the records of a tree. -/
theorem isTree_children {nodes : List NodeRec} {i : NodeIdx} {t : HTree} {xs : List Nat} (h : IsTree nodes i t xs) :
    ∀ x ∈ xs, ∀ n, nodes[x]? = some n → n.kind = .internal →
      (n.left ≠ nil → n.left.toNat < nodes.length) ∧ (n.right ≠ nil → n.right.toNat < nodes.length) := by
  induction h with
  | absent => simp
  | leaf hi hn hk =>
    intro x hx n hn' hk'
    rw [List.mem_singleton.mp hx, hn] at hn'
    cases hn'
    rw [hk] at hk'; cases hk'
  | node hi hn hk hl hr ihl ihr =>
    intro x hx n hn' hk'
    rcases List.mem_cons.mp hx with rfl | hx
    · rw [hn] at hn'; cases hn'
      exact ⟨fun h => isTree_lt hl _ (isTree_head_mem hl h), fun h => isTree_lt hr _ (isTree_head_mem hr h)⟩
    · rcases List.mem_append.mp hx with hx | hx
      · exact ihl x hx n hn' hk'
      · exact ihr x hx n hn' hk'

/-- 10_state.md R39 from its parts: a tree that covers NODE, records of the two forms. -/
theorem treeInv_of {t : State} {tr : HTree} (h : TreeOf t tr) (hr : t.root ≠ nil)
    (hc : t.nodeCnt = BitVec.ofNat 17 t.node.length) (hroom : t.node.length ≤ 65281)
    (hf : ∀ n ∈ t.node, FormOk n) : TreeInv t := by
  obtain ⟨-, -, -, xs, hx, hp⟩ := id h
  constructor
  · rw [hc, toNat_ofNat17 hroom]
  · exact hroom
  · refine ⟨fun e => absurd e hr, fun e => ?_⟩
    have hlt := isTree_lt hx _ (isTree_head_mem hx hr)
    have := congrArg BitVec.toNat (hc.symm.trans e)
    rw [toNat_ofNat17 hroom] at this
    simp at this
    simp [this] at hlt
  · intro n hn
    obtain ⟨g1, g2⟩ := hf n hn
    refine ⟨g1, g2, ?_⟩
    cases hk : n.kind with
    | leaf => obtain ⟨e1, e2⟩ := g1 hk; exact ⟨fun h => absurd e1 h, fun h => absurd e2 h⟩
    | internal =>
      obtain ⟨i, hi, rfl⟩ := List.getElem_of_mem hn
      exact isTree_children hx i (hp.mem_iff.mpr (List.mem_range.mpr hi)) _ (List.getElem?_eq_getElem hi) hk
  · exact fun _ => ⟨tr, h⟩

/-! ### FREQ -/

theorem freqTable_fold (bs : List Byte) (t : Vector Word 256) (b : Byte)
    (h : (tableGet t b).toNat + bs.length < 2 ^ 32) :
    (tableGet (bs.foldl bump t) b).toNat = (tableGet t b).toNat + bs.count b := by
  induction bs generalizing t with
  | nil => simp
  | cons c bs ih =>
    simp only [List.length_cons] at h
    have hb : (tableGet (bump t c) b).toNat = (tableGet t b).toNat + if c = b then 1 else 0 := by
      simp only [bump, tableGet_set]
      split
      · rename_i hc; subst hc
        rw [BitVec.toNat_add]
        simp
        omega
      · simp
    rw [List.foldl_cons, ih _ (by rw [hb]; split <;> omega), hb, List.count_cons]
    simp only [beq_iff_eq]
    omega

/-- Every counter is the number of its symbol (40_freq.md R101). -/
theorem freqTable_count {bs : List Byte} (h : bs.length < 2 ^ 32) (b : Byte) :
    (tableGet (freqTable bs) b).toNat = bs.count b := by
  rw [freqTable, freqTable_fold _ _ _ (by simpa using h)]
  simp

theorem length_srcBytes (s : State) : s.srcBytes.length = s.srcLen.toNat := by simp [State.srcBytes]

theorem length_payBytes (s : State) : s.payBytes.length = s.payLen.toNat := by simp [State.payBytes]

theorem sum_count (l bs : List Byte) (hl : l.Nodup) (hm : ∀ b ∈ bs, b ∈ l) :
    (l.map fun b => bs.count b).sum = bs.length := by
  induction bs with
  | nil => simp
  | cons c bs ih =>
    have h1 : (l.map fun b => (c :: bs).count b) = l.map fun b => bs.count b + if c = b then 1 else 0 := by
      apply List.map_congr_left
      intro b _
      rw [List.count_cons]
      simp only [beq_iff_eq]
    have h2 : (l.map fun b => if c = b then 1 else 0).sum = 1 := by
      have : ∀ k : List Byte, (k.map fun b => if c = b then 1 else 0).sum = k.count c := by
        intro k
        induction k with
        | nil => rfl
        | cons d k ihk =>
          rw [List.map_cons, List.sum_cons, ihk, List.count_cons]
          by_cases hd : c = d
          · subst hd; simp; omega
          · simp [hd, Ne.symm hd]
      rw [this, List.count_eq_one_of_mem hl (hm c (by simp))]
    rw [h1, List.sum_map_add, ih (fun b hb => hm b (by simp [hb])), h2, List.length_cons]

/-- The counters sum to the number of bytes (40_freq.md R101). -/
theorem freqSum_freqTable {bs : List Byte} (h : bs.length < 2 ^ 32) : freqSum (freqTable bs) = bs.length := by
  rw [freqSum, ← sum_count symbols bs nodup_symbols fun b _ => mem_symbols b]
  congr 1
  exact List.map_congr_left fun b _ => freqTable_count h b

/-! ### The entries of a table -/

theorem tableEntries_eq (ft : Vector Word 256) : tableEntries ft = freqEntries ft := by
  simp only [tableEntries, freqEntries, tableList_eq, List.filter_map]
  rfl

theorem length_freqEntries (ft : Vector Word 256) : (freqEntries ft).length ≤ 256 := by
  simp only [freqEntries, List.length_map]
  exact (List.length_filter_le _ _).trans length_symbols.le

theorem mem_freqEntries {ft : Vector Word 256} {b : Byte} {w : Word} :
    (b, w) ∈ freqEntries ft ↔ w = tableGet ft b ∧ w ≠ 0 := by
  simp only [freqEntries, List.mem_map, List.mem_filter, mem_symbols, true_and, Prod.mk.injEq, bne_iff_ne]
  constructor
  · rintro ⟨c, h, rfl, rfl⟩; exact ⟨rfl, h⟩
  · rintro ⟨rfl, h⟩; exact ⟨b, h, rfl, rfl⟩

theorem freqEntries_ne_nil {ft : Vector Word 256} {b : Byte} (h : tableGet ft b ≠ 0) : freqEntries ft ≠ [] :=
  List.ne_nil_of_mem (mem_freqEntries.mpr ⟨rfl, h⟩)

theorem freqEntries_sorted (ft : Vector Word 256) : ((freqEntries ft).map Prod.fst).Nodup := by
  have : (freqEntries ft).map Prod.fst = symbols.filter fun b => tableGet ft b != 0 := by
    simp [freqEntries, Function.comp_def]
  rw [this]
  exact nodup_symbols.filter _

theorem freqSum_entries (ft : Vector Word 256) : ((freqEntries ft).map fun e => e.2.toNat).sum = freqSum ft := by
  have h : ∀ l : List Byte, (((l.filter fun b => tableGet ft b != 0).map fun b => (b, tableGet ft b)).map
      fun e : Byte × Word => e.2.toNat).sum = (l.map fun b => (tableGet ft b).toNat).sum := by
    intro l
    induction l with
    | nil => rfl
    | cons c l ih =>
      simp only [List.filter_cons]
      split
      · simpa using ih
      · rename_i hc
        have : tableGet ft c = 0 := by simpa using hc
        simpa [this] using ih
  exact h symbols

/-! ### BUILD -/

theorem ofNat16_toNat {n : Nat} (h : n < 65535) {i : NodeIdx} (hi : i = BitVec.ofNat 16 n) : i.toNat = n := by
  rw [hi]; exact toNat_ofNat16 h

/-- BUILD from a table with an entry: a tree that covers NODE (41_tree_build.md R119; 10_state.md R39). -/
theorem build_tree {s : State} (hne : freqEntries s.ft ≠ []) :
    ∃ t tr, buildUnit s = .ok t ∧ TreeInv t ∧ t.root ≠ nil ∧ TreeOf t tr ∧ tr.sums ∧
      tr.freq.toNat = freqSum s.ft ∧ tr.leaves.Perm ((freqEntries s.ft).map fun e => (e.1, e.2.setWidth 40)) := by
  have hlen := length_freqEntries s.ft
  have hsum := freqSum_entries s.ft
  have hnd := freqEntries_sorted s.ft
  unfold buildUnit
  rw [tableEntries_eq]
  generalize freqEntries s.ft = es at *
  rcases es with _ | ⟨e, _ | ⟨e2, rest⟩⟩
  · exact absurd rfl hne
  · simp only [buildTree]
    have hN : IsTree [NodeRec.leafOf e.1 (e.2.setWidth 40), NodeRec.internalOf (e.2.setWidth 40) 0 nil] 1
        (.node (e.2.setWidth 40) (.leaf e.1 (e.2.setWidth 40)) .absent) [1, 0] :=
      .node (nodes := [NodeRec.leafOf e.1 (e.2.setWidth 40), NodeRec.internalOf (e.2.setWidth 40) 0 nil])
        (n := NodeRec.internalOf (e.2.setWidth 40) 0 nil) (i := 1) (by decide) rfl rfl
        (.leaf (n := NodeRec.leafOf e.1 (e.2.setWidth 40)) (i := 0) zero_ne_nil rfl rfl) .absent
    have hT : ∀ t : State, t.node = [NodeRec.leafOf e.1 (e.2.setWidth 40), NodeRec.internalOf (e.2.setWidth 40) 0 nil] →
        t.root = 1 → TreeOf t (.node (e.2.setWidth 40) (.leaf e.1 (e.2.setWidth 40)) .absent) := by
      intro t h1 h2
      refine ⟨rfl, by simp [HTree.paths], by simp [HTree.levels], [1, 0], by rw [h1, h2]; exact hN, ?_⟩
      rw [h1]; exact List.Perm.swap 0 1 []
    refine ⟨_, .node (e.2.setWidth 40) (.leaf e.1 (e.2.setWidth 40)) .absent, rfl,
      treeInv_of (hT _ rfl rfl) one_ne_nil rfl (by simp) ?_, one_ne_nil, hT _ rfl rfl,
      ⟨by simp [HTree.freq], trivial, trivial⟩, ?_, by simp [HTree.leaves]⟩
    · intro n hn
      simp only [List.mem_cons, List.not_mem_nil, or_false] at hn
      rcases hn with rfl | rfl
      · exact formOk_leafOf _ _
      · exact formOk_internalOf _ _ _
    · rw [← hsum]; simpa [HTree.freq] using toNat_setWidth40 e.2
  · obtain ⟨f, p, hb, hp, hi⟩ := buildTree_many (es := e :: e2 :: rest) (by simp) hlen
    rw [hb]
    generalize hes : e :: e2 :: rest = es at *
    have h2 : 2 ≤ es.length := by rw [← hes]; simp
    obtain ⟨hn1, hn2⟩ := forestInv_root hi hp h2 hlen
    obtain ⟨tr, xs, g1, g2, g3⟩ := hi.trees
    rw [hp] at g1 g2 g3
    obtain ⟨k1, k2, k3, k4, k5⟩ := g1 p (by simp)
    simp only [List.map_cons, List.map_nil, List.flatMap_cons, List.flatMap_nil, List.append_nil] at g2 g3
    have hidx : (BitVec.ofNat 16 p.2).toNat = p.2 := toNat_ofNat16 (by omega)
    have hleaves : (tr p.2).leaves.length = es.length := by have := g3.length_eq; simpa using this
    have hnode : (tr p.2).isNode = true := by
      have hrec : ∃ n, f.nodes[p.2]? = some n ∧ n.kind = .internal := by
        obtain ⟨n, a, b, j1, j2, -⟩ := hi.joins p.2 (by omega) (by omega)
        exact ⟨n, j1, j2⟩
      obtain ⟨n, j1, j2⟩ := hrec
      rw [← hidx] at j1
      generalize BitVec.ofNat 16 p.2 = i at k1 j1 hidx
      generalize tr p.2 = t0 at k1
      generalize xs p.2 = ys at k1
      cases k1 with
      | absent => rw [show (nil : NodeIdx).toNat = 65535 by rfl] at hidx; omega
      | leaf _ hn' hk' => rw [j1] at hn'; cases hn'; rw [j2] at hk'; cases hk'
      | node => rfl
    have hT : ∀ t : State, t.node = f.nodes → t.root = BitVec.ofNat 16 p.2 → TreeOf t (tr p.2) := by
      intro t h1 h3
      refine ⟨hnode, ?_, by omega, xs p.2, by rw [h1, h3]; exact k1, by rw [h1]; exact g2⟩
      rw [paths_map_fst, (g3.map Prod.fst).nodup_iff, List.map_map]
      exact hnd
    refine ⟨_, tr p.2, rfl, treeInv_of (hT _ rfl rfl) (ofNat16_ne_nil (by omega)) rfl (by dsimp only; omega)
      (fun n hn => (hi.forms n hn).1), ofNat16_ne_nil (by omega), hT _ rfl rfl, k2, ?_, g3⟩
    have htot := hi.total
    rw [hp] at htot
    simp only [List.map_cons, List.map_nil, List.sum_cons, List.sum_nil] at htot
    rw [k3, ← hsum, ← htot]; simp

/-- BUILD from a table with no entry. -/
theorem build_empty {s : State} (h : freqEntries s.ft = []) : buildUnit s = .error (.raise .emptyTable 0) := by
  simp [buildUnit, tableEntries_eq, h, buildTree]

/-- BUILD never stops the model. -/
theorem build_cases (s : State) :
    (freqEntries s.ft = [] ∧ buildUnit s = .error (.raise .emptyTable 0)) ∨
    ∃ t tr, buildUnit s = .ok t ∧ TreeInv t ∧ t.root ≠ nil ∧ TreeOf t tr ∧ tr.sums ∧
      tr.freq.toNat = freqSum s.ft ∧
      tr.leaves.Perm ((freqEntries s.ft).map fun e => (e.1, e.2.setWidth 40)) := by
  by_cases h : freqEntries s.ft = []
  · exact .inl ⟨h, build_empty h⟩
  · exact .inr (build_tree h)

/-! ### PARSE -/

/-- The records of an accepted container are a tree (45_container.md R170). -/
theorem parsed_tree {es : List RawEntry} {cap : Nat} {c : Parsed} (h : ParsedInv es cap c) {t : State}
    (h1 : t.node = c.nodes) (h2 : t.root = 0) (h3 : t.nodeCnt = BitVec.ofNat 17 c.nodes.length) :
    TreeInv t ∧ ∃ tr, TreeOf t tr ∧ tr.paths.Perm (es.map fun e => (e.sym, e.code)) := by
  obtain ⟨st, hi, -, hn⟩ := h.loop
  obtain ⟨tr, xs, k1, k2, k3, k4, k5⟩ := hi.tree
  have hes : es.length ≤ 256 := by have := nodup_length hi.nodup; simpa using this
  have hT : TreeOf t tr := by
    refine ⟨grown_isNode k2, ?_, k3, xs, by rw [h1, h2, hn]; exact k1, by rw [h1, hn]; exact k4⟩
    rw [(k5.map Prod.fst).nodup_iff, List.map_map]
    exact hi.nodup
  have hfew := hi.few
  rw [← hn] at hfew
  exact ⟨treeInv_of hT (by rw [h2]; exact zero_ne_nil) (by rw [h3, h1]) (by rw [h1]; omega)
    (by rw [h1, hn]; exact hi.forms), tr, hT, k5⟩

/-- PARSE never stops the model. -/
theorem parse_cases (s : State) :
    (∃ c i, parseUnit s = .error (.raise c i) ∧ (c.kind = 2 ∨ c.kind = 4)) ∨
    ∃ es c t, parseUnit s = .ok t ∧ ParsedInv es s.cfg.payCap.toNat c ∧ TreeInv t ∧ t.root = 0 ∧
      t = { s with
        ct := c.ct, node := c.nodes, root := 0, nodeCnt := BitVec.ofNat 17 c.nodes.length
        pay := s.pay.writeBytes 0 c.payload, payLen := BitVec.ofNat 32 c.payload.length, pad := c.pad.setWidth 3 } := by
  unfold parseUnit
  rcases parseContainer_cases s.cfg.magic s.cfg.payCap.toNat s.srcBytes with ⟨c, i, hp, hk⟩ | ⟨es, c, hp, hi⟩
  · rw [hp]; exact .inl ⟨c, i, rfl, hk⟩
  · rw [hp]
    exact .inr ⟨es, c, _, rfl, hi, (parsed_tree hi rfl rfl rfl).1, rfl, rfl⟩

/-! ### GENCODE -/

theorem tableOfCodes_append (es : List (Byte × BitString)) (e : Byte × BitString) :
    tableOfCodes (es ++ [e]) = tableSet (tableOfCodes es) e.1 (CtRec.ofCode e.2) := by
  simp [tableOfCodes]

theorem tableOfCodes_absent {es : List (Byte × BitString)} {b : Byte} (h : b ∉ es.map Prod.fst) :
    tableGet (tableOfCodes es) b = { len := 0, bits := 0 } := by
  induction es using List.reverseRecOn with
  | nil => exact tableGet_emptyCode b
  | append_singleton es e ih =>
    simp only [List.map_append, List.map_cons, List.map_nil, List.mem_append, List.mem_singleton, not_or] at h
    rw [tableOfCodes_append, tableGet_set, if_neg (fun h' => h.2 h'.symm), ih h.1]

theorem tableOfCodes_mem {es : List (Byte × BitString)} (hn : (es.map Prod.fst).Nodup) {b : Byte} {c : BitString}
    (h : (b, c) ∈ es) : tableGet (tableOfCodes es) b = CtRec.ofCode c := by
  induction es using List.reverseRecOn with
  | nil => simp at h
  | append_singleton es e ih =>
    rw [List.map_append, List.nodup_append] at hn
    rw [tableOfCodes_append, tableGet_set]
    rcases List.mem_append.mp h with h | h
    · rw [if_neg, ih hn.1 h]
      exact fun h' => hn.2.2 b (List.mem_map.mpr ⟨_, h, rfl⟩) e.1 (by simp) h'.symm
    · rw [← List.mem_singleton.mp h, if_pos rfl]

/-- GENCODE on a tree (42_codegen.md R131). -/
theorem gencode_tree {s : State} {tr : HTree} (hr : s.root ≠ nil) (h : TreeOf s tr) :
    gencodeUnit s = .ok { s with ct := tableOfCodes tr.paths } := by
  obtain ⟨-, -, hl, xs, hx, -⟩ := h
  have hw := walk_isTree hx hr (fuel := maxLevels) hl []
  simp only [List.nil_append, Prod.mk.eta, List.map_id'] at hw
  simp only [gencodeUnit, hr, if_false, hw]

theorem treeOf_path {s : State} {tr : HTree} (h : TreeOf s tr) {b : Byte} {c : BitString} (hc : (b, c) ∈ tr.paths) :
    c ≠ [] ∧ c.length ≤ 255 := by
  have h1 := path_length hc
  have h2 := h.2.2.1
  exact ⟨path_ne_nil h.1 hc, by simp only at h1; omega⟩

/-- The table GENCODE makes holds exactly the leaf paths. -/
theorem hasCode_paths {s : State} {tr : HTree} (h : TreeOf s tr) (b : Byte) (c : BitString) :
    HasCode (tableOfCodes tr.paths) b c ↔ (b, c) ∈ tr.paths := by
  constructor
  · rintro ⟨h1, h2⟩
    by_cases hb : b ∈ tr.paths.map Prod.fst
    · obtain ⟨⟨b', c'⟩, hm, rfl⟩ := List.mem_map.mp hb
      rw [tableOfCodes_mem h.2.1 hm, code_ofCode (treeOf_path h hm).2] at h2
      subst h2; exact hm
    · rw [tableOfCodes_absent hb] at h1
      exact absurd rfl h1
  · intro hm
    obtain ⟨h1, h2⟩ := treeOf_path h hm
    rw [HasCode, tableOfCodes_mem h.2.1 hm]
    exact ⟨len_ofCode_ne_zero h2 h1, code_ofCode h2⟩

/-! ### ENCODE -/

/-- The bits of an input every symbol of which has a code. -/
theorem codeBits_ok {ct : Vector CtRec 256} {bs : List Byte} (i : Nat) (h : ∀ b ∈ bs, (tableGet ct b).len ≠ 0) :
    codeBits ct bs i = .ok (concatCodes ct bs) := by
  induction bs generalizing i with
  | nil => rfl
  | cons b bs ih =>
    have hb : ¬ (tableGet ct b).len = 0 := h b (by simp)
    simp only [codeBits, hb, if_false, ih (i + 1) fun x hx => h x (by simp [hx])]
    rfl

/-- MissingCodeError at the first symbol without a code (43_bit_encode.md R142). -/
theorem codeBits_missing {ct : Vector CtRec 256} {pre post : List Byte} {b : Byte} (i : Nat)
    (h : ∀ x ∈ pre, (tableGet ct x).len ≠ 0) (hb : (tableGet ct b).len = 0) :
    codeBits ct (pre ++ b :: post) i = .error (.raise .missingCode (i + pre.length)) := by
  induction pre generalizing i with
  | nil =>
    have hb' : (tableGet ct b).len = 0#8 := hb
    simp [codeBits, hb']
  | cons a pre ih =>
    have ha : ¬ (tableGet ct a).len = 0 := h a (by simp)
    simp only [List.cons_append, codeBits, ha, if_false, ih (i + 1) fun x hx => h x (by simp [hx]), List.length_cons]
    rw [Nat.add_right_comm, Nat.add_assoc]

theorem packBits_padded (c : BitString) (n : Nat) (hn : n = padCount c.length) :
    (packBits (c ++ List.replicate n false)).length = byteCount c.length ∧
    bitsOf (packBits (c ++ List.replicate n false)) = c ++ List.replicate n false := by
  subst hn
  have hl : (c ++ List.replicate (padCount c.length) false).length = 8 * byteCount c.length := by
    simp [add_padCount]
  refine ⟨by rw [length_packBits, hl, byteCount_mul], ?_⟩
  rw [bitsOf_packBits, hl]
  have : padCount (8 * byteCount c.length) = 0 := by simp [padCount]
  rw [this]; simp

theorem toNat_pad (n : Nat) : (BitVec.ofNat 3 (padCount n)).toNat = padCount n := by
  have := padCount_le n
  rw [BitVec.toNat_ofNat]; omega

/-- PAY as the unit leaves it reads back as the payload. -/
theorem payBytes_write {s : State} {bs : List Byte} (h : bs.length < 2 ^ 32) :
    (List.range (BitVec.ofNat 32 bs.length).toNat).map ((s.pay.writeBytes 0 bs).read .pay) = bs := by
  rw [show (BitVec.ofNat 32 bs.length).toNat = bs.length by rw [BitVec.toNat_ofNat]; omega]
  exact map_read_writeBytes _ _ _

theorem toNat_ofNat32 {n : Nat} (h : n < 2 ^ 32) : (BitVec.ofNat 32 n).toNat = n := by
  rw [BitVec.toNat_ofNat]; omega

/-- ENCODE where every symbol has a code: CapacityFault, or the payload (43_bit_encode.md R141, R144). -/
theorem encode_coded {s : State} (h : ∀ b ∈ s.srcBytes, (tableGet s.ct b).len ≠ 0) :
    (s.cfg.payCap.toNat < byteCount (concatCodes s.ct s.srcBytes).length ∧
      encodeUnit s = .error (.raise .capacityPay 0)) ∨
    (byteCount (concatCodes s.ct s.srcBytes).length ≤ s.cfg.payCap.toNat ∧
      ∃ t, encodeUnit s = .ok t ∧
        t.payLen.toNat = byteCount (concatCodes s.ct s.srcBytes).length ∧
        t.pad.toNat = padCount (concatCodes s.ct s.srcBytes).length ∧
        bitsOf t.payBytes = concatCodes s.ct s.srcBytes ++ List.replicate t.pad.toNat false) := by
  obtain ⟨h1, h2⟩ := packBits_padded (concatCodes s.ct s.srcBytes) _ rfl
  unfold encodeUnit
  rw [codeBits_ok 0 h]
  dsimp only
  by_cases hc : byteCount (concatCodes s.ct s.srcBytes).length ≤ s.cfg.payCap.toNat
  · refine .inr ⟨hc, _, by rw [if_neg (by omega)], ?_, toNat_pad _, ?_⟩
    · dsimp only
      rw [h1]; exact toNat_ofNat32 (by have := s.cfg.payCap.isLt; omega)
    · rw [State.payBytes]
      dsimp only
      rw [payBytes_write (by rw [h1]; have := s.cfg.payCap.isLt; omega), h2, toNat_pad]
  · exact .inl ⟨by omega, by rw [if_pos (by omega)]⟩

end Sys2Proof.Laws
end

