-- ==== Sys2Proof/Laws/Layout.lean ====
section
/-! SUPPORT. The container as a byte sequence: FRAME writes it, PARSE reads it (30_encoding.md R80; 45_container.md R161,
R166). -/

namespace Sys2Proof.Laws

open Sys2Proof.Machine Sys2Proof.Safety

/-! ### FRAME -/

theorem codedEntries_eq (ct : Vector CtRec 256) :
    codedEntries ct = (symbols.filter fun b => (tableGet ct b).len != 0).map fun b => (b, tableGet ct b) := by
  simp only [codedEntries, tableList_eq, List.filter_map]
  rfl

theorem length_codedEntries (ct : Vector CtRec 256) : (codedEntries ct).length = (tableEntriesOf ct).length := by
  simp [codedEntries_eq, tableEntriesOf]

theorem tableBytes_eq (ct : Vector CtRec 256) : tableBytes ct = (tableEntriesOf ct).flatMap RawEntry.bytes := by
  simp only [tableBytes, codedEntries_eq, tableEntriesOf, List.flatMap_map]
  rfl

theorem length_tableBytes (ct : Vector CtRec 256) : (tableBytes ct).length = tableSize ct := by
  simp only [tableBytes, tableSize, List.length_flatMap]
  congr 1
  apply List.map_congr_left
  intro e _
  simp [entryBytes]; omega

/-- FRAME's bytes are the layout of the table, the padding count and the payload (45_container.md R161, R162). -/
theorem containerBytes_eq (magic : Vector Byte 4) (ct : Vector CtRec 256) (pad : BitVec 3) (payload : List Byte) :
    containerBytes magic ct pad payload = layout magic (tableEntriesOf ct) (pad.setWidth 8) payload := by
  simp only [containerBytes, layout, length_codedEntries, tableBytes_eq]

theorem length_containerBytes (magic : Vector Byte 4) (ct : Vector CtRec 256) (pad : BitVec 3) (payload : List Byte) :
    (containerBytes magic ct pad payload).length = 11 + tableSize ct + payload.length := by
  simp [containerBytes, length_tableBytes]; omega

theorem length_layout (magic : Vector Byte 4) (ct : Vector CtRec 256) (pad : BitVec 3) (payload : List Byte) :
    (layout magic (tableEntriesOf ct) (pad.setWidth 8) payload).length = 11 + tableSize ct + payload.length := by
  rw [← containerBytes_eq, length_containerBytes]

/-- FRAME: CapacityFault, or DST holds the layout (45_container.md R162, R163). -/
theorem frame_cases (s : State) :
    (s.cfg.dstCap.toNat < 11 + tableSize s.ct + s.payLen.toNat ∧ frameUnit s = .error (.raise .capacityDst 0)) ∨
    (11 + tableSize s.ct + s.payLen.toNat ≤ s.cfg.dstCap.toNat ∧ ∃ t, frameUnit s = .ok t ∧
      t.dstBytes = layout s.cfg.magic (tableEntriesOf s.ct) (s.pad.setWidth 8) s.payBytes) := by
  unfold frameUnit
  dsimp only
  by_cases h : s.cfg.dstCap.toNat < 11 + tableSize s.ct + s.payLen.toNat
  · exact .inl ⟨h, by rw [if_pos h]⟩
  · refine .inr ⟨by omega, _, by rw [if_neg h], ?_⟩
    have hl := length_containerBytes s.cfg.magic s.ct s.pad s.payBytes
    rw [length_payBytes] at hl
    rw [← containerBytes_eq, State.dstBytes]
    dsimp only
    rw [toNat_ofNat32 (by have := s.cfg.dstCap.isLt; omega), ← hl]
    exact map_read_writeBytes _ _ _

theorem byteCount_le (n : Nat) (h : n ≤ 255) : byteCount n ≤ 32 := by simp only [byteCount]; omega

/-- A table is at most 256 entries of at most 34 bytes. -/
theorem tableSize_le (ct : Vector CtRec 256) : tableSize ct ≤ 8704 := by
  have h : tableSize ct ≤ ((codedEntries ct).map fun e => 2 + byteCount e.2.len.toNat).length • 34 :=
    List.sum_le_card_nsmul _ _ fun x hx => by
      obtain ⟨e, -, rfl⟩ := List.mem_map.mp hx
      have := byteCount_le e.2.len.toNat (by have := e.2.len.isLt; omega)
      omega
  have h2 : (codedEntries ct).length ≤ 256 := by
    rw [codedEntries_eq, List.length_map]
    exact (List.length_filter_le _ _).trans length_symbols.le
  simp only [List.length_map, smul_eq_mul] at h
  omega

/-! ### The entries FRAME writes -/

theorem mem_tableEntriesOf {ct : Vector CtRec 256} {e : RawEntry} (h : e ∈ tableEntriesOf ct) :
    e.ok ∧ (tableGet ct e.sym).len ≠ 0 ∧ e.code = (tableGet ct e.sym).code := by
  simp only [tableEntriesOf, List.mem_map, List.mem_filter, mem_symbols, true_and, bne_iff_ne] at h
  obtain ⟨b, hb, rfl⟩ := h
  refine ⟨⟨hb, by simp⟩, hb, ?_⟩
  simp only [RawEntry.code]
  conv_lhs => rw [← length_code (tableGet ct b), take_bitsOf_packBits]

theorem tableEntriesOf_mem {ct : Vector CtRec 256} {b : Byte} (h : (tableGet ct b).len ≠ 0) :
    ∃ e ∈ tableEntriesOf ct, e.sym = b := by
  refine ⟨_, List.mem_map.mpr ⟨b, List.mem_filter.mpr ⟨mem_symbols b, by simpa using h⟩, rfl⟩, rfl⟩

theorem nodup_tableEntriesOf (ct : Vector CtRec 256) : ((tableEntriesOf ct).map (·.sym)).Nodup := by
  have : (tableEntriesOf ct).map (·.sym) = symbols.filter fun b => (tableGet ct b).len != 0 := by
    simp [tableEntriesOf, Function.comp_def]
  rw [this]
  exact nodup_symbols.filter _

/-! ### PARSE -/

/-- The parser after the magic and the entry count (45_container.md R166). -/
theorem parseContainer_header {magic : Vector Byte 4} {cap count : Nat} {src rest : List Byte}
    (h : src = magic.toList ++ beBytes 2 count ++ rest) (hc : count < 65536) :
    parseContainer magic cap src =
      match parseEntries count
        { p := 6, rest := rest, ct := emptyCodeTable, nodes := [NodeRec.internalOf 0 nil nil] } with
      | .error e => .error e
      | .ok st => parseTrailer cap st := by
  subst h
  have h4 : magic.toList.length = 4 := by simp
  have h1 : (magic.toList ++ beBytes 2 count ++ rest).take 4 = magic.toList := by
    rw [List.append_assoc]; exact List.take_left' h4
  have h2 : (magic.toList ++ beBytes 2 count ++ rest).drop 4 = beBytes 2 count ++ rest := by
    rw [List.append_assoc]; exact List.drop_left' h4
  have h3 : (beBytes 2 count ++ rest).take 2 = beBytes 2 count := by
    rw [List.take_left']; simp
  have h6 : (magic.toList ++ beBytes 2 count ++ rest).drop 6 = rest := by
    rw [List.drop_left']; simp
  unfold parseContainer
  rw [h1, h2, h3, h6, if_neg (by simp),
    if_neg (by simp only [List.length_append, length_beBytes]; omega), beNat_beBytes2 hc] <;> rfl

/-- The trailer of a container (45_container.md R167 checks 8 to 12). -/
theorem parseTrailer_layout {cap : Nat} {st : ParseState} {pad : Byte} {plen : Nat} {payload : List Byte}
    (h : st.rest = pad :: (beBytes 4 plen ++ payload)) (hp : plen < 2 ^ 32) :
    parseTrailer cap st =
      if pad.toNat > 7 then .error (.raise .badPadding st.p)
      else if payload.length ≠ plen then .error (.raise .lengthMismatch plen)
      else if pad.toNat > 8 * plen then .error (.raise .padExceedsPayload st.p)
      else if plen > cap then .error (.raise .capacityPay 0)
      else .ok { ct := st.ct, nodes := st.nodes, pad := pad, payload := payload } := by
  have h1 : (beBytes 4 plen ++ payload).take 4 = beBytes 4 plen := by rw [List.take_left']; simp
  have h2 : (beBytes 4 plen ++ payload).drop 4 = payload := by rw [List.drop_left']; simp
  have h3 : ¬ (beBytes 4 plen ++ payload).length < 4 := by simp
  simp only [parseTrailer, h, h1, h2, h3, if_false, beNat_beBytes4 hp]

/-- The entry loop over a list of well-formed, distinct, prefix-free entries. -/
theorem parseEntries_all {es : List RawEntry} {r : List Byte} (ho : ∀ e ∈ es, e.ok) (hn : (es.map (·.sym)).Nodup)
    (hf : PrefixFree (es.map (·.code))) (m : Nat) :
    ∃ st, parseEntries (es.length + m) { p := 6, rest := es.flatMap RawEntry.bytes ++ r, ct := emptyCodeTable, nodes := [NodeRec.internalOf 0 nil nil] } = parseEntries m st ∧
      st.rest = r ∧ ParseInv es st := by
  obtain ⟨st, h1, h2, h3⟩ := parseEntries_good (m := m) (parseInv_start (es.flatMap RawEntry.bytes ++ r)) rfl ho
    (by simpa using hn) (by simpa using hf)
  exact ⟨st, h1, h2, by simpa using h3⟩

/-- PARSE of a container with legal parts (45_container.md R166, R167). -/
theorem parseContainer_layout {magic : Vector Byte 4} {cap : Nat} {es : List RawEntry} {pad : Byte} {plen : Nat}
    {payload : List Byte} (ho : ∀ e ∈ es, e.ok) (hn : (es.map (·.sym)).Nodup) (hf : PrefixFree (es.map (·.code)))
    (hp : plen < 2 ^ 32) :
    ∃ st, ParseInv es st ∧
      parseContainer magic cap (magic.toList ++ beBytes 2 es.length ++ es.flatMap RawEntry.bytes ++ [pad] ++
        beBytes 4 plen ++ payload) =
      if pad.toNat > 7 then .error (.raise .badPadding st.p)
      else if payload.length ≠ plen then .error (.raise .lengthMismatch plen)
      else if pad.toNat > 8 * plen then .error (.raise .padExceedsPayload st.p)
      else if plen > cap then .error (.raise .capacityPay 0)
      else .ok { ct := st.ct, nodes := st.nodes, pad := pad, payload := payload } := by
  obtain ⟨st, h1, h2, h3⟩ := parseEntries_all (r := pad :: (beBytes 4 plen ++ payload)) ho hn hf 0
  have hl : es.length ≤ 256 := by have := nodup_length hn; simpa using this
  refine ⟨st, h3, ?_⟩
  rw [parseContainer_header (count := es.length)
    (rest := es.flatMap RawEntry.bytes ++ pad :: (beBytes 4 plen ++ payload)) (by simp) (by omega)]
  rw [Nat.add_zero] at h1
  rw [h1]
  exact parseTrailer_layout h2 hp

theorem toNat_setWidth3 {b : Byte} (h : b.toNat ≤ 7) : (b.setWidth 3).toNat = b.toNat := by
  rw [BitVec.toNat_setWidth]; omega

/-- PARSE completes on a container whose parts are legal; what it leaves. -/
theorem parse_layout {s : State} {es : List RawEntry} {pad : Byte} {payload : List Byte}
    (h : s.srcBytes = layout s.cfg.magic es pad payload) (ho : ∀ e ∈ es, e.ok) (hn : (es.map (·.sym)).Nodup)
    (hf : PrefixFree (es.map (·.code))) (hpad : pad.toNat ≤ 7) (he : payload = [] → pad = 0)
    (hc : payload.length ≤ s.cfg.payCap.toNat) :
    ∃ t tr st, parseUnit s = .ok t ∧ TreeInv t ∧ t.root = 0 ∧ TreeOf t tr ∧ ParseInv es st ∧ t.ct = st.ct ∧
      tr.paths.Perm (es.map fun e => (e.sym, e.code)) ∧ t.payBytes = payload ∧ t.payLen.toNat = payload.length ∧
      t.pad.toNat = pad.toNat := by
  have hlt : payload.length < 2 ^ 32 := by have := s.cfg.payCap.isLt; omega
  obtain ⟨st, hi, hp⟩ := parseContainer_layout (magic := s.cfg.magic) (cap := s.cfg.payCap.toNat) (pad := pad)
    (payload := payload) ho hn hf hlt
  have hpe : ¬ pad.toNat > 8 * payload.length := by
    intro hgt
    cases payload with
    | nil => rw [he rfl] at hgt; simp at hgt
    | cons _ _ => simp only [List.length_cons] at hgt; omega
  rw [← layout, ← h, if_neg (by omega), if_neg (by simp), if_neg hpe, if_neg (by omega)] at hp
  have hpi : ParsedInv es s.cfg.payCap.toNat { ct := st.ct, nodes := st.nodes, pad := pad, payload := payload } :=
    ⟨⟨st, hi, rfl, rfl⟩, hpad, by dsimp only; omega, hc⟩
  unfold parseUnit
  rw [hp]
  obtain ⟨ht, tr, h1, h2⟩ := parsed_tree (t := { s with
      ct := st.ct, node := st.nodes, root := 0, nodeCnt := BitVec.ofNat 17 st.nodes.length
      pay := s.pay.writeBytes 0 payload, payLen := BitVec.ofNat 32 payload.length, pad := pad.setWidth 3 })
    hpi rfl rfl rfl
  exact ⟨_, tr, st, rfl, ht, rfl, h1, hi, rfl, h2, payBytes_write hlt, toNat_ofNat32 hlt, toNat_setWidth3 hpad⟩

/-- The table after PARSE holds exactly the entries' codes. -/
theorem parseInv_hasCode {es : List RawEntry} {st : ParseState} (h : ParseInv es st) (b : Byte) (c : BitString) :
    HasCode st.ct b c ↔ (b, c) ∈ es.map fun e => (e.sym, e.code) := by
  constructor
  · rintro ⟨h1, h2⟩
    obtain ⟨e, he, rfl⟩ := List.mem_map.mp ((parseInv_coded h b).mp h1)
    rw [h.table e he, code_ofCode (rawCode_le (h.ok e he))] at h2
    exact List.mem_map.mpr ⟨e, he, by rw [h2]⟩
  · intro hm
    obtain ⟨e, he, heq⟩ := List.mem_map.mp hm
    simp only [Prod.mk.injEq] at heq
    obtain ⟨rfl, rfl⟩ := heq
    exact ⟨(parseInv_coded h _).mpr (List.mem_map.mpr ⟨e, he, rfl⟩), by
      rw [h.table e he, code_ofCode (rawCode_le (h.ok e he))]⟩

/-! ### DECODE -/

/-- DECODE on a tree never stops the model (44_bit_decode.md R151). -/
theorem decode_cases {s : State} (h : TreeInv s) :
    (∃ t, decodeUnit s = .ok t) ∨ ∃ c i, decodeUnit s = .error (.raise c i) ∧
      (c = .truncatedStream ∨ c = .badPath ∨ c = .capacityDst ∨ c = .padExceedsPayload ∨ c = .noTree) := by
  unfold decodeUnit
  split
  · exact .inr ⟨_, _, rfl, by simp⟩
  · rename_i hr
    split
    · exact .inr ⟨_, _, rfl, by simp⟩
    · obtain ⟨tr, hn, -, -, xs, hx, -⟩ := h.tree hr
      rcases decodeWalk_outcome (cap := s.cfg.dstCap.toNat) hx hn s.payloadBits hx hn 0 0 [] (by simp) with
        ⟨o, ho, -⟩ | ⟨c, k, ho, hc⟩
      · rw [ho]; exact .inl ⟨_, rfl⟩
      · rw [ho]
        refine .inr ⟨c, k, rfl, ?_⟩
        rcases hc with h | h | h <;> simp [h]

/-- DECODE of whole codes (44_bit_decode.md R151, R156). -/
theorem decode_paths {s : State} {tr : HTree} {es : List (Byte × BitString)} (hr : s.root ≠ nil) (h : TreeOf s tr)
    (hp : s.pad.toNat ≤ 8 * s.payLen.toNat) (he : ∀ e ∈ es, e ∈ tr.paths)
    (hb : s.payloadBits = es.flatMap (·.2)) (hc : es.length ≤ s.cfg.dstCap.toNat) :
    ∃ t, decodeUnit s = .ok t ∧ t.dstBytes = es.map (·.1) ∧ t.dstLen.toNat = es.length := by
  obtain ⟨hn, -, -, xs, hx, -⟩ := h
  have hw := decodeWalk_paths (cap := s.cfg.dstCap.toNat) hx hn he [] 0 [] (by simpa using hc)
  simp only [List.append_nil, ← hb, Nat.zero_add, List.nil_append, decodeWalk, ne_eq, not_true_eq_false, if_false] at hw
  unfold decodeUnit
  rw [if_neg hr, if_neg (by omega), hw]
  have hlt : (es.map (·.1)).length < 2 ^ 32 := by
    rw [List.length_map]; have := s.cfg.dstCap.isLt; omega
  refine ⟨_, rfl, ?_, ?_⟩
  · rw [State.dstBytes]
    dsimp only
    rw [toNat_ofNat32 hlt]
    exact map_read_writeBytes _ _ _
  · dsimp only
    rw [toNat_ofNat32 hlt, List.length_map]

end Sys2Proof.Laws
end

