-- ==== Sys2Proof/Laws/PerInstr.lean ====
section
/-! SUPPORT. One lemma per command about its encoding (30_encoding.md R70, R72). -/

namespace Sys2Proof.Laws.Encoding

/-- What 30_encoding.md R70 says of every command word: the field ZERO is 0000, the field OPC is the command's row of R72,
and the word is no reserved one. A command has no operand that could make it ill-formed. -/
def Statement (i : Instr) : Prop :=
  CmdWord.zero (encode i) = 0 ∧ CmdWord.opc (encode i) = encodeOpc i ∧ CmdWord.wellFormed (encode i) = true ∧
    i.wellFormed = true

theorem clr : Statement .clr := by unfold Statement; decide

theorem freq : Statement .freq := by unfold Statement; decide

theorem build : Statement .build := by unfold Statement; decide

theorem gencode : Statement .gencode := by unfold Statement; decide

theorem encode : Statement .encode := by unfold Statement; decide

theorem frame : Statement .frame := by unfold Statement; decide

theorem parse : Statement .parse := by unfold Statement; decide

theorem decode : Statement .decode := by unfold Statement; decide

theorem compress : Statement .compress := by unfold Statement; decide

theorem decompress : Statement .decompress := by unfold Statement; decide

end Sys2Proof.Laws.Encoding
end

