-- ==== Sys2Proof/Laws/Step.lean ====
section
/-! SUPPORT. Everything a step can do, said once. -/

namespace Sys2Proof.Laws

open Sys2Proof.Machine Sys2Proof.Safety

/-! ### The host's moves -/

/-- What a host move other than a reset and a CMD write can change (70_reset_and_hazards.md R241). -/
structure MoveFrame (s t : State) : Prop where
  status : t.status = s.status
  err : t.err = s.err
  errInfo : t.errInfo = s.errInfo
  dstLen : t.dstLen = s.dstLen
  root : t.root = s.root
  nodeCnt : t.nodeCnt = s.nodeCnt
  node : t.node = s.node
  dst : t.dst = s.dst
  cfg : t.cfg = s.cfg
  host : t.host = s.host
  srcLen : t.srcLen = s.srcLen ∨ t.srcLen.toNat ≤ s.cfg.srcCap.toNat
  payLen : t.payLen = s.payLen ∨ t.payLen.toNat ≤ s.cfg.payCap.toNat
  src : t.src = s.src ∨ ∃ a v, a < s.cfg.srcCap.toNat ∧ t.src = s.src.write a v
  pay : t.pay = s.pay ∨ ∃ a v, a < s.cfg.payCap.toNat ∧ t.pay = s.pay.write a v

theorem moveFrame_reply (s : State) (r : HostReply) (d : Nat) : MoveFrame s { s with reply := r, draws := d } := by
  constructor <;> simp

theorem writeRegister_frame (s : State) (n : BitVec 4) (v : Word) : MoveFrame s (writeRegister s n v) := by
  unfold writeRegister
  split
  · split
    · rename_i h; constructor <;> simp [h]
    · constructor <;> simp
  · split
    · rename_i h; constructor <;> simp [h]
    · constructor <;> simp
  · split <;> constructor <;> simp
  · constructor <;> simp

theorem readWindow_reply (s : State) (a : WindowAddr) : ∃ r d, readWindow s a = { s with reply := r, draws := d } := by
  cases a with
  | src off => simp only [readWindow]; split <;> exact ⟨_, _, rfl⟩
  | dst off => simp only [readWindow]; split <;> exact ⟨_, _, rfl⟩
  | pay off => simp only [readWindow]; split <;> exact ⟨_, _, rfl⟩
  | ft b => exact ⟨_, _, rfl⟩
  | ct b => exact ⟨_, _, rfl⟩
  | node i =>
    simp only [readWindow]
    split
    · split <;> exact ⟨_, _, rfl⟩
    · exact ⟨_, _, rfl⟩

theorem writeWindow_frame (s : State) (w : WindowWrite) : MoveFrame s (writeWindow s w) := by
  cases w with
  | src off v =>
    simp only [writeWindow]
    split
    · rename_i h; constructor <;> simp; exact .inr ⟨_, h, _, rfl⟩
    · constructor <;> simp
  | pay off v =>
    simp only [writeWindow]
    split
    · rename_i h; constructor <;> simp; exact .inr ⟨_, h, _, rfl⟩
    · constructor <;> simp
  | dst off v => constructor <;> simp [writeWindow]
  | ft b v => constructor <;> simp [writeWindow]
  | ct b v => constructor <;> simp [writeWindow]
  | node i v => constructor <;> simp [writeWindow]

theorem hostMove_frame (s : State) {m : HostMove} (h : m ≠ .reset) : MoveFrame s (hostMove s m) := by
  cases m with
  | reset => exact absurd rfl h
  | readReg n => exact moveFrame_reply s _ _
  | writeReg n v => exact writeRegister_frame s n v
  | readWindow a =>
    obtain ⟨r, d, e⟩ := readWindow_reply s a
    rw [show hostMove s (.readWindow a) = readWindow s a from rfl, e]
    exact moveFrame_reply s r d
  | writeWindow w => exact writeWindow_frame s w

/-! ### The step -/

theorem step_idle {s : State} (h : s.host = []) : step s = .next s := by simp [step, fetchMove, h]

/-- A step that takes a CMD write runs the command word. -/
theorem step_command {s : State} {v : Word} {rest : List HostMove} (h : s.host = .writeReg 0 v :: rest) :
    step s = command (cmdByte v) (s.taken rest) := by simp [step, fetchMove, h]

/-- A step that takes any other move carries it out. -/
theorem step_move {s : State} {m : HostMove} {rest : List HostMove} (h : s.host = m :: rest)
    (hm : ∀ v, m ≠ .writeReg 0 v) : step s = .next (hostMove (s.taken rest) m) := by
  cases m with
  | writeReg n v =>
    have hn : n ≠ 0 := fun e => hm v (by rw [e])
    simp only [step, fetchMove, h, hn, if_false]
  | reset => simp [step, fetchMove, h]
  | readReg n => simp [step, fetchMove, h]
  | readWindow a => simp [step, fetchMove, h]
  | writeWindow w => simp [step, fetchMove, h]

/-- The three kinds of a step: idle, a command, another move. -/
theorem step_cases (s : State) :
    (s.host = [] ∧ step s = .next s) ∨
    (∃ v rest, s.host = .writeReg 0 v :: rest ∧ step s = command (cmdByte v) (s.taken rest)) ∨
    (∃ m rest, s.host = m :: rest ∧ (∀ v, m ≠ .writeReg 0 v) ∧ step s = .next (hostMove (s.taken rest) m)) := by
  rcases h : s.host with _ | ⟨m, rest⟩
  · exact .inl ⟨rfl, step_idle h⟩
  · by_cases hm : ∃ v, m = .writeReg 0 v
    · obtain ⟨v, rfl⟩ := hm
      exact .inr (.inl ⟨v, rest, rfl, step_command h⟩)
    · push Not at hm
      exact .inr (.inr ⟨m, rest, rfl, hm, step_move h hm⟩)

/-! ### The commands -/

/-- The units a command runs. -/
def unitsOf (i : Instr) (s : State) : List UnitId :=
  match i with
  | .clr => []
  | .freq => [.freq]
  | .build => [.build]
  | .gencode => [.gencode]
  | .encode => [.encode]
  | .frame => [.frame]
  | .parse => [.parse]
  | .decode => [.decode]
  | .compress => compressUnits s
  | .decompress => [.parse, .decode]

/-- The state the first unit of a command starts from: what step 1 of the macro commands and CLR clear. -/
def startOf (i : Instr) (s : State) : State :=
  match i with
  | .clr => s.cleared
  | .compress => s.clearDerived
  | .decompress => s.clearDerived
  | .freq => s
  | .build => s
  | .gencode => s
  | .encode => s
  | .frame => s
  | .parse => s
  | .decode => s

/-- Every command is the protocol around its units. -/
theorem exec_eq (i : Instr) (s : State) :
    exec i s = protocol (encode i) (fun t => runUnits (unitsOf i t) (startOf i t)) s := by
  cases i <;> rfl

theorem encode_ne_clr {i : Instr} (h : i ≠ .clr) : encode i ≠ encode .clr := by cases i <;> first | exact absurd rfl h | decide

/-- Without a recorded fault, and for CLR always, a command is its units run to the end. -/
theorem exec_runs {i : Instr} {s : State} (h : s.status.err = false ∨ i = .clr) :
    exec i s = finish (encode i) (runUnits (unitsOf i (s.setDone false)) (startOf i (s.setDone false))) := by
  rw [exec_eq, protocol, if_neg]
  rintro ⟨h1, h2⟩
  rcases h with h | rfl
  · rw [h] at h1; cases h1
  · exact h2 rfl

theorem exec_ignored {i : Instr} {s : State} (h : s.status.err = true) (hi : i ≠ .clr) : exec i s = .next s := by
  rw [exec_eq]; exact protocol_ignored h (encode_ne_clr hi)

/-- A word that decodes to a command is the command's word. -/
theorem encode_of_decode {w : Byte} {i : Instr} (h : decodeWord w = .ok i) : w = encode i := by
  have key : ∀ w : Byte, (match decodeWord w with | .ok i => w == encode i | .error _ => true) = true := by
    decide +kernel
  have := key w
  rw [h] at this
  simpa using this

/-- A reserved word is no command's word. -/
theorem reserved_ne {w : Byte} {e : IllegalWord} (h : decodeWord w = .error e) (i : Instr) : w ≠ encode i := by
  rintro rfl
  cases i <;> cases h

/-- A reserved word: ignored while a fault is recorded, IllegalCommand otherwise. -/
theorem execIllegal_eq (w : Byte) (s : State) (hw : w ≠ encode .clr) :
    execIllegal w s = .next (if s.status.err = true then s
      else (s.setDone false).takeFault w none .illegalCommand w.toNat) := by
  unfold execIllegal protocol
  by_cases h : s.status.err = true <;> simp [h, hw, finish]

/-- Everything a one-unit command does without a recorded fault. -/
theorem exec_unit {i : Instr} {u : UnitId} {s : State} (hi : unitsOf i = fun _ => [u]) (hs : startOf i = fun t => t)
    (he : s.status.err = false) :
    exec i s = match u.run (s.setDone false) with
      | .ok t => .next (t.setDone true)
      | .error (.raise c k) => .next ((s.setDone false).takeFault (encode i) (some u) c k)
      | .error (.stuck r) => .fault r := by
  rw [exec_runs (.inl he), hi, hs, runUnits_single]
  rcases u.run (s.setDone false) with (⟨c, k⟩ | r) | t <;> rfl

theorem exec_unit_ok {i : Instr} {u : UnitId} {s t : State} (hi : unitsOf i = fun _ => [u])
    (hs : startOf i = fun t => t) (he : s.status.err = false) (h : u.run (s.setDone false) = .ok t) :
    exec i s = .next (t.setDone true) := by rw [exec_unit hi hs he, h]

theorem exec_unit_raise {i : Instr} {u : UnitId} {s : State} {c : FaultCause} {k : Nat}
    (hi : unitsOf i = fun _ => [u]) (hs : startOf i = fun t => t) (he : s.status.err = false)
    (h : u.run (s.setDone false) = .error (.raise c k)) :
    exec i s = .next ((s.setDone false).takeFault (encode i) (some u) c k) := by rw [exec_unit hi hs he, h]

/-! ### What every unit keeps -/

theorem run_treeInv {u : UnitId} {s t : State} (hs : TreeInv s) (h : u.run s = .ok t) : TreeInv t := by
  have hf := run_frame h
  by_cases hb : u = .build
  · subst hb
    rcases build_cases s with ⟨-, hb⟩ | ⟨t', tr, hb, ht, -⟩
    · rw [show UnitId.run .build s = buildUnit s from rfl, hb] at h; cases h
    · rw [show UnitId.run .build s = buildUnit s from rfl, hb] at h; cases h; exact ht
  · by_cases hp : u = .parse
    · subst hp
      rcases parse_cases s with ⟨c, i, hp, -⟩ | ⟨es, c, t', hp, -, ht, -⟩
      · rw [show UnitId.run .parse s = parseUnit s from rfl, hp] at h; cases h
      · rw [show UnitId.run .parse s = parseUnit s from rfl, hp] at h; cases h; exact ht
    · obtain ⟨h1, h2, h3⟩ := hf.tree hb hp
      exact treeInv_congr hs h1 h2 h3

theorem encode_ne_stuck (ct : Vector CtRec 256) (bs : List Byte) (i : Nat) (r : Fault) :
    codeBits ct bs i ≠ .error (.stuck r) := by
  induction bs generalizing i with
  | nil => simp [codeBits]
  | cons b bs ih =>
    simp only [codeBits]
    split
    · simp
    · split
      · rename_i e he
        intro h
        exact ih (i + 1) (he.trans (by rw [Except.error.inj h]))
      · simp

/-- On a tree no unit stops the model. -/
theorem run_not_stuck {u : UnitId} {s : State} (hs : TreeInv s) (r : Fault) : u.run s ≠ .error (.stuck r) := by
  cases u with
  | freq => simp [UnitId.run]
  | build =>
    rcases build_cases s with ⟨-, hb⟩ | ⟨t', tr, hb, -⟩ <;>
      rw [show UnitId.run .build s = buildUnit s from rfl, hb] <;> simp
  | gencode =>
    rw [show UnitId.run .gencode s = gencodeUnit s from rfl]
    by_cases hr : s.root = nil
    · simp [gencodeUnit, hr]
    · obtain ⟨tr, ht⟩ := hs.tree hr
      rw [gencode_tree hr ht]; simp
  | encode =>
    simp only [UnitId.run, encodeUnit]
    split
    · rename_i e he
      intro h
      exact encode_ne_stuck _ _ _ r (he.trans (by rw [Except.error.inj h]))
    · split <;> simp
  | frame => simp only [UnitId.run, frameUnit]; split <;> simp
  | parse =>
    rcases parse_cases s with ⟨c, i, hp, -⟩ | ⟨es, c, t', hp, -⟩ <;>
      rw [show UnitId.run .parse s = parseUnit s from rfl, hp] <;> simp
  | decode =>
    rcases decode_cases hs with ⟨t, h⟩ | ⟨c, i, h, -⟩ <;>
      rw [show UnitId.run .decode s = decodeUnit s from rfl, h] <;> simp

end Sys2Proof.Laws
end

