-- ==== Sys2Proof/Laws/Run.lean ====
section
/-! SUPPORT. Running the units of a command: what they keep, and how a command that runs one unit ends. -/

namespace Sys2Proof.Laws

open Sys2Proof.Machine Sys2Proof.Safety

/-- While a fault is recorded every word but CLR's is ignored (46_macro_control.md R184). -/
theorem command_ignored (s : State) (w : Byte) (he : s.status.err = true) (hw : w ≠ 0) : command w s = .next s := by
  unfold command
  cases h : decodeWord w with
  | error e => simp only [execIllegal_eq w s (reserved_ne h _), he, if_true]
  | ok i =>
    have := encode_of_decode h
    exact exec_ignored he (by rintro rfl; exact hw this)

/-- The units of a command touch neither DONE nor ERR. -/
theorem runUnits_flags (us : List UnitId) (s : State) : match runUnits us s with
    | .ended t => t.status.done = s.status.done ∧ t.status.err = s.status.err
    | .raised t u c i => t.status.done = s.status.done ∧ t.status.err = s.status.err
    | .stuck r => True := by
  have := runUnits_induct (fun t => t.status.done = s.status.done ∧ t.status.err = s.status.err) (us := us) (s := s)
    (fun u _ a b ha hr => ⟨(run_frame hr).done.trans ha.1, (run_frame hr).errFlag.trans ha.2⟩) ⟨rfl, rfl⟩
  revert this; cases runUnits us s <;> simp <;> tauto

/-- The three things a one-unit command can do: be ignored, end, record a fault. -/
theorem exec_unit_cases : ∀ (i : Instr) (u : UnitId) (s t : State), i ≠ .clr → unitsOf i = (fun _ => [u]) →
    startOf i = (fun t => t) →
    exec i s = .next t → (s.status.err = true ∧ t = s) ∨ (s.status.err = false ∧ ∃ r, u.run
        (s.setDone false) = .ok r ∧ t = r.setDone true) ∨
      (s.status.err = false ∧ ∃ c k, u.run (s.setDone false) = .error (.raise c k) ∧ t =
          (s.setDone false).takeFault (encode i) (some u) c k) := by
    intro i u s t hi hu hs h
    by_cases he : s.status.err = true
    · rw [exec_ignored he hi] at h; cases h; exact .inl ⟨he, rfl⟩
    · have he' : s.status.err = false := by simpa using he
      rw [exec_unit hu hs he'] at h
      split at h
      · rename_i hr; cases h; exact .inr (.inl ⟨he', _, hr, rfl⟩)
      · rename_i hr; cases h; exact .inr (.inr ⟨he', _, _, hr, rfl⟩)
      · cases h

/-- What no unit changes: the input, the parameters, the recorded fault, the model's own fields. -/
def InFrame (s t : State) : Prop := t.src = s.src ∧ t.srcLen = s.srcLen ∧ t.cfg = s.cfg ∧ t.host = s.host ∧
    t.reply = s.reply ∧ t.draws = s.draws ∧ t.err = s.err ∧ t.errInfo = s.errInfo ∧ t.status.err = s.status.err

theorem inFrame_of_unit {u s t} (h : UnitFrame u s t) : InFrame s t := ⟨h.src, h.srcLen, h.cfg, h.host, h.reply,
    h.draws, h.err, h.errInfo, h.errFlag⟩

theorem inFrame_trans {s t u} (h : InFrame s t) (h' : InFrame t u) : InFrame s u := by
  unfold InFrame at *; simp_all

theorem units_frame (us : List UnitId) (s : State) : match runUnits us s with
    | .ended t => InFrame s t
    | .raised t _ _ _ => InFrame s t
    | .stuck _ => True := by
  have := runUnits_induct (fun t => InFrame s t) (us := us) (s := s)
    (fun u _ a b ha hr => inFrame_trans ha (inFrame_of_unit (run_frame hr))) (by simp [InFrame])
  revert this; cases runUnits us s <;> simp; tauto

theorem start_frame {i s} (hi : i ≠ .clr) : InFrame s (startOf i (s.setDone false)) := by
  cases i <;> first | exact absurd rfl hi | simp [InFrame, startOf, State.setDone, State.clearDerived]

/-- A parser that raises makes PARSE fault. -/
theorem parse_raise {s : State} {c k} (he : s.status.err = false) (h :
    parseContainer s.cfg.magic s.cfg.payCap.toNat s.srcBytes = .error (.raise c k)) :
   FaultsWith .parse s c k := by
  have : parseUnit (s.setDone false) = .error (.raise c k) := by
    unfold parseUnit
    rw [show (s.setDone false).cfg = s.cfg from rfl, show (s.setDone false).srcBytes = s.srcBytes from rfl, h]
  exact ⟨_, exec_unit_raise (i := .parse) (u := .parse) rfl rfl he this, rfl, rfl, rfl, rfl⟩

/-- A tree walk that raises makes DECODE fault. -/
theorem decode_raise {s : State} {c k} (he : s.status.err = false) (h : s.root ≠ nil) (hp :
    s.pad.toNat ≤ 8 * s.payLen.toNat)
   (hw : decodeWalk s.node s.root s.cfg.dstCap.toNat s.payloadBits s.root 0 0 [] = .error (.raise c k)) :
   ∃ t, exec .decode s = .next t ∧ Faulted t (encode .decode) c k ∧ t.dstLen = 0 := by
  have hx' : exec .decode s = _ := exec_unit (u := .decode) rfl rfl he
  have : decodeUnit (s.setDone false) = .error (.raise c k) := by
    unfold decodeUnit
    rw [if_neg (show ¬ (s.setDone false).root = nil from h), if_neg (show ¬ (s.setDone false).pad.toNat > 8 *
        (s.setDone false).payLen.toNat from not_lt.mpr hp)]
    change (match decodeWalk s.node s.root s.cfg.dstCap.toNat s.payloadBits s.root 0 0 [] with | .error e => _ | .ok o => _) = _
    rw [hw]
  rw [show UnitId.run .decode (s.setDone false) = decodeUnit (s.setDone false) from rfl, this] at hx'
  exact ⟨_, hx', ⟨rfl, rfl, rfl, rfl⟩, rfl⟩

/-- No unit reads or writes DONE. -/
theorem run_setDone (u : UnitId) (s : State) (d : Bool) : u.run (s.setDone d) = match u.run s with
   | .ok t => .ok (t.setDone d) | .error e => .error e := by
  cases u with
  | freq => rfl
  | build => 
    simp only [UnitId.run, buildUnit]
    rw [show (s.setDone d).ft = s.ft from rfl]
    rcases buildTree (tableEntries s.ft) with e | ⟨n, r⟩ <;> rfl
  | gencode =>
    simp only [UnitId.run, gencodeUnit]
    by_cases hr : s.root = nil
    · rw [if_pos (show (s.setDone d).root = nil from hr), if_pos hr]
    · rw [if_neg (show ¬ (s.setDone d).root = nil from hr), if_neg hr]
      rw [show (s.setDone d).node = s.node from rfl, show (s.setDone d).root = s.root from rfl]
      cases walk s.node maxLevels s.root.toNat [] <;> rfl
  | encode =>
    simp only [UnitId.run, encodeUnit]
    rw [show (s.setDone d).ct = s.ct from rfl, show (s.setDone d).srcBytes = s.srcBytes from rfl, show
        (s.setDone d).cfg = s.cfg from rfl]
    cases codeBits s.ct s.srcBytes 0 with
    | error e => rfl
    | ok b => simp only []; split <;> rfl
  | frame =>
    simp only [UnitId.run, frameUnit]
    rw [show (s.setDone d).ct = s.ct from rfl, show (s.setDone d).payLen = s.payLen from rfl, show
        (s.setDone d).cfg = s.cfg from rfl]
    split <;> rfl
  | parse =>
    simp only [UnitId.run, parseUnit]
    rw [show (s.setDone d).srcBytes = s.srcBytes from rfl, show (s.setDone d).cfg = s.cfg from rfl]
    cases parseContainer s.cfg.magic s.cfg.payCap.toNat s.srcBytes <;> rfl
  | decode =>
    simp only [UnitId.run, decodeUnit]
    by_cases hr : s.root = nil
    · rw [if_pos (show (s.setDone d).root = nil from hr), if_pos hr]
    · rw [if_neg (show ¬ (s.setDone d).root = nil from hr), if_neg hr]
      by_cases hp : s.pad.toNat > 8 * s.payLen.toNat
      · rw [if_pos (show (s.setDone d).pad.toNat > 8 * (s.setDone d).payLen.toNat from hp), if_pos hp]
      · rw [if_neg (show ¬ (s.setDone d).pad.toNat > 8 * (s.setDone d).payLen.toNat from hp), if_neg hp]
        rw [show (s.setDone d).node = s.node from rfl, show (s.setDone d).root = s.root from rfl, show
            (s.setDone d).cfg = s.cfg from rfl, show (s.setDone d).payloadBits = s.payloadBits from rfl]
        cases decodeWalk s.node s.root s.cfg.dstCap.toNat s.payloadBits s.root 0 0 [] <;> rfl

theorem setDone_setDone (s : State) (a b : Bool) : (s.setDone a).setDone b = s.setDone b := rfl

theorem setDone_self {s : State} (b : Bool) (h : s.status.done = b) : s.setDone b = s := by
  cases s; rename_i st _ _ _ _ _ _ _ _ _ _ _ _ _ _ _ _ _ _; cases st; simp only at h; subst h; rfl

theorem run_ok_setDone {u : UnitId} {s t : State} (h : u.run s = .ok t) (d : Bool) : u.run (s.setDone d) = .ok
    (t.setDone d) := by
  rw [run_setDone, h]

/-- A unit command on a state that differs in DONE only. -/
theorem exec_unit_setDone {i : Instr} {u : UnitId} {s t : State} (hi : unitsOf i = fun _ => [u]) (hs :
    startOf i = fun t => t) (he : s.status.err = false)
    (hd : s.status.done = false) (h : u.run s = .ok t) (d : Bool) : exec i (s.setDone d) = .next (t.setDone true) := by
  refine exec_unit_ok hi hs he ?_
  rw [setDone_setDone, setDone_self _ hd]; exact h

/-- Fault entry keeps the tree a tree. -/
theorem takeFault_treeInv {s : State} (h : TreeInv s) (op u c k) : TreeInv (s.takeFault op u c k) := by
  cases u with
  | none => exact treeInv_congr h rfl rfl rfl
  | some u =>
    cases u <;> first | exact treeInv_none rfl rfl rfl | exact treeInv_congr h rfl rfl rfl

/-- So does what the macro commands and CLR clear. -/
theorem startOf_treeInv {s : State} (i : Instr) (h : TreeInv s) : TreeInv (startOf i (s.setDone false)) := by
  cases i <;> first | exact treeInv_none rfl rfl rfl | exact treeInv_congr h rfl rfl rfl

/-- The part of `RegInv` every unit keeps. -/
structure MemInv (s : State) : Prop where
  srcWf : Memory.wf s.src.cells
  dstWf : Memory.wf s.dst.cells
  payWf : Memory.wf s.pay.cells
  srcRoom : Memory.below s.src.cells s.cfg.srcCap.toNat
  dstRoom : Memory.below s.dst.cells s.cfg.dstCap.toNat
  payRoom : Memory.below s.pay.cells s.cfg.payCap.toNat
  srcLen : s.srcLen.toNat ≤ s.cfg.srcCap.toNat
  dstLen : s.dstLen.toNat ≤ s.cfg.dstCap.toNat
  payLen : s.payLen.toNat ≤ s.cfg.payCap.toNat

theorem memInv_of_regInv {s} (h : RegInv s) : MemInv s := ⟨h.1, h.2, h.3, h.4, h.5, h.6, h.7, h.8, h.9⟩

/-- Every unit that ends keeps the memories canonical and the lengths within the capacities. -/
theorem run_memInv {u : UnitId} {s t : State} (h : MemInv s) (hr : u.run s = .ok t) : MemInv t := by
  have ofNat_le : ∀ {n c : Nat}, n ≤ c → (BitVec.ofNat 32 n).toNat ≤ c := fun h => (Nat.mod_le _ _).trans h
  cases u with
  | freq => cases hr; exact ⟨h.1, h.2, h.3, h.4, h.5, h.6, h.7, h.8, h.9⟩
  | build => obtain ⟨n, r, -, rfl⟩ := build_ok hr; exact ⟨h.1, h.2, h.3, h.4, h.5, h.6, h.7, h.8, h.9⟩
  | gencode => obtain ⟨-, n, -, rfl⟩ := gencode_ok hr; exact ⟨h.1, h.2, h.3, h.4, h.5, h.6, h.7, h.8, h.9⟩
  | encode => 
    obtain ⟨n, -, hl, rfl⟩ := encode_ok hr
    exact ⟨h.1, h.2, wf_writeBytes h.3 _ _, h.4, h.5, below_writeBytes h.6 _ _ (by omega), h.7, h.8, ofNat_le hl⟩
  | frame =>
    obtain ⟨hl, rfl⟩ := frame_ok hr
    exact ⟨h.1, wf_writeBytes List.Pairwise.nil _ _, h.3, h.4, below_writeBytes (by simp [Memory.below]) _ _
        (by rw [length_containerBytes, length_payBytes]; dsimp only; omega), h.6, h.7, ofNat_le hl, h.9⟩
  | parse => 
    rcases parse_cases s with ⟨c, i, hp, -⟩ | ⟨es, c, t', hp, hpi, -, -, rfl⟩
    · rw [show UnitId.run .parse s = parseUnit s from rfl, hp] at hr; cases hr
    · rw [show UnitId.run .parse s = parseUnit s from rfl, hp] at hr; cases hr
      exact ⟨h.1, h.2, wf_writeBytes h.3 _ _, h.4, h.5, below_writeBytes h.6 _ _ (by have := hpi.room; omega), h.7,
          h.8, ofNat_le hpi.room⟩
  | decode => 
    obtain ⟨-, -, o, ho, rfl⟩ := decode_ok hr
    have hlen : ∀ bits cur j st out o, out.length ≤ s.cfg.dstCap.toNat →
        decodeWalk s.node s.root s.cfg.dstCap.toNat bits cur j st out = .ok o → o.length ≤ s.cfg.dstCap.toNat := by
      intro bits
      induction bits with
      | nil => intro cur j st out o hl h; simp only [decodeWalk] at h; split at h <;> cases h; exact hl
      | cons b bs ih =>
        intro cur j st out o hl h; simp only [decodeWalk] at h
        split at h
        · cases h
        · split at h
          · cases h
          · split at h
            · cases h
            · split at h
              · split at h
                · cases h
                · exact ih _ _ _ _ _ (by simp; omega) h
              · exact ih _ _ _ _ _ hl h
    have hl := hlen _ _ _ _ _ _ (by simp) ho
    exact ⟨h.1, wf_writeBytes List.Pairwise.nil _ _, h.3, h.4, below_writeBytes (by simp [Memory.below]) _ _
        (by dsimp only; omega), h.6, h.7, ofNat_le hl, h.9⟩

/-- So does fault entry. -/
theorem takeFault_memInv {s : State} (h : MemInv s) (op u c k) : MemInv (s.takeFault op u c k) := by
  cases u with
  | none => exact ⟨h.1, h.2, h.3, h.4, h.5, h.6, h.7, h.8, h.9⟩
  | some u =>
    cases u
    · exact ⟨h.1, h.2, h.3, h.4, h.5, h.6, h.7, h.8, h.9⟩
    · exact ⟨h.1, h.2, h.3, h.4, h.5, h.6, h.7, h.8, h.9⟩
    · exact ⟨h.1, h.2, h.3, h.4, h.5, h.6, h.7, h.8, h.9⟩
    · exact ⟨h.1, h.2, List.Pairwise.nil, h.4, h.5, by simp [Memory.below, State.takeFault, State.clearDest], h.7,
        h.8, Nat.zero_le _⟩
    · exact ⟨h.1, List.Pairwise.nil, h.3, h.4, by simp [Memory.below, State.takeFault, State.clearDest], h.6, h.7,
        Nat.zero_le _, h.9⟩
    · exact ⟨h.1, h.2, List.Pairwise.nil, h.4, h.5, by simp [Memory.below, State.takeFault, State.clearDest], h.7,
        h.8, Nat.zero_le _⟩
    · exact ⟨h.1, List.Pairwise.nil, h.3, h.4, by simp [Memory.below, State.takeFault, State.clearDest], h.6, h.7,
        Nat.zero_le _, h.9⟩

theorem cleared_regInv (s : State) : RegInv s.cleared := by
  constructor <;> simp [State.cleared, State.reset, Buffer.forget, Buffer.unspecified]


/-- The memories of the reset state are canonical. -/
theorem reset_memInv : MemInv State.reset := by
  constructor <;> simp [State.reset, Buffer.unspecified, Config.default]

end Sys2Proof.Laws
end

