-- ==== Sys2Proof/Laws/Pipeline.lean ====
section
/-! SUPPORT. The units of the macro commands one after the other (46_macro_control.md R180, R181). -/

namespace Sys2Proof.Laws

open Sys2Proof.Machine Sys2Proof.Safety

/-- A symbol of the input has a counter above 0 (40_freq.md R101). -/
theorem freqTable_ne_zero {s : State} (b : Byte) (h : b ∈ s.srcBytes) : tableGet (freqTable s.srcBytes) b ≠ 0 := by
  have hl : s.srcBytes.length < 2^32 := by rw [length_srcBytes]; exact BitVec.isLt _
  intro h0
  have := freqTable_count hl b
  rw [h0] at this
  exact absurd h (List.count_eq_zero.mp this.symm)

/-- COMPRESS builds a tree from a non-empty input, whose codes cover exactly the input's symbols. -/
theorem compress_tree (s : State) (hne : s.srcLen ≠ 0) : ∃ b tr, buildUnit (freqUnit s) = .ok b ∧ TreeInv b ∧
    b.root ≠ nil ∧ TreeOf b tr ∧
    gencodeUnit b = .ok { b with ct := tableOfCodes tr.paths } ∧
    (∀ x, (tableGet (tableOfCodes tr.paths) x).len ≠ 0 ↔ x ∈ s.srcBytes) := by
  have hl : s.srcBytes.length < 2^32 := by rw [length_srcBytes]; exact BitVec.isLt _
  have hnil : s.srcBytes ≠ [] := by
    intro h; have := length_srcBytes s; rw [h] at this
    exact hne (BitVec.eq_of_toNat_eq this.symm)
  obtain ⟨x, hx⟩ := List.exists_mem_of_ne_nil _ hnil
  obtain ⟨b, tr, h1, h2, h3, h4, h5, h6, h7⟩ := build_tree (s := freqUnit s) (freqEntries_ne_nil (b := x)
      (freqTable_ne_zero x hx))
  refine ⟨b, tr, h1, h2, h3, h4, gencode_tree h3 h4, fun y => ?_⟩
  have hmem : y ∈ tr.paths.map Prod.fst ↔ y ∈ s.srcBytes := by
    rw [paths_map_fst, (h7.map Prod.fst).mem_iff, List.map_map]
    constructor
    · intro h; obtain ⟨⟨a, w⟩, hm, rfl⟩ := List.mem_map.mp h
      obtain ⟨g1, g2⟩ := mem_freqEntries.mp hm
      by_contra hn
      have := freqTable_count hl a
      rw [List.count_eq_zero.mpr (show a ∉ s.srcBytes from hn)] at this
      exact g2 (g1.trans (BitVec.eq_of_toNat_eq this))
    · intro h
      exact List.mem_map.mpr ⟨(y, tableGet (freqTable s.srcBytes) y), mem_freqEntries.mpr ⟨rfl,
          freqTable_ne_zero y h⟩, rfl⟩
  rw [← hmem]
  constructor
  · intro h; by_contra hn; rw [tableOfCodes_absent hn] at h; exact h rfl
  · intro h; obtain ⟨⟨a, c⟩, hm, rfl⟩ := List.mem_map.mp h
    exact ((hasCode_paths h4 a c).mpr hm).1

/-- COMPRESS on a non-empty input comes down to ENCODE and FRAME on a state whose table covers the input. -/
theorem compress_run (s : State) (hne : s.srcLen ≠ 0) : ∃ b tr c, buildUnit (freqUnit s) = .ok b ∧ TreeOf b tr ∧
    c = { b with ct := tableOfCodes tr.paths } ∧
   TreeInv c ∧ c.srcBytes = s.srcBytes ∧ c.cfg = s.cfg ∧ c.ft = freqTable s.srcBytes ∧ (∀ x,
       (tableGet c.ct x).len ≠ 0 ↔ x ∈ s.srcBytes) ∧ c.status = { s.status with empty := false } ∧
           c.dstLen = s.dstLen ∧ c.err = s.err ∧
   runUnits [.freq, .build, .gencode, .encode, .frame] s = runUnits [.encode, .frame] c := by
  obtain ⟨b, tr, h1, h2, h3, h4, h5, h6⟩ := compress_tree s hne
  obtain ⟨n, r, -, hb⟩ := build_ok h1
  refine ⟨b, tr, _, h1, h4, rfl, treeInv_congr h2 rfl rfl rfl, by rw [hb]; rfl, by rw [hb]; rfl, by rw [hb]; rfl,
      h6, by rw [hb]; show ({ s.status with empty := s.srcLen == 0 } :
          Status) = _; rw [beq_eq_false_iff_ne.mpr hne], by rw [hb]; rfl, by rw [hb]; rfl, ?_⟩
  conv_lhs => rw [runUnits]
  simp only [UnitId.run]
  rw [runUnits]; simp only [UnitId.run, h1]
  rw [runUnits]; simp only [UnitId.run, h5]

/-- A payload has at most 255 bits a symbol. -/
theorem byteCount_concatCodes_le (ct : Vector CtRec 256) (bs : List Byte) : byteCount
    (concatCodes ct bs).length ≤ 32 * bs.length := by
  have : (concatCodes ct bs).length ≤ 255 * bs.length := by
    induction bs with
    | nil => simp [concatCodes]
    | cons b bs ih =>
      simp only [concatCodes, List.flatMap_cons, List.length_append, length_code, List.length_cons] at ih ⊢
      have := (tableGet ct b).len.isLt; omega
  simp only [byteCount]; omega

theorem exec_compress {s : State} (he : s.status.err = false) : exec .compress s = finish (encode .compress)
    (runUnits (compressUnits s) (s.setDone false).clearDerived) := by
  rw [exec_runs (.inl he)]; rfl

theorem codedEntries_empty : codedEntries emptyCodeTable = [] := by
  rw [codedEntries_eq]; simp

/-- Two states that agree on everything COMPRESS can show. -/
def Alike (a b : State) : Prop := a.status = b.status ∧ a.cfg = b.cfg ∧ a.srcBytes = b.srcBytes ∧
    a.srcLen = b.srcLen ∧ a.dstLen = b.dstLen ∧ a.dstBytes = b.dstBytes ∧ a.ft = b.ft ∧ a.ct = b.ct ∧
        SameTree a b ∧ a.payLen = b.payLen ∧ a.pad = b.pad ∧ a.payBytes = b.payBytes

theorem srcBytes_frame {a b : State} (h : b.src = a.src) (h2 : b.srcLen = a.srcLen) : b.srcBytes = a.srcBytes := by
  simp only [State.srcBytes, h2]; congr 1; funext i; simp only [State.srcByte, h]

theorem payBytes_frame {a b : State} (h : b.pay = a.pay) (h2 : b.payLen = a.payLen) : b.payBytes = a.payBytes := by
  simp only [State.payBytes, h, h2]

theorem dstBytes_frame {a b : State} (h : b.dst = a.dst) (h2 : b.dstLen = a.dstLen) : b.dstBytes = a.dstBytes := by
  simp only [State.dstBytes, h, h2]

/-- A unit other than PARSE and DECODE keeps states alike. -/
theorem alike_run {u : UnitId} {a b : State} (hu : u ≠ .parse ∧ u ≠ .decode) (h : Alike a b) :
    match u.run a, u.run b with
    | .ok x, .ok y => Alike x y
    | .error e, .error e' => e = e'
    | _, _ => False := by
  obtain ⟨h1, h2, h3, h4, h5, h6, h7, h8, ⟨h9, h10, h11⟩, h12, h13, h14⟩ := h
  cases u with
  | freq =>
    simp only [UnitId.run]
    refine ⟨?_, h2, h3, h4, h5, h6, ?_, h8, ⟨h9, h10, h11⟩, h12, h13, h14⟩
    · simp [freqUnit, h1, h4]
    · simp [freqUnit, h3]
  | build =>
    simp only [UnitId.run, buildUnit, h7]
    rcases buildTree (tableEntries b.ft) with e | ⟨n, r⟩
    · rfl
    exact ⟨h1, h2, h3, h4, h5, h6, rfl, h8, ⟨rfl, rfl, rfl⟩, h12, h13, h14⟩
  | gencode => 
    simp only [UnitId.run, gencodeUnit, h9, h10]
    by_cases hr : a.root = nil
    · simp [hr]
    · simp only [hr, if_false]
      cases walk a.node maxLevels a.root.toNat [] <;> simp
      exact ⟨h1, h2, h3, h4, h5, h6, h7, rfl, ⟨rfl, rfl, h11⟩, h12, h13, h14⟩
  | encode =>
    simp only [UnitId.run, encodeUnit, h8, h3, h2]
    cases codeBits b.ct b.srcBytes 0 with
    | error e => simp
    | ok bits =>
      by_cases hlt : (packBits (bits ++ List.replicate (padCount bits.length) false)).length > b.cfg.payCap.toNat
      · simp only [hlt, if_true]
      · simp only [hlt, if_false]
        refine ⟨h1, rfl, h3, h4, h5, h6, h7, rfl, ⟨h9, h10, h11⟩, rfl, rfl, ?_⟩
        have : (packBits (bits ++ List.replicate (padCount bits.length) false)).length < 2^32 := lt_of_le_of_lt
            (not_lt.mp hlt) (BitVec.isLt _)
        exact (payBytes_write (s := a) this).trans (payBytes_write (s := b) this).symm
  | frame =>
    have key : ∀ s : State, ∃ f : Bool, (f = decide
        (s.cfg.dstCap.toNat < 11 + tableSize s.ct + s.payLen.toNat)) := fun _ => ⟨_, rfl⟩
    rcases frame_cases a with ⟨k1, k2⟩ | ⟨k1, t, k2, k3⟩ <;> rcases frame_cases b with ⟨l1, l2⟩ | ⟨l1, t', l2, l3⟩
    · simp only [UnitId.run, k2, l2]
    · rw [h2, h8, h12] at k1; omega
    · rw [h2, h8, h12] at k1; omega
    · simp only [UnitId.run, k2, l2]
      obtain ⟨-, e1⟩ := frame_ok k2
      obtain ⟨-, e2⟩ := frame_ok l2
      have e3 : t.dstBytes = t'.dstBytes := by rw [k3, l3, h2, h8, h13, h14]
      rw [e1, e2] at e3 ⊢
      exact ⟨h1, h2, h3, h4, by simp [h8, h12], e3, h7, h8, ⟨h9, h10, h11⟩, h12, h13, h14⟩
  | parse => exact absurd rfl hu.1
  | decode => exact absurd rfl hu.2

/-- So do several units. -/
theorem alike_units {us : List UnitId} (hu : ∀ u ∈ us, u ≠ .parse ∧ u ≠ .decode) {a b : State} (h : Alike a b) :
    match runUnits us a, runUnits us b with
    | .ended x, .ended y => Alike x y
    | .raised x u c k, .raised y u' c' k' => Alike x y ∧ u = u' ∧ c = c' ∧ k = k'
    | .stuck _, .stuck _ => True
    | _, _ => False := by
  induction us generalizing a b with
  | nil => exact h
  | cons u us ih =>
    simp only [runUnits]
    have := alike_run (hu u (by simp)) h
    revert this
    cases u.run a with
    | ok x =>
      cases u.run b with
      | ok y => intro h; exact ih (fun v hv => hu v (by simp [hv])) h
      | error e => intro h; exact h.elim
    | error e =>
      cases u.run b with
      | ok y => intro h; exact h.elim
      | error e' => intro h'; simp only at h'; subst h'; cases e <;> simp [h]

/-- The table entries FRAME writes from a prefix-free code table are prefix-free. -/
theorem prefixFree_tableEntriesOf {ct : Vector CtRec 256} (h : ∀ b b' c c', b ≠ b' → HasCode ct b c →
    HasCode ct b' c' → Apart c c') :
    PrefixFree ((tableEntriesOf ct).map (·.code)) := by
  rw [PrefixFree, List.pairwise_map]
  have hn := nodup_tableEntriesOf ct
  rw [List.Nodup, List.pairwise_map] at hn
  refine hn.imp_of_mem ?_
  intro e e' he he' hne
  obtain ⟨-, h1, h2⟩ := mem_tableEntriesOf he
  obtain ⟨-, h1', h2'⟩ := mem_tableEntriesOf he'
  exact h e.sym e'.sym e.code e'.code hne ⟨h1, h2.symm⟩ ⟨h1', h2'.symm⟩

/-- More symbols than DST_CAP make the walk raise CapacityFault (44_bit_decode.md R155). -/
theorem decodeWalk_capacity {s : State} {tr : HTree} {es : List (Byte × BitString)} {rest : BitString} (ht :
    TreeOf s tr) (hes : ∀ e ∈ es, e ∈ tr.paths)
   (hb : s.payloadBits = es.flatMap (·.2) ++ rest) (hc : s.cfg.dstCap.toNat < es.length) :
   decodeWalk s.node s.root s.cfg.dstCap.toNat s.payloadBits s.root 0 0 [] = .error (.raise .capacityDst 0) := by
  obtain ⟨hnode, -, -, xs, hx, hperm⟩ := ht
  have hsplit : es = es.take s.cfg.dstCap.toNat ++ (es.drop s.cfg.dstCap.toNat) := (List.take_append_drop _ _).symm
  obtain ⟨e, es', hd⟩ := List.exists_cons_of_ne_nil (l := es.drop s.cfg.dstCap.toNat) (by simp; omega)
  rw [hd] at hsplit
  have hlen : (es.take s.cfg.dstCap.toNat).length = s.cfg.dstCap.toNat := by simp; omega
  generalize es.take s.cfg.dstCap.toNat = es1 at *
  have hm : ∀ x ∈ es1, x ∈ tr.paths := fun x hx => hes x (by rw [hsplit]; simp [hx])
  have he' : (e.1, e.2) ∈ tr.paths := hes e (by rw [hsplit]; simp)
  rw [hb, hsplit, List.flatMap_append, List.append_assoc, decodeWalk_paths hx hnode hm _ 0 [] (by simp; omega),
      List.flatMap_cons, List.append_assoc,
    decodeWalk_path hx he' hnode]
  simp [hlen]

theorem beNat_beBytes_five {v : Nat} (h : v < 2^40) : beNat (beBytes 5 v) = v := by
  have hr : List.range 5 = [0, 1, 2, 3, 4] := rfl
  simp only [beBytes, beNat, hr, List.map_cons, List.map_nil, List.foldl_cons, List.foldl_nil, BitVec.toNat_ofNat,
    Nat.shiftRight_eq_div_pow]
  norm_num at *
  omega

end Sys2Proof.Laws
end

