-- ==== Sys2Proof/Tests/Slice0.lean ====
section
/-! SUPPORT. Tests: ill-formed words refused, words decoded, single commands against the spec's worked examples
(the rule tables and 95_test_vectors.md), and for every obligation with hypotheses a state that meets them. -/

namespace Sys2Proof.Tests

open Sys2Proof.Machine Sys2Proof.Safety Sys2Proof.Laws

set_option Elab.async false

/-! ### Words -/

/-- The check of the field ZERO refuses 0x10, that of the field OPC does not (30_encoding.md R73). -/
theorem test_wellFormed_zero_field :
    CmdWord.zeroOk 0x10 = false ∧ CmdWord.opcOk 0x10 = true ∧ CmdWord.wellFormed 0x10 = false := by decide

/-- The check of the field OPC refuses 0x0A, that of the field ZERO does not (30_encoding.md R73). -/
theorem test_wellFormed_opc :
    CmdWord.zeroOk 0x0A = true ∧ CmdWord.opcOk 0x0A = false ∧ CmdWord.wellFormed 0x0A = false := by decide

theorem test_wellFormed_last : CmdWord.wellFormed 0x09 = true := by decide

theorem test_decode_clr : decodeTableWord 8 0b00000000 = some .clr := by decide
theorem test_decode_freq : decodeTableWord 8 0b00000001 = some .freq := by decide
theorem test_decode_build : decodeTableWord 8 0b00000010 = some .build := by decide
theorem test_decode_gencode : decodeTableWord 8 0b00000011 = some .gencode := by decide
theorem test_decode_encode : decodeTableWord 8 0b00000100 = some .encode := by decide
theorem test_decode_frame : decodeTableWord 8 0b00000101 = some .frame := by decide
theorem test_decode_parse : decodeTableWord 8 0b00000110 = some .parse := by decide
theorem test_decode_decode : decodeTableWord 8 0b00000111 = some .decode := by decide
theorem test_decode_compress : decodeTableWord 8 0b00001000 = some .compress := by decide
theorem test_decode_decompress : decodeTableWord 8 0b00001001 = some .decompress := by decide
theorem test_decode_reserved : decodeTableWord 8 0b00001010 = none ∧ decodeTableWord 8 0b00010001 = none := by decide

/-! ### States -/

/-- The state after reset with `bs` loaded into SRC. -/
def loaded (bs : List Byte) : State :=
  { State.reset with src := (Buffer.unspecified 0).writeBytes 0 bs, srcLen := BitVec.ofNat 32 bs.length }

/-- The state after reset with `bs` loaded into PAY and `pad` in PAD. -/
def withPay (s : State) (bs : List Byte) (pad : BitVec 3) : State :=
  { s with pay := (Buffer.unspecified 0).writeBytes 0 bs, payLen := BitVec.ofNat 32 bs.length, pad := pad }

/-- `s` with other capacities. -/
def withCaps (s : State) (src dst pay : Word) : State :=
  { s with cfg := { s.cfg with srcCap := src, dstCap := dst, payCap := pay } }

/-- AAABBC (40_freq.md R100). -/
def aaabbc : State := loaded [0x41, 0x41, 0x41, 0x42, 0x42, 0x43]

/-- The table of AAABBC (41_tree_build.md R120). -/
def counted : State :=
  { State.reset with ft := tableSet (tableSet (tableSet emptyFreqTable 0x41 3) 0x42 2) 0x43 1 }

/-- Counters no input could give (41_tree_build.md R120). -/
def large : State :=
  { State.reset with ft := tableSet (tableSet (tableSet emptyFreqTable 1 0xFFFFFFFF) 2 0xFFFFFFFF) 3 1 }

/-- The tree of AAABBC (41_tree_build.md R120). -/
def built : State :=
  { State.reset with
    node := [NodeRec.leafOf 0x41 3, NodeRec.leafOf 0x42 2, NodeRec.leafOf 0x43 1, NodeRec.internalOf 3 2 1,
      NodeRec.internalOf 6 0 3]
    root := 4, nodeCnt := 5 }

/-- The same tree as an abstract value. -/
def tree : HTree := .node 6 (.leaf 0x41 3) (.node 3 (.leaf 0x43 1) (.leaf 0x42 2))

/-- The tree of the lone symbol A (41_tree_build.md R115). -/
def lone : State :=
  { State.reset with node := [NodeRec.leafOf 0x41 1, NodeRec.internalOf 1 0 nil], root := 1, nodeCnt := 2 }

def loneTree : HTree := .node 1 (.leaf 0x41 1) .absent

/-- The codes of AAABBC (41_tree_build.md R120). -/
def codes : Vector CtRec 256 :=
  tableOfCodes [(0x41, [false]), (0x42, [true, true]), (0x43, [true, false])]

/-- AAABBC with its codes. -/
def coded : State := { aaabbc with ct := codes }

/-- The entries of the container of AAABBC, the first two in the order FRAME writes them. -/
def entryA : RawEntry := { sym := 0x41, len := 1, bits := [0x00] }
def entryB : RawEntry := { sym := 0x42, len := 2, bits := [0xC0] }
def entryC : RawEntry := { sym := 0x43, len := 2, bits := [0x80] }

/-- The container of AAABBC (45_container.md R173). -/
def container : List Byte :=
  [0x48, 0x55, 0x46, 0x01, 0x00, 0x03, 0x41, 0x01, 0x00, 0x42, 0x02, 0xC0, 0x43, 0x02, 0x80, 0x07,
    0x00, 0x00, 0x00, 0x02, 0x1F, 0x00]

/-- That container loaded, its byte `k` replaced. -/
def patched (k : Nat) (v : Byte) : State := loaded (container.set k v)

/-- A state with a fault recorded. -/
def faulted : State :=
  { State.reset with status := { done := false, err := true, empty := false }, err := { kind := 5, sub := 2, op := 3 } }

/-- `o` is a next state with property `p`. -/
def ends (o : Host.Outcome State Fault Refusal) (p : State → Bool) : Bool :=
  match o with
  | .next t => p t
  | .fault _ => false
  | .refused _ => false

theorem next_of_ends {o : Host.Outcome State Fault Refusal} {p : State → Bool} (h : ends o p = true) :
    ∃ t, o = .next t ∧ p t = true := by
  cases o with
  | next t => exact ⟨t, rfl, h⟩
  | fault r => cases h
  | refused r => cases h

/-- `s` ended without fault. -/
def good (s : State) : Bool := s.status.done && !s.status.err

theorem succeeded_of_good {s : State} (h : good s = true) : Succeeded s := by
  simpa [good, Succeeded] using h

/-- KIND, SUB and ERRINFO of the fault `o` records. -/
def faultOf (o : Host.Outcome State Fault Refusal) : Option (Nat × Nat × Nat) :=
  match o with
  | .next t => if t.status.err then some (t.err.kind.toNat, t.err.sub.toNat, t.errInfo.toNat) else none
  | .fault _ => none
  | .refused _ => none

/-! ### Single commands -/

/-- 46_macro_control.md R182: CLR acknowledges a fault. -/
theorem test_clr_acknowledges :
    ends (exec .clr faulted) (fun t => good t && t.err.kind == 0 && t.root == 0xFFFF) = true := by decide +kernel

/-- 40_freq.md R100, the example. -/
theorem test_freq_counts :
    ends (exec .freq aaabbc) (fun t => good t && tableGet t.ft 0x41 == 3 && tableGet t.ft 0x42 == 2 &&
      tableGet t.ft 0x43 == 1 && tableGet t.ft 0x44 == 0 && !t.status.empty) = true := by decide +kernel

/-- 40_freq.md R102. -/
theorem test_freq_empty_input :
    ends (exec .freq counted) (fun t => good t && t.status.empty && tableGet t.ft 0x41 == 0) = true := by
  decide +kernel

/-- 41_tree_build.md R120, the first example: a tie at frequency 3, the older node leaves first. -/
theorem test_build_tie_break :
    ends (exec .build counted) (fun t => t.node == built.node && t.root == 4 && t.nodeCnt == 5) = true := by
  decide +kernel

/-- 41_tree_build.md R120, the host-written large counts: no overflow. -/
theorem test_build_large_counts :
    ends (exec .build large)
      (fun t => t.node.drop 3 == [NodeRec.internalOf 0x100000000 2 0, NodeRec.internalOf 0x1FFFFFFFF 1 3]) = true := by
  decide +kernel

/-- 41_tree_build.md R120: 0x41 = "0", 0x43 = "10", 0x42 = "11". -/
theorem test_gencode_codes :
    ends (exec .gencode built) (fun t => good t && t.ct == codes) = true := by decide +kernel

/-- 41_tree_build.md R115: the lone symbol's code is "0". -/
theorem test_gencode_lone_leaf :
    ends (exec .gencode lone) (fun t => tableGet t.ct 0x41 == { len := 1, bits := 0 }) = true := by decide +kernel

/-- 45_container.md R173: PAD = 7, PAY = 1F 00. -/
theorem test_encode_packs :
    ends (exec .encode coded) (fun t => good t && t.payBytes == [0x1F, 0x00] && t.pad == 7) = true := by
  decide +kernel

/-- 43_bit_encode.md R142: the first symbol without a code, at offset 3. -/
theorem test_encode_missing_code :
    faultOf (exec .encode { aaabbc with ct := tableOfCodes [(0x41, [false])] }) = some (1, 0, 3) := by decide +kernel

/-- 46_macro_control.md R180, the example's container. -/
theorem test_frame_layout :
    ends (exec .frame (withPay { State.reset with ct := codes } [0x1F, 0x00] 7))
      (fun t => good t && t.dstBytes == container && t.dstLen == 22) = true := by decide +kernel

/-- 45_container.md R163. -/
theorem test_frame_capacity :
    faultOf (exec .frame (withCaps State.reset 0 10 0)) = some (4, 2, 0) := by decide +kernel

/-- 45_container.md R173, the first row: node numbering follows the entries. -/
theorem test_parse_rebuilds :
    ends (exec .parse (loaded container)) (fun t => good t && t.ct == codes && t.root == 0 && t.pad == 7 &&
      t.node == [NodeRec.internalOf 0 1 2, NodeRec.leafOf 0x41 0, NodeRec.internalOf 0 4 3, NodeRec.leafOf 0x42 0,
        NodeRec.leafOf 0x43 0]) = true := by decide +kernel

/-- 45_container.md R173, the faulting rows. -/
theorem test_parse_faults :
    [faultOf (exec .parse (patched 0 0x49)), faultOf (exec .parse (patched 10 0x01)),
      faultOf (exec .parse (patched 13 0x01)), faultOf (exec .parse (patched 7 0x00)),
      faultOf (exec .parse (patched 12 0x42)), faultOf (exec .parse (patched 15 0x08)),
      faultOf (exec .parse (loaded (container.take 7))), faultOf (exec .parse (loaded (container ++ [0])))] =
    [some (2, 1, 0), some (2, 5, 12), some (2, 5, 12), some (2, 3, 6), some (2, 4, 12), some (2, 6, 15),
      some (2, 2, 6), some (2, 7, 2)] := by decide +kernel

/-- 44_bit_decode.md R151 with the payload of 45_container.md R173. -/
theorem test_decode_symbols :
    ends (exec .decode (withPay built [0x1F, 0x00] 7))
      (fun t => good t && t.dstBytes == [0x41, 0x41, 0x41, 0x42, 0x42, 0x43]) = true := by decide +kernel

/-- 44_bit_decode.md R153: bit 1 at the root of a one-symbol tree. -/
theorem test_decode_bad_path : faultOf (exec .decode (withPay lone [0x40] 6)) = some (2, 9, 1) := by decide +kernel

/-- 46_macro_control.md R180, the example. -/
theorem test_compress_example :
    ends (exec .compress aaabbc) (fun t => good t && t.dstBytes == container) = true := by decide +kernel

/-- 30_encoding.md R88, 46_macro_control.md R180 step 3. -/
theorem test_compress_empty :
    ends (exec .compress State.reset) (fun t => good t && t.status.empty &&
      t.dstBytes == [0x48, 0x55, 0x46, 0x01, 0, 0, 0, 0, 0, 0, 0]) = true := by decide +kernel

/-- 46_macro_control.md R181, the example. -/
theorem test_decompress_example :
    ends (exec .decompress (loaded container))
      (fun t => good t && t.dstBytes == [0x41, 0x41, 0x41, 0x42, 0x42, 0x43]) = true := by decide +kernel

/-- 46_macro_control.md R181: the macro's own word is recorded. -/
theorem test_decompress_fault_op :
    ends (exec .decompress (patched 0 0x49)) (fun t => t.err == { kind := 2, sub := 1, op := 9 }) = true := by
  decide +kernel

/-- 46_macro_control.md R183. -/
theorem test_reserved_word : faultOf (command 0xFF State.reset) = some (6, 0, 255) := by decide +kernel

/-- A word placed for the next step runs. -/
theorem test_withFetchWord :
    ends (step (State.reset.withFetchWord 8 0x01)) (fun t => good t && t.status.empty) = true := by decide +kernel

/-! ### Witnesses: for every obligation with hypotheses, states and operands that meet them together -/

/-- `s` with `m` as the host's next move. -/
def before (m : HostMove) (s : State) : State := { s with host := m :: s.host }

theorem treeOf_built (s : State) (hn : s.node = built.node) (hr : s.root = 4) : TreeOf s tree := by
  refine ⟨rfl, by decide, by decide, [4, 0, 3, 2, 1], ?_, ?_⟩
  · rw [hn, hr]
    exact .node (n := NodeRec.internalOf 6 0 3) (by decide) rfl rfl
      (.leaf (n := NodeRec.leafOf 0x41 3) (by decide) rfl rfl)
      (.node (n := NodeRec.internalOf 3 2 1) (by decide) rfl rfl
        (.leaf (n := NodeRec.leafOf 0x43 1) (by decide) rfl rfl)
        (.leaf (n := NodeRec.leafOf 0x42 2) (by decide) rfl rfl))
  · rw [hn]; decide

theorem treeOf_lone (s : State) (hn : s.node = lone.node) (hr : s.root = 1) : TreeOf s loneTree := by
  refine ⟨rfl, by decide, by decide, [1, 0], ?_, ?_⟩
  · rw [hn, hr]
    exact .node (n := NodeRec.internalOf 1 0 nil) (by decide) rfl rfl
      (.leaf (n := NodeRec.leafOf 0x41 1) (by decide) rfl rfl) .absent
  · rw [hn]; decide

theorem treeInv_built (s : State) (hn : s.node = built.node) (hr : s.root = 4) (hc : s.nodeCnt = 5) : TreeInv s where
  count := by rw [hn, hc]; rfl
  room := by rw [hn]; decide
  empty := by rw [hr, hc]; decide
  records := by rw [hn]; decide
  tree _ := ⟨tree, treeOf_built s hn hr⟩

theorem regInv_before (m : HostMove) : RegInv (before m State.reset.cleared) := by
  constructor <;> simp [before, State.cleared, State.reset, Buffer.forget, Buffer.unspecified]

theorem witness_DecodeInvertsEncode : Instr.wellFormed .clr = true ∧ Instr.wellFormed .decompress = true := by decide

theorem witness_DecodeAcceptsExactlyTenWords : decodeWord 0x00 = .ok .clr ∧ decodeWord 0x09 = .ok .decompress := by
  decide

theorem witness_StepRunsDecodedCommand :
    (before (.writeReg 0 0x109) State.reset).host = .writeReg 0 0x109 :: [] ∧
    decodeWord (cmdByte 0x109) = .ok .decompress ∧ Instr.wellFormed .decompress = true ∧
    decodeWord (cmdByte 0x10A) = .error (.reservedOpc 0x0A) := by decide

theorem witness_ReservedWordRaisesIllegalCommand :
    0x0A ≤ (0x0A#8).toNat ∧ 0x0A ≤ (0xFF#8).toNat ∧ State.reset.status.err = false := by decide

theorem witness_FaultHoldsUntilAcknowledged :
    faulted.status.err = true ∧ (1 : Byte) ≠ 0x00 ∧
    (∃ t, step (before (issue .freq) faulted) = .next t) ∧
    (∀ rest, (before (issue .freq) faulted).host ≠ .reset :: rest) ∧
    (∀ v rest, (before (issue .freq) faulted).host = .writeReg 0 v :: rest → cmdByte v ≠ 0x00) := by
  refine ⟨rfl, by decide, ⟨_, rfl⟩, ?_, ?_⟩
  · intro rest h; cases h
  · intro v rest h; cases h; decide

theorem witness_ExactlyOneOfDoneAndErr :
    ¬ (State.reset.status.done = true ∧ State.reset.status.err = true) ∧
    (∃ t, command 0x01 State.reset = .next t) ∧ (∃ t, command 0x03 State.reset = .next t) ∧
    ∃ t, command 0x0A State.reset = .next t :=
  ⟨by decide, ⟨_, rfl⟩, ⟨_, rfl⟩, ⟨_, rfl⟩⟩

theorem witness_ResetMoveGivesResetValues : (before .reset faulted).host = .reset :: [] := rfl

theorem witness_FaultEntryClearsDestinations : (6 : Nat) < 2 ^ 32 ∧ 2 ^ 32 - 1 < 2 ^ 32 := by decide

theorem witness_FreqBuildGencodeFrame :
    (∃ t, exec .freq aaabbc = .next t) ∧ (∃ t, exec .build counted = .next t ∧ t.status.err = false) ∧
    (∃ t, exec .build State.reset = .next t ∧ t.status.err = true) ∧
    ∃ t, exec .gencode built = .next t ∧ t.status.err = false := by
  have h1 := next_of_ends (o := exec .build counted) (p := fun t => !t.status.err) (by decide +kernel)
  have h2 := next_of_ends (o := exec .gencode built) (p := fun t => !t.status.err) (by decide +kernel)
  have h3 := next_of_ends (o := exec .build State.reset) (p := fun t => t.status.err) (by decide +kernel)
  simp only [Bool.not_eq_true'] at h1 h2
  exact ⟨⟨_, rfl⟩, h1, h3, h2⟩

theorem witness_EncodeParseFrame :
    (∃ t, exec .encode coded = .next t ∧ t.status.err = false ∧ t.payLen.toNat ≤ 2) ∧
    ∃ t, exec .parse (loaded container) = .next t ∧ t.status.err = false ∧ t.payLen.toNat ≤ 2 := by
  have h1 := next_of_ends (o := exec .encode coded) (p := fun t => !t.status.err && t.payLen.toNat ≤ 2)
      (by decide +kernel)
  have h2 := next_of_ends (o := exec .parse (loaded container)) (p := fun t => !t.status.err && t.payLen.toNat ≤ 2)
    (by decide +kernel)
  simp only [Bool.and_eq_true, Bool.not_eq_true', decide_eq_true_eq] at h1 h2
  exact ⟨h1, h2⟩

theorem witness_FrameDecodeFrame :
    (∃ t, exec .frame State.reset = .next t ∧ t.status.err = false) ∧
    ∃ t, exec .decode (withPay built [0x1F, 0x00] 7) = .next t ∧ t.status.err = false := by
  have h1 := next_of_ends (o := exec .frame State.reset) (p := fun t => !t.status.err) (by decide +kernel)
  have h2 := next_of_ends (o := exec .decode (withPay built [0x1F, 0x00] 7)) (p := fun t => !t.status.err)
    (by decide +kernel)
  simp only [Bool.not_eq_true'] at h1 h2
  exact ⟨h1, h2⟩

theorem witness_MacroFrame :
    Instr.compress ≠ .clr ∧ (loaded container).status.err = false ∧ (∃ t, exec .compress aaabbc = .next t) ∧
    ∃ t, exec .decompress (loaded container) = .next t ∧ t.status.err = false := by
  obtain ⟨t, h, -⟩ := next_of_ends test_compress_example
  obtain ⟨u, hu, g⟩ := next_of_ends test_decompress_example
  simp only [Bool.and_eq_true] at g
  exact ⟨by decide, rfl, ⟨t, h⟩, u, hu, (succeeded_of_good g.1).2⟩

theorem witness_FreqCountsTheInput : aaabbc.status.err = false ∧ aaabbc.srcLen ≠ 0 ∧ State.reset.srcLen = 0 := by
  decide

theorem witness_BuildMergesTheTwoLeast :
    counted.status.err = false ∧ 3 = (freqEntries counted.ft).length ∧ 2 ≤ 3 ∧
    (freqEntries counted.ft)[2]? = some (0x43, 1) := by decide +kernel

theorem witness_BuildWrapsALoneLeaf :
    freqEntries (tableSet emptyFreqTable 0x41 1) = [(0x41, 1)] ∧ State.reset.status.err = false := by decide +kernel

/-- PAY_CAP one byte too small for AAABBC. -/
theorem compress_capacity : ∃ t, exec .compress (withCaps aaabbc 6 22 1) = .next t ∧ t.status.err = true :=
  next_of_ends (p := fun t => t.status.err) (by decide +kernel)

theorem witness_BuildFaultsOnEmptyTable :
    (State.reset.status.err = false ∧ ∀ b, tableGet State.reset.ft b = 0) ∧
    (withCaps aaabbc 6 22 1).status.err = false ∧
    ∃ t, exec .compress (withCaps aaabbc 6 22 1) = .next t ∧ t.status.err = true :=
  ⟨by decide +kernel, rfl, compress_capacity⟩

theorem witness_BuildMakesATree : counted.status.err = false ∧ tableGet counted.ft 0x43 ≠ 0 := by decide +kernel

theorem witness_BuildDependsOnTableAlone :
    counted.status.err = false ∧ { aaabbc with ft := counted.ft }.ft = counted.ft ∧
    ∃ t t' u u', exec .build counted = .next t ∧ exec .build { aaabbc with ft := counted.ft } = .next t' ∧
      t.status.err = false ∧ exec .gencode t = .next u ∧ exec .gencode t' = .next u' := by
  obtain ⟨t, h, g⟩ := next_of_ends (o := exec .build counted)
    (p := fun t => good t && ends (exec .gencode t) good) (by decide +kernel)
  obtain ⟨t', h', g'⟩ := next_of_ends (o := exec .build { aaabbc with ft := counted.ft })
    (p := fun t => ends (exec .gencode t) good) (by decide +kernel)
  simp only [Bool.and_eq_true] at g
  obtain ⟨u, hu, -⟩ := next_of_ends g.2
  obtain ⟨u', hu', -⟩ := next_of_ends g'
  exact ⟨rfl, rfl, t, t', u, u', h, h', (succeeded_of_good g.1).2, hu, hu'⟩

theorem witness_GencodeReadsCodesOffTheTree :
    built.status.err = false ∧ built.root ≠ nil ∧ TreeOf built tree ∧ (0x44, [false]) ∉ tree.paths ∧
    lone.root ≠ nil ∧ TreeOf lone loneTree :=
  ⟨rfl, by decide, treeOf_built _ rfl rfl, by decide, by decide, treeOf_lone _ rfl rfl⟩

theorem witness_GencodeIsPrefixFree :
    built.status.err = false ∧ built.root ≠ nil ∧ TreeInv built ∧
    ∃ t, exec .gencode built = .next t ∧ (0x41 : Byte) ≠ 0x42 ∧ HasCode t.ct 0x41 [false] ∧
      HasCode t.ct 0x42 [true, true] := by
  obtain ⟨t, h, hp⟩ := next_of_ends (o := exec .gencode built)
    (p := fun t => tableGet t.ct 0x41 == CtRec.ofCode [false] && tableGet t.ct 0x42 == CtRec.ofCode [true, true])
    (by decide +kernel)
  simp only [Bool.and_eq_true, beq_iff_eq] at hp
  exact ⟨rfl, by decide, treeInv_built _ rfl rfl rfl, t, h, by decide, by rw [HasCode, hp.1]; decide,
    by rw [HasCode, hp.2]; decide⟩

theorem witness_GencodeFaultsWithoutTree : State.reset.status.err = false ∧ State.reset.root = nil := by decide

/-- The payload of two bytes fits exactly. -/
theorem witness_EncodePacksTheCodes :
    let s := withCaps coded 6 0 2
    s.status.err = false ∧ (∀ b ∈ s.srcBytes, (tableGet s.ct b).len ≠ 0) ∧
    byteCount (concatCodes s.ct s.srcBytes).length ≤ s.cfg.payCap.toNat := by decide +kernel

theorem witness_EncodeFaultsOnMissingCode :
    let s := { aaabbc with ct := tableOfCodes [(0x41, [false])] }
    s.status.err = false ∧ s.srcBytes = [0x41, 0x41, 0x41] ++ 0x42 :: [0x42, 0x43] ∧
    ((∀ x ∈ [(0x41 : Byte), 0x41, 0x41], (tableGet s.ct x).len ≠ 0) ∧ (tableGet s.ct 0x42).len = 0) ∧
    ∃ t, exec .compress (withCaps aaabbc 6 22 1) = .next t ∧ t.status.err = true :=
  ⟨rfl, by decide +kernel, by decide +kernel, compress_capacity⟩

/-- One byte too few. -/
theorem witness_EncodeFaultsOnCapacity :
    let s := withCaps coded 6 0 1
    s.status.err = false ∧ (∀ b ∈ s.srcBytes, (tableGet s.ct b).len ≠ 0) ∧
    s.cfg.payCap.toNat < byteCount (concatCodes s.ct s.srcBytes).length := by decide +kernel

theorem witness_FrameWritesTheLayout :
    let s := withCaps (withPay { State.reset with ct := codes } [0x1F, 0x00] 7) 0 22 2
    s.status.err = false ∧
    (layout s.cfg.magic (tableEntriesOf s.ct) (s.pad.setWidth 8) s.payBytes).length ≤ s.cfg.dstCap.toNat := by
  decide +kernel

theorem witness_FrameFaultsOnCapacity :
    let s := withCaps (withPay { State.reset with ct := codes } [0x1F, 0x00] 7) 0 21 2
    s.status.err = false ∧
    s.cfg.dstCap.toNat < (layout s.cfg.magic (tableEntriesOf s.ct) (s.pad.setWidth 8) s.payBytes).length := by
  decide +kernel

theorem entries_ok : (∀ e ∈ [entryA, entryB, entryC], e.ok) ∧ ([entryA, entryB, entryC].map (·.sym)).Nodup ∧
    PrefixFree ([entryA, entryB, entryC].map (·.code)) := by
  unfold RawEntry.ok PrefixFree Apart; decide

/-- The container of AAABBC, and the empty one. -/
theorem witness_ParseRebuildsTableAndTree :
    (loaded container).status.err = false ∧
    (loaded container).srcBytes = layout (loaded container).cfg.magic [entryA, entryB, entryC] 7 [0x1F, 0x00] ∧
    (7 : Byte).toNat ≤ 7 ∧ (([0x1F, 0x00] : List Byte) = [] → (7 : Byte) = 0) ∧
    ([0x1F, 0x00] : List Byte).length ≤ (loaded container).cfg.payCap.toNat ∧
    (loaded [0x48, 0x55, 0x46, 0x01, 0, 0, 0, 0, 0, 0, 0]).srcBytes = layout Config.default.magic [] 0 [] ∧
    ((∀ e ∈ [entryA, entryB, entryC], e.ok) ∧ ([entryA, entryB, entryC].map (·.sym)).Nodup ∧
      PrefixFree ([entryA, entryB, entryC].map (·.code))) :=
  ⟨rfl, by decide +kernel, by decide, by decide, by decide +kernel, by decide +kernel, entries_ok⟩

/-- Three and five bytes. -/
theorem witness_ParseRejectsBadHeader :
    (loaded (container.take 3)).srcBytes.take 4 ≠ (loaded (container.take 3)).cfg.magic.toList ∧
    (loaded (container.take 5)).srcBytes.take 4 = (loaded (container.take 5)).cfg.magic.toList ∧
    (loaded (container.take 5)).srcBytes.length < 6 ∧ (loaded (container.take 5)).status.err = false := by
  decide +kernel

/-- After the entry A of the container: one byte left; no bits; a code cut short; A again; a code that goes through A's,
one equal to it, and one that is its beginning. -/
theorem witness_ParseRejectsBadEntry :
    let head := Config.default.magic.toList ++ beBytes 2 3 ++ [entryA].flatMap RawEntry.bytes
    (∀ rest ∈ [[0x42], [0x42, 0], [0x42, 9, 0xC0], entryA.bytes, [0x42, 2, 0x40], [0x42, 1, 0x00]],
      (loaded (head ++ rest)).srcBytes = (loaded (head ++ rest)).cfg.magic.toList ++ beBytes 2 3 ++
        [entryA].flatMap RawEntry.bytes ++ rest) ∧
    [entryA].length < 3 ∧ (∀ x ∈ [entryA], x.ok) ∧ ([entryA].map (·.sym)).Nodup ∧ PrefixFree ([entryA].map (·.code)) ∧
    ([0x42] : List Byte).length < 2 ∧ ([0xC0] : List Byte).length < byteCount (9 : Byte).toNat ∧
    entryA.sym ∈ [entryA].map (·.sym) ∧
    (∀ e ∈ [RawEntry.mk 0x42 2 [0x40], RawEntry.mk 0x42 1 [0x00]],
      e.ok ∧ e.sym ∉ [entryA].map (·.sym) ∧ ∃ x ∈ [entryA], ¬ Apart x.code e.code) ∧
    ¬ Apart entryB.code (RawEntry.mk 0x43 1 [0x80]).code := by
  unfold RawEntry.ok PrefixFree Apart; decide +kernel

/-- After the three entries: nothing; padding 8; three bytes of payload_len; one byte too few and one too many; padding
without payload; a payload of two bytes and PAY_CAP = 1. -/
theorem witness_ParseRejectsBadTrailer :
    let head := Config.default.magic.toList ++ beBytes 2 3 ++ [entryA, entryB, entryC].flatMap RawEntry.bytes
    (∀ rest ∈ [[], [8], [7, 0, 0, 0], [7] ++ (beBytes 4 2 ++ [0x1F]), [7] ++ (beBytes 4 2 ++ [0x1F, 0, 0]),
        [1] ++ (beBytes 4 0 ++ []), [7] ++ (beBytes 4 2 ++ [0x1F, 0])],
      (withCaps (loaded (head ++ rest)) 99 0 1).srcBytes = (loaded (head ++ rest)).cfg.magic.toList ++ beBytes 2 3 ++
        [entryA, entryB, entryC].flatMap RawEntry.bytes ++ rest) ∧
    7 < (8 : Byte).toNat ∧ (7 : Byte).toNat ≤ 7 ∧ ([0, 0, 0] : List Byte).length < 4 ∧ (2 : Nat) < 2 ^ 32 ∧
    ([0x1F] : List Byte).length ≠ 2 ∧ ([0x1F, 0, 0] : List Byte).length ≠ 2 ∧ (1 : Byte) ≠ 0 ∧
    ([0x1F, 0] : List Byte).length = 2 ∧ (withCaps (loaded container) 99 0 1).cfg.payCap.toNat < 2 := by decide +kernel

theorem witness_ParseFaultLeavesNothing :
    State.reset.status.err = false ∧ (∃ t, exec .parse State.reset = .next t ∧ t.status.err = true) := by
  have h := next_of_ends (o := exec .parse State.reset) (p := fun t => t.status.err) (by decide +kernel)
  exact ⟨rfl, h⟩

/-- The symbols and codes of AAABBC. -/
def spelled : List (Byte × BitString) :=
  [(0x41, [false]), (0x41, [false]), (0x41, [false]), (0x42, [true, true]), (0x42, [true, true]), (0x43, [true, false])]

/-- AAABBC fits exactly. -/
theorem witness_DecodeEmitsTheSymbols :
    let s := withCaps (withPay built [0x1F, 0x00] 7) 0 6 2
    s.status.err = false ∧ s.root ≠ nil ∧ TreeOf s tree ∧ s.pad.toNat ≤ 8 * s.payLen.toNat ∧
    (∀ e ∈ spelled, e ∈ tree.paths) ∧ s.payloadBits = spelled.flatMap (·.2) ∧ spelled.length ≤ s.cfg.dstCap.toNat :=
  ⟨rfl, by decide, treeOf_built _ rfl rfl, by decide +kernel, by decide, by decide +kernel, by decide⟩

/-- The byte 0x1F: A A A B B and the bit 1. -/
theorem witness_DecodeFaultsOnTruncatedStream :
    let s := withCaps (withPay built [0x1F] 0) 0 5 2
    s.status.err = false ∧ s.root ≠ nil ∧ TreeOf s tree ∧ s.pad.toNat ≤ 8 * s.payLen.toNat ∧
    (∀ e ∈ spelled.take 5, e ∈ tree.paths) ∧ s.payloadBits = (spelled.take 5).flatMap (·.2) ++ [true] ∧
    [true] ≠ [] ∧ (tree.follow [true]).isNode = true ∧ (spelled.take 5).length ≤ s.cfg.dstCap.toNat :=
  ⟨rfl, by decide, treeOf_built _ rfl rfl, by decide +kernel, by decide, by decide +kernel, by decide, by decide,
      by decide⟩

/-- The bits 0 1 on the tree of a lone symbol. -/
theorem witness_DecodeFaultsOnBadPath :
    let s := withCaps (withPay lone [0x40] 6) 0 1 2
    s.status.err = false ∧ s.root ≠ nil ∧ TreeOf s loneTree ∧ s.pad.toNat ≤ 8 * s.payLen.toNat ∧
    (∀ e ∈ [((0x41 : Byte), [false])], e ∈ loneTree.paths) ∧
    s.payloadBits = [((0x41 : Byte), [false])].flatMap (·.2) ++ [] ++ true :: [] ∧
    (loneTree.follow []).isNode = true ∧ loneTree.follow ([] ++ [true]) = .absent ∧
    [((0x41 : Byte), [false])].length ≤ s.cfg.dstCap.toNat :=
  ⟨rfl, by decide, treeOf_lone _ rfl rfl, by decide +kernel, by decide, by decide +kernel, by decide, by decide,
      by decide⟩

theorem witness_DecodeFaultsOnCapacity :
    let s := withCaps (withPay built [0x1F, 0x00] 7) 0 5 2
    s.status.err = false ∧ s.root ≠ nil ∧ TreeOf s tree ∧ s.pad.toNat ≤ 8 * s.payLen.toNat ∧
    (∀ e ∈ spelled, e ∈ tree.paths) ∧ s.payloadBits = spelled.flatMap (·.2) ++ [] ∧
    s.cfg.dstCap.toNat < spelled.length :=
  ⟨rfl, by decide, treeOf_built _ rfl rfl, by decide +kernel, by decide, by decide +kernel, by decide⟩

/-- No payload bits. -/
theorem witness_DecodeFaultsOnTruncatedStream_empty :
    built.status.err = false ∧ built.root ≠ nil ∧ 8 * built.payLen.toNat = built.pad.toNat := by decide

theorem witness_DecodeFaultsWithoutTreeOrPayload :
    (State.reset.status.err = false ∧ State.reset.root = nil ∧
      { built with pad := 1 }.root ≠ nil ∧ { built with pad := 1 }.payLen = 0 ∧ { built with pad := 1 }.pad ≠ 0) ∧
    (loaded container).status.err = false ∧ ∃ t, exec .parse (loaded container) = .next t ∧ t.status.err = false := by
  obtain ⟨t, h, g⟩ := next_of_ends test_parse_rebuilds
  simp only [Bool.and_eq_true] at g
  exact ⟨by decide, rfl, t, h, (succeeded_of_good g.1.1.1.1).2⟩

/-- The worst case fits exactly. -/
theorem witness_CompressMakesTheContainer :
    let s := withCaps aaabbc 6 8907 192
    s.status.err = false ∧ s.srcLen ≠ 0 ∧ 32 * s.srcLen.toNat ≤ s.cfg.payCap.toNat ∧
    8715 + 32 * s.srcLen.toNat ≤ s.cfg.dstCap.toNat := by decide

theorem witness_CompressOfEmptyInput :
    let s := withCaps State.reset 0 11 0
    s.status.err = false ∧ s.srcLen = 0 ∧ 11 ≤ s.cfg.dstCap.toNat := by decide

theorem witness_CompressFailsOnlyOnCapacity :
    aaabbc.status.err = false ∧ faultOf (exec .compress (withCaps aaabbc 6 22 1)) = some (4, 1, 0) ∧
    faultOf (exec .compress (withCaps aaabbc 6 21 2)) = some (4, 2, 0) := by decide +kernel

theorem witness_CompressDependsOnInputAlone :
    aaabbc.status.err = false ∧ aaabbc.cfg = coded.cfg ∧ aaabbc.srcBytes = coded.srcBytes ∧
    (∃ t, exec .compress aaabbc = .next t) ∧ ∃ t, exec .compress coded = .next t := by
  obtain ⟨t, h, -⟩ := next_of_ends test_compress_example
  obtain ⟨u, hu, -⟩ := next_of_ends (o := exec .compress coded) (p := good) (by decide +kernel)
  exact ⟨rfl, rfl, rfl, ⟨t, h⟩, ⟨u, hu⟩⟩

theorem witness_MacroAgreesWithUnits :
    (aaabbc.status.err = false ∧ aaabbc.clearDerived = aaabbc ∧ aaabbc.srcLen ≠ 0 ∧
      ∃ t, exec .compress aaabbc = .next t ∧ Succeeded t) ∧
    (State.reset.clearDerived = State.reset ∧ State.reset.srcLen = 0 ∧
      ∃ t, exec .compress State.reset = .next t ∧ Succeeded t) ∧
    ((loaded container).clearDerived = loaded container ∧
      ∃ t, exec .decompress (loaded container) = .next t ∧ Succeeded t) := by
  obtain ⟨t, h1, g1⟩ := next_of_ends test_compress_example
  obtain ⟨t', h2, g2⟩ := next_of_ends test_compress_empty
  obtain ⟨t'', h3, g3⟩ := next_of_ends test_decompress_example
  simp only [Bool.and_eq_true] at g1 g2 g3
  exact ⟨⟨rfl, rfl, by decide, t, h1, succeeded_of_good g1.1⟩, ⟨rfl, rfl, t', h2, succeeded_of_good g2.1.1⟩,
    rfl, t'', h3, succeeded_of_good g3.1⟩

theorem witness_DecompressReadsTheContainer :
    let s := withCaps (loaded container) 22 6 2
    s.status.err = false ∧ s.srcBytes = layout s.cfg.magic [entryA, entryB, entryC] 7 [0x1F, 0x00] ∧
    ((∀ e ∈ [entryA, entryB, entryC], e.ok) ∧ ([entryA, entryB, entryC].map (·.sym)).Nodup ∧
      PrefixFree ([entryA, entryB, entryC].map (·.code))) ∧ (7 : Byte).toNat ≤ 7 ∧
    (([0x1F, 0x00] : List Byte) = [] → (7 : Byte) = 0) ∧ ([0x1F, 0x00] : List Byte).length ≤ s.cfg.payCap.toNat ∧
    (∀ x ∈ [entryA, entryA, entryA, entryB, entryB, entryC], x ∈ [entryA, entryB, entryC]) ∧
    [entryA, entryA, entryA, entryB, entryB, entryC].length ≤ s.cfg.dstCap.toNat ∧
    (bitsOf [0x1F, 0x00]).take (8 * ([0x1F, 0x00] : List Byte).length - (7 : Byte).toNat) =
      [entryA, entryA, entryA, entryB, entryB, entryC].flatMap (·.code) :=
  ⟨rfl, by decide +kernel, entries_ok, by decide, by decide, by decide, by decide, by decide, by decide⟩

theorem witness_DecompressFaults :
    State.reset.status.err = false ∧ faultOf (exec .decompress (loaded (container.set 15 3))) = none ∧
    faultOf (exec .decompress (loaded container.dropLast)) = some (2, 7, 2) := by decide +kernel

theorem witness_RoundTrip :
    aaabbc.status.err = false ∧ (loaded container).status.err = false ∧ (loaded container).cfg = aaabbc.cfg ∧
    (∃ t, exec .compress aaabbc = .next t ∧ ¬ (t.status.err = true ∧ t.err.kind = 4) ∧
      (loaded container).srcBytes = t.dstBytes) ∧
    ∃ v, exec .decompress (loaded container) = .next v ∧ ¬ (v.status.err = true ∧ v.err.kind = 4) := by
  obtain ⟨t, h, g⟩ := next_of_ends test_compress_example
  obtain ⟨v, hv, gv⟩ := next_of_ends test_decompress_example
  simp only [Bool.and_eq_true, beq_iff_eq] at g gv
  refine ⟨rfl, rfl, rfl, ⟨t, h, ?_, by rw [g.2]; decide +kernel⟩, v, hv, ?_⟩
  · rw [(succeeded_of_good g.1).2]; simp
  · rw [(succeeded_of_good gv.1).2]; simp

theorem witness_IdleHoldsTheState : State.reset.host = [] := rfl

theorem witness_RegisterReads (n : BitVec 4) : (before (.readReg n) State.reset).host = .readReg n :: [] := rfl

/-- The values a read gives at the ends of the register numbers (10_state.md R44). -/
theorem test_register_reads :
    [0, 1, 2, 3, 4, 5, 6, 7, 8, 9, 10, 15].map (readRegister
        { faulted with errInfo := 3, srcLen := 4, dstLen := 5, payLen := 6, pad := 7, nodeCnt := 65281 }) =
      [0, 2, 0x0325, 3, 4, 5, 6, 7, 0xFFFF, 65281, 0, 0] := by decide +kernel

theorem witness_RegisterWrites (n : BitVec 4) (v : Word) :
    (before (.writeReg n v) State.reset).host = .writeReg n v :: [] := rfl

/-- At the capacities and one above, PAD at 7 and 8, a read-only and a reserved register (10_state.md R43, R44). -/
theorem test_register_writes :
    let s := withCaps State.reset 6 5 4
    ends (step (before (.writeReg 4 6) s)) (fun t => t.srcLen == 6) = true ∧
    ends (step (before (.writeReg 4 7) s)) (fun t => t == s) = true ∧
    ends (step (before (.writeReg 6 4) s)) (fun t => t.payLen == 4) = true ∧
    ends (step (before (.writeReg 6 5) s)) (fun t => t == s) = true ∧
    ends (step (before (.writeReg 7 7) s)) (fun t => t.pad == 7) = true ∧
    ends (step (before (.writeReg 7 8) s)) (fun t => t == s) = true ∧
    ends (step (before (.writeReg 5 1) s)) (fun t => t == s) = true ∧
    ends (step (before (.writeReg 15 1) s)) (fun t => t == s) = true := by decide +kernel

theorem witness_WindowReads (a : WindowAddr) :
    (before (.readWindow a) built).host = .readWindow a :: [] ∧ TreeInv (before (.readWindow a) built) :=
  ⟨rfl, treeInv_built _ rfl rfl rfl⟩

/-- The last element below each length; the draws counter moves at the length only. -/
theorem test_window_reads :
    ends (step (before (.readWindow (.src 5)) aaabbc)) (fun t => t.reply == .byte 0x43 && t.draws == 0) = true ∧
    ends (step (before (.readWindow (.src 6)) aaabbc)) (fun t => t.draws == 1) = true ∧
    ends (step (before (.readWindow (.dst 0)) { built with dst := Buffer.writeBytes built.dst 0 [0x2B], dstLen := 1 }))
      (fun t => t.reply == .byte 0x2B && t.draws == 0) = true ∧
    ends (step (before (.readWindow (.dst 0)) built)) (fun t => t.draws == 1) = true ∧
    ends (step (before (.readWindow (.ft 0x42)) counted)) (fun t => t.reply == .word 2) = true ∧
    ends (step (before (.readWindow (.ct 0x42)) coded)) (fun t => t.reply == .code { len := 2, bits := 3 }) = true ∧
    ends (step (before (.readWindow (.pay 1)) (withPay built [0x1F, 0x2A] 7)))
      (fun t => t.reply == .byte 0x2A && t.draws == 0) = true ∧
    ends (step (before (.readWindow (.pay 2)) (withPay built [0x1F, 0x2A] 7))) (fun t => t.draws == 1) = true ∧
    ends (step (before (.readWindow (.node 4)) built))
      (fun t => t.reply == .record (NodeRec.internalOf 6 0 3) && t.draws == 0) = true ∧
    ends (step (before (.readWindow (.node 5)) built)) (fun t => t.draws == 1) = true := by decide +kernel

theorem witness_WindowWrites (w : WindowWrite) :
    (before (.writeWindow w) State.reset).host = .writeWindow w :: [] := rfl

/-- At the capacity minus one and at the capacity; DST and NODE (10_state.md R42, 20_memory.md R57). -/
theorem test_window_writes :
    let s := withCaps State.reset 6 5 4
    ends (step (before (.writeWindow (.src 5 1)) s)) (fun t => t.src.cells == [(5, 1)]) = true ∧
    ends (step (before (.writeWindow (.src 6 1)) s)) (fun t => t == s) = true ∧
    ends (step (before (.writeWindow (.pay 3 1)) s)) (fun t => t.pay.cells == [(3, 1)]) = true ∧
    ends (step (before (.writeWindow (.pay 4 1)) s)) (fun t => t == s) = true ∧
    ends (step (before (.writeWindow (.dst 0 1)) s)) (fun t => t == s) = true ∧
    ends (step (before (.writeWindow (.node 0 (NodeRec.leafOf 0 0))) s)) (fun t => t == s) = true ∧
    ends (step (before (.writeWindow (.ft 0xFF 9)) s))
        (fun t => tableGet t.ft 0xFF == 9 && tableGet t.ft 0 == 0) = true ∧
    ends (step (before (setCode 0x41 [true]) s)) (fun t => tableGet t.ct 0x41 == { len := 1, bits := 1 }) = true := by
  decide +kernel

/-- 30_encoding.md R90: the first and the last bit position of the field `bits`. -/
theorem witness_RecordFormats :
    (0 : Nat) < 256 ∧ (255 : Nat) < 256 ∧ (bitsOf (CtRec.mk 2 0b01).portBytes.tail)[0]? = some true := by decide

theorem witness_StepKeepsTheRegisters :
    RegInv (before (issue .freq) State.reset.cleared) ∧ ∃ t, step (before
        (issue .freq) State.reset.cleared) = .next t :=
  ⟨regInv_before _, ⟨_, rfl⟩⟩

theorem witness_StepKeepsTheTree :
    TreeInv (before (issue .gencode) built) ∧ ∃ t, step (before (issue .gencode) built) = .next t := by
  have h := next_of_ends (o := step (before (issue .gencode) built)) (p := good) (by decide +kernel)
  exact ⟨treeInv_built _ rfl rfl rfl, ⟨_, h.choose_spec.1⟩⟩

theorem witness_StepNeverStops : TreeInv (before (issue .decode) built) := treeInv_built _ rfl rfl rfl

theorem witness_StepKeepsTheParameters : ∃ t, step (before (issue .clr) aaabbc) = .next t := ⟨_, rfl⟩

end Sys2Proof.Tests
end

section
/-! PROOFS. 00_scope.md: the padding law. -/

namespace Sys2Proof.Proofs

open Sys2Proof.Machine Sys2Proof.Laws

theorem add_padCount_mod_eight (n : Nat) : (n + padCount n) % 8 = 0 := by
  rw [add_padCount, Nat.mul_mod_right]

/-- Settles O26: R14's formula is the model's definition of the count; the bound and the divisibility follow from the
laws of `padCount`. -/
theorem paddingLaw : Obligations.PaddingLaw := by
  unfold Obligations.PaddingLaw
  refine ⟨fun n => ⟨?formula, padCount_le n, add_padCount_mod_eight n⟩, ?residues, ?empty⟩
  case formula => rfl
  case residues => decide
  case empty => exact List.eq_nil_of_length_eq_zero (length_packBits [])

end Sys2Proof.Proofs
end

section
/-! PROOFS. 10_state.md: how a step ends, by inversion, and what it takes for every step to keep a predicate. -/

namespace Sys2Proof.Proofs

open Sys2Proof.Machine Sys2Proof.Safety Sys2Proof.Laws

/-- How the units of command `i` end when the protocol lets them run. -/
def unitRun (i : Instr) (s : State) : CmdEnd :=
  runUnits (unitsOf i (s.setDone false)) (startOf i (s.setDone false))

theorem eq_clr_of_encode {i : Instr} (h : encode i = encode .clr) : i = .clr :=
  by_contra fun hi => encode_ne_clr hi h

/-- The three ways a command answers: ignored, ended, a fault recorded (46_macro_control.md R184, R185). -/
theorem exec_cases {i : Instr} {s t : State} (h : exec i s = .next t) :
    (s.status.err = true ∧ i ≠ .clr ∧ t = s) ∨
    ((s.status.err = true → i = .clr) ∧ ∃ r, unitRun i s = .ended r ∧ t = r.setDone true) ∨
    ((s.status.err = true → i = .clr) ∧
      ∃ r u c k, unitRun i s = .raised r u c k ∧ t = r.takeFault (encode i) u c k) := by
  rw [exec_eq] at h
  rcases protocol_cases h with ⟨he, hop, ht⟩ | ⟨he, hr⟩ | ⟨he, hr⟩
  · exact .inl ⟨he, fun hi => hop (by rw [hi]), ht⟩
  · exact .inr (.inl ⟨fun e => eq_clr_of_encode (he e), hr⟩)
  · exact .inr (.inr ⟨fun e => eq_clr_of_encode (he e), hr⟩)

/-- A word written to CMD is a command's word or a reserved one (30_encoding.md R73). -/
theorem command_cases {w : Byte} {s t : State} (h : command w s = .next t) :
    (∃ i, exec i s = .next t) ∨
    ((∀ i, w ≠ encode i) ∧ (t = s ∨
      s.status.err = false ∧ t = (s.setDone false).takeFault w none .illegalCommand w.toNat)) := by
  unfold command at h
  cases hd : decodeWord w with
  | ok i => rw [hd] at h; exact .inl ⟨i, h⟩
  | error e =>
    rw [hd] at h
    simp only [execIllegal_eq w s (reserved_ne hd _), Host.Outcome.next.injEq] at h
    refine .inr ⟨reserved_ne hd, ?_⟩
    cases he : s.status.err with
    | true => exact .inl (by simpa [he] using h.symm)
    | false => exact .inr ⟨rfl, by simpa [he] using h.symm⟩

/-- A predicate every part of a step keeps. -/
structure StepInvariant (P : State → Prop) : Prop where
  taken : ∀ {s} rest, P s → P (s.taken rest)
  move : ∀ {s} m, P s → P (hostMove s m)
  done : ∀ {s} b, P s → P (s.setDone b)
  start : ∀ {s} i, P s → P (startOf i (s.setDone false))
  run : ∀ {u : UnitId} {s t}, P s → u.run s = .ok t → P t
  fault : ∀ {s} op u c k, P s → P (s.takeFault op u c k)

/-- Every command keeps a step invariant. -/
theorem StepInvariant.exec_keeps {P : State → Prop} (hP : StepInvariant P) {i : Instr} {s t : State} (hs : P s)
    (h : exec i s = .next t) : P t := by
  have hrun := runUnits_induct P (us := unitsOf i (s.setDone false)) (fun _ _ _ _ hp hr => hP.run hp hr)
    (hP.start i hs)
  rcases exec_cases h with ⟨-, -, rfl⟩ | ⟨-, r, hr, rfl⟩ | ⟨-, r, u, c, k, hr, rfl⟩
  · exact hs
  · rw [← unitRun, hr] at hrun
    exact hP.done true hrun
  · rw [← unitRun, hr] at hrun
    exact hP.fault _ u c k hrun.1

/-- Every step keeps a step invariant. -/
theorem StepInvariant.step_keeps {P : State → Prop} (hP : StepInvariant P) {s t : State} (hs : P s)
    (h : step s = .next t) : P t := by
  rcases step_cases s with ⟨-, hst⟩ | ⟨v, rest, -, hst⟩ | ⟨m, rest, -, -, hst⟩ <;> rw [hst] at h
  · cases h; exact hs
  · have hrest := hP.taken rest hs
    rcases command_cases h with ⟨i, hi⟩ | ⟨-, rfl | ⟨-, rfl⟩⟩
    · exact hP.exec_keeps hrest hi
    · exact hrest
    · exact hP.fault _ _ _ _ (hP.done false hrest)
  · cases h; exact hP.move m (hP.taken rest hs)

end Sys2Proof.Proofs
end

section
/-! PROOFS. 10_state.md R39, R46: the tree and the parameters. -/

namespace Sys2Proof.Proofs

open Sys2Proof.Machine Sys2Proof.Safety Sys2Proof.Laws

theorem hostMove_treeInv {s : State} (m : HostMove) (h : TreeInv s) : TreeInv (hostMove s m) := by
  by_cases hm : m = .reset
  · subst hm; exact treeInv_none rfl rfl rfl
  · have hf := hostMove_frame s hm
    exact treeInv_congr h hf.node hf.root hf.nodeCnt

/-- 10_state.md R39 is kept by every part of a step: BUILD and PARSE make a tree anew, whatever clears the tree leaves
none, everything else leaves NODE, ROOT and NODE_CNT alone. -/
theorem treeInv_stepInvariant : StepInvariant TreeInv where
  taken _ h := treeInv_congr h rfl rfl rfl
  move := hostMove_treeInv
  done _ h := treeInv_congr h rfl rfl rfl
  start := startOf_treeInv
  run := run_treeInv
  fault op u c k h := takeFault_treeInv h op u c k

/-- Settles O58. -/
theorem stepKeepsTheTree : Obligations.StepKeepsTheTree :=
  fun _ _ hs h => treeInv_stepInvariant.step_keeps hs h

theorem hostMove_cfg (s : State) (m : HostMove) : (hostMove s m).cfg = s.cfg := by
  by_cases hm : m = .reset
  · subst hm; rfl
  · exact (hostMove_frame s hm).cfg

theorem startOf_cfg (i : Instr) (s : State) : (startOf i s).cfg = s.cfg := by cases i <;> rfl

/-- The parameters have the value `c`: nothing in a step writes them (10_state.md R46). -/
theorem cfg_stepInvariant (c : Config) : StepInvariant fun s => s.cfg = c where
  taken _ h := h
  move m h := (hostMove_cfg _ m).trans h
  done _ h := h
  start i h := (startOf_cfg i _).trans h
  run h hr := (run_frame hr).cfg.trans h
  fault op u c k h := (takeFault_cfg _ op u c k).trans h

/-- Settles O60. -/
theorem stepKeepsTheParameters : Obligations.StepKeepsTheParameters :=
  fun s _ h => (cfg_stepInvariant s.cfg).step_keeps rfl h

end Sys2Proof.Proofs
end

section
/-! PROOFS. 10_state.md R24 to R29, 60_exceptions.md R216: the registers, in two parts. The memories and lengths are kept
by every part of a step; the fault record only by a command as a whole. -/

namespace Sys2Proof.Proofs

open Sys2Proof.Machine Sys2Proof.Safety Sys2Proof.Laws

/-! ### Memories and lengths -/

theorem setDone_memInv {s : State} (b : Bool) (h : MemInv s) : MemInv (s.setDone b) := { h with }

theorem hostMove_memInv {s : State} (m : HostMove) (h : MemInv s) : MemInv (hostMove s m) := by
  by_cases hm : m = .reset
  · subst hm; exact memInv_of_regInv (cleared_regInv s)
  · have hf := hostMove_frame s hm
    have hsrc : Memory.wf (hostMove s m).src.cells ∧ Memory.below (hostMove s m).src.cells s.cfg.srcCap.toNat := by
      rcases hf.src with e | ⟨a, v, ha, e⟩ <;> rw [e]
      · exact ⟨h.srcWf, h.srcRoom⟩
      · exact ⟨wf_write h.srcWf a v, below_write h.srcRoom ha v⟩
    have hpay : Memory.wf (hostMove s m).pay.cells ∧ Memory.below (hostMove s m).pay.cells s.cfg.payCap.toNat := by
      rcases hf.pay with e | ⟨a, v, ha, e⟩ <;> rw [e]
      · exact ⟨h.payWf, h.payRoom⟩
      · exact ⟨wf_write h.payWf a v, below_write h.payRoom ha v⟩
    constructor
    case srcWf => exact hsrc.1
    case srcRoom => rw [hf.cfg]; exact hsrc.2
    case srcLen => rw [hf.cfg]; exact hf.srcLen.elim (fun e => e ▸ h.srcLen) id
    case payWf => exact hpay.1
    case payRoom => rw [hf.cfg]; exact hpay.2
    case payLen => rw [hf.cfg]; exact hf.payLen.elim (fun e => e ▸ h.payLen) id
    case dstWf => rw [hf.dst]; exact h.dstWf
    case dstRoom => rw [hf.dst, hf.cfg]; exact h.dstRoom
    case dstLen => rw [hf.dstLen, hf.cfg]; exact h.dstLen

theorem clearDerived_memInv {s : State} (h : MemInv s) : MemInv s.clearDerived :=
  { h with dstLen := Nat.zero_le _, payLen := Nat.zero_le _ }

theorem startOf_memInv {s : State} (i : Instr) (h : MemInv s) : MemInv (startOf i s) := by
  cases i
  case clr => exact memInv_of_regInv (cleared_regInv s)
  case compress => exact clearDerived_memInv h
  case decompress => exact clearDerived_memInv h
  all_goals exact h

theorem memInv_stepInvariant : StepInvariant MemInv where
  taken _ h := { h with }
  move := hostMove_memInv
  done := setDone_memInv
  start i h := startOf_memInv i (setDone_memInv false h)
  run := run_memInv
  fault op u c k h := takeFault_memInv h op u c k

/-! ### The fault record -/

/-- The part of `RegInv` that speaks of the flags and of a recorded fault. -/
structure FaultRecord (s : State) : Prop where
  flags : ¬ (s.status.done = true ∧ s.status.err = true)
  kind : s.err.kind ≠ 0 ↔ s.status.err = true
  clean : s.status.err = false → s.err = { kind := 0, sub := 0, op := 0 } ∧ s.errInfo = 0
  noOutput : s.status.err = true →
    s.err.op ∈ [encode .frame, encode .decode, encode .compress, encode .decompress] → s.dstLen = 0

theorem faultRecord_of_regInv {s : State} (h : RegInv s) : FaultRecord s := { h with }

theorem regInv_of_parts {s : State} (hm : MemInv s) (hf : FaultRecord s) : RegInv s := { hm, hf with }

theorem faultRecord_congr {s t : State} (h : FaultRecord s) (h1 : t.status = s.status) (h2 : t.err = s.err)
    (h3 : t.errInfo = s.errInfo) (h4 : t.dstLen = s.dstLen) : FaultRecord t := by
  constructor
  · rw [h1]; exact h.flags
  · rw [h1, h2]; exact h.kind
  · rw [h1, h2, h3]; exact h.clean
  · rw [h1, h2, h4]; exact h.noOutput

/-- No fault is recorded (10_state.md R24 to R26). -/
def NoFault (s : State) : Prop :=
  s.status.err = false ∧ s.err = { kind := 0, sub := 0, op := 0 } ∧ s.errInfo = 0

theorem faultRecord_of_noFault {s : State} (h : NoFault s) : FaultRecord s := by
  obtain ⟨he, hreg, hinfo⟩ := h
  constructor <;> simp [he, hreg, hinfo]

theorem noFault_of_inFrame {s t : State} (h : InFrame s t) (hs : NoFault s) : NoFault t := by
  obtain ⟨-, -, -, -, -, -, herr, hinfo, hflag⟩ := h
  exact ⟨hflag.trans hs.1, herr.trans hs.2.1, hinfo.trans hs.2.2⟩

/-- The units of a command start without a recorded fault: CLR has cleared it, any other command would have been
ignored (46_macro_control.md R184). -/
theorem startOf_noFault {i : Instr} {s : State} (h : FaultRecord s) (he : s.status.err = true → i = .clr) :
    NoFault (startOf i (s.setDone false)) := by
  by_cases hi : i = .clr
  · subst hi; exact ⟨rfl, rfl, rfl⟩
  · have he' : s.status.err = false := by simpa using mt he hi
    exact noFault_of_inFrame (start_frame hi) ⟨he', h.clean he'⟩

theorem startOf_done (i : Instr) (s : State) : (startOf i (s.setDone false)).status.done = false := by
  cases i <;> rfl

/-! ### No output after a fault of a command that writes DST -/

theorem clearDest_dstLen_eq_zero {s : State} {u : Option UnitId}
    (h : s.dstLen = 0 ∨ u = some .frame ∨ u = some .decode) : (s.clearDest u).dstLen = 0 := by
  rcases h with h | rfl | rfl
  · rcases u with _ | u
    · exact h
    · cases u
      case frame => rfl
      case decode => rfl
      all_goals exact h
  · rfl
  · rfl

theorem raised_unit_mem {us : List UnitId} {s r : State} {u : Option UnitId} {c : FaultCause} {k : Nat}
    (h : runUnits us s = .raised r u c k) : ∃ v ∈ us, u = some v := by
  have := runUnits_induct (fun _ => True) (us := us) (s := s) (fun _ _ _ _ _ _ => trivial) trivial
  rw [h] at this
  obtain ⟨-, v, hv, hu, -⟩ := this
  exact ⟨v, hv, hu⟩

/-- Where only the last unit writes DST_LEN, no unit before it makes a cleared DST_LEN other than 0, and a fault of the
last one clears it. -/
theorem raised_dstLen_eq_zero {us : List UnitId} (hus : ∀ u ∈ us.dropLast, u ≠ .frame ∧ u ≠ .decode) {s r : State}
    (hs : s.dstLen = 0) {u : Option UnitId} {c : FaultCause} {k : Nat} (h : runUnits us s = .raised r u c k) :
    (r.clearDest u).dstLen = 0 := by
  induction us generalizing s with
  | nil => cases h
  | cons v us ih =>
    rw [runUnits] at h
    cases hv : v.run s with
    | error e =>
      rw [hv] at h
      cases e with
      | raise c' k' => cases h; exact clearDest_dstLen_eq_zero (.inl hs)
      | stuck f => cases h
    | ok t =>
      rw [hv] at h
      cases us with
      | nil => cases h
      | cons w ws =>
        obtain ⟨hframe, hdecode⟩ := hus v (by simp)
        have ht : t.dstLen = 0 := ((run_frame hv).output hframe hdecode).2.trans hs
        exact ih (fun x hx => hus x (by simp [hx])) ht h

/-- The commands that write DST. -/
def writesDst : List Instr := [.frame, .decode, .compress, .decompress]

theorem mem_writesDst_of_encode {i : Instr} (h : encode i ∈ writesDst.map encode) : i ∈ writesDst := by
  revert h
  cases i <;> decide

theorem compressUnits_dropLast (s : State) : ∀ u ∈ (compressUnits s).dropLast, u ≠ .frame ∧ u ≠ .decode := by
  unfold compressUnits
  split <;> decide

/-- 60_exceptions.md R216. -/
theorem unitRun_raised_dstLen {i : Instr} (hi : i ∈ writesDst) {s r : State} {u : Option UnitId} {c : FaultCause}
    {k : Nat} (h : unitRun i s = .raised r u c k) : (r.clearDest u).dstLen = 0 := by
  simp only [writesDst, List.mem_cons, List.not_mem_nil, or_false] at hi
  rcases hi with rfl | rfl | rfl | rfl
  case inl =>
    obtain ⟨v, hv, rfl⟩ := raised_unit_mem h
    exact clearDest_dstLen_eq_zero (.inr (.inl (congrArg some (List.mem_singleton.mp hv))))
  case inr.inl =>
    obtain ⟨v, hv, rfl⟩ := raised_unit_mem h
    exact clearDest_dstLen_eq_zero (.inr (.inr (congrArg some (List.mem_singleton.mp hv))))
  case inr.inr.inl => exact raised_dstLen_eq_zero (compressUnits_dropLast _) rfl h
  case inr.inr.inr => exact raised_dstLen_eq_zero (us := [.parse, .decode]) (by decide) rfl h

/-! ### Commands and steps -/

/-- Fault entry from a state with DONE clear records one consistent fault. -/
theorem takeFault_faultRecord {s : State} {op : Byte} {u : Option UnitId} (c : FaultCause) (k : Nat)
    (hd : s.status.done = false) (hout : op ∈ writesDst.map encode → (s.clearDest u).dstLen = 0) :
    FaultRecord (s.takeFault op u c k) where
  flags := by simp [hd]
  kind := by simpa using kind_ne_zero c
  clean := by simp
  noOutput _ hop := hout hop

theorem exec_faultRecord {i : Instr} {s t : State} (hs : FaultRecord s) (h : exec i s = .next t) : FaultRecord t := by
  rcases exec_cases h with ⟨-, -, rfl⟩ | ⟨he, r, hr, rfl⟩ | ⟨-, r, u, c, k, hr, rfl⟩
  case inl => exact hs
  case inr.inl =>
    have hframe := units_frame (unitsOf i (s.setDone false)) (startOf i (s.setDone false))
    rw [← unitRun, hr] at hframe
    exact faultRecord_of_noFault (noFault_of_inFrame hframe (startOf_noFault hs he))
  case inr.inr =>
    have hflags := runUnits_flags (unitsOf i (s.setDone false)) (startOf i (s.setDone false))
    rw [← unitRun, hr] at hflags
    exact takeFault_faultRecord c k (hflags.1.trans (startOf_done i s))
      fun hop => unitRun_raised_dstLen (mem_writesDst_of_encode hop) hr

theorem command_faultRecord {w : Byte} {s t : State} (hs : FaultRecord s) (h : command w s = .next t) :
    FaultRecord t := by
  rcases command_cases h with ⟨i, hi⟩ | ⟨hw, rfl | ⟨-, rfl⟩⟩
  · exact exec_faultRecord hs hi
  · exact hs
  · refine takeFault_faultRecord _ _ rfl fun hop => ?_
    obtain ⟨i, -, hi⟩ := List.mem_map.mp hop
    exact absurd hi.symm (hw i)

theorem hostMove_faultRecord {s : State} (m : HostMove) (h : FaultRecord s) : FaultRecord (hostMove s m) := by
  by_cases hm : m = .reset
  · subst hm; exact faultRecord_of_regInv (cleared_regInv s)
  · have hf := hostMove_frame s hm
    exact faultRecord_congr h hf.status hf.err hf.errInfo hf.dstLen

theorem step_faultRecord {s t : State} (hs : FaultRecord s) (h : step s = .next t) : FaultRecord t := by
  have htaken : ∀ rest, FaultRecord (s.taken rest) := fun _ => faultRecord_congr hs rfl rfl rfl rfl
  rcases step_cases s with ⟨-, hst⟩ | ⟨v, rest, -, hst⟩ | ⟨m, rest, -, -, hst⟩ <;> rw [hst] at h
  · cases h; exact hs
  · exact command_faultRecord (htaken rest) h
  · cases h; exact hostMove_faultRecord m (htaken rest)

/-- Settles O57. -/
theorem stepKeepsTheRegisters : Obligations.StepKeepsTheRegisters := fun _ _ hs h =>
  regInv_of_parts (memInv_stepInvariant.step_keeps (memInv_of_regInv hs) h)
    (step_faultRecord (faultRecord_of_regInv hs) h)

/-- Settles O56. -/
theorem resetMeetsTheInvariants : Obligations.ResetMeetsTheInvariants :=
  ⟨regInv_of_parts reset_memInv (faultRecord_of_noFault ⟨rfl, rfl, rfl⟩), treeInv_none rfl rfl rfl⟩

/-- Settles O9. -/
theorem resetValues : Obligations.ResetValues :=
  ⟨rfl, rfl, rfl, rfl, rfl, rfl, rfl, rfl, rfl, tableGet_emptyFreq, tableGet_emptyCode⟩

end Sys2Proof.Proofs
end

section
/-! PROOFS. 10_state.md R23, R27, R30; 46_macro_control.md R180, R181: what a CMD write runs and what a command leaves. -/

namespace Sys2Proof.Proofs

open Sys2Proof.Machine Sys2Proof.Safety Sys2Proof.Laws

theorem command_of_decode {w : Byte} {i : Instr} (s : State) (h : decodeWord w = .ok i) :
    command w s = exec i s := by simp only [command, h]

theorem command_of_reserved {w : Byte} {e : IllegalWord} (s : State) (h : decodeWord w = .error e) :
    command w s = execIllegal w s := by simp only [command, h]

/-- Settles O4. -/
theorem stepRunsDecodedCommand : Obligations.StepRunsDecodedCommand := by
  intro s v rest h
  have hst : step s = command (cmdByte v) (s.taken rest) := step_command h
  exact ⟨fun i hi _ => hst.trans (command_of_decode _ hi), fun e he => hst.trans (command_of_reserved _ he), hst⟩

theorem sameInput_of_inFrame {s t : State} (h : InFrame s t) : SameInput s t := by
  obtain ⟨hsrc, hlen, -⟩ := h
  exact ⟨hlen, fun a => by simp only [readByte, hsrc]⟩

theorem sameModel_of_inFrame {s t : State} (h : InFrame s t) : SameModel s t := by
  obtain ⟨-, -, hcfg, hhost, hreply, hdraws, -⟩ := h
  exact ⟨hcfg, hhost, hreply, hdraws⟩

theorem sameFault_of_inFrame {s t : State} (h : InFrame s t) : SameFault s t := by
  obtain ⟨-, -, -, -, -, -, herr, hinfo, hflag⟩ := h
  exact ⟨hflag, herr, hinfo⟩

/-- A command other than CLR changes nothing of `InFrame` but, where it records a fault, the fault registers. -/
theorem exec_inFrame {i : Instr} {s t : State} (hi : i ≠ .clr) (h : exec i s = .next t) :
    InFrame s t ∨ ∃ r u c k, InFrame s r ∧ t = r.takeFault (encode i) u c k := by
  have hframe := units_frame (unitsOf i (s.setDone false)) (startOf i (s.setDone false))
  rcases exec_cases h with ⟨-, -, rfl⟩ | ⟨-, r, hr, rfl⟩ | ⟨-, r, u, c, k, hr, rfl⟩
  · exact .inl ⟨rfl, rfl, rfl, rfl, rfl, rfl, rfl, rfl, rfl⟩
  · rw [← unitRun, hr] at hframe
    exact .inl (inFrame_trans (start_frame hi) hframe)
  · rw [← unitRun, hr] at hframe
    exact .inr ⟨r, u, c, k, inFrame_trans (start_frame hi) hframe, rfl⟩

theorem exec_sameInput_sameModel {i : Instr} {s t : State} (hi : i ≠ .clr) (h : exec i s = .next t) :
    SameInput s t ∧ SameModel s t := by
  rcases exec_inFrame hi h with hf | ⟨r, u, c, k, hf, rfl⟩
  · exact ⟨sameInput_of_inFrame hf, sameModel_of_inFrame hf⟩
  · have hin := sameInput_of_inFrame hf
    have hmod := sameModel_of_inFrame hf
    simpa [SameInput, SameModel, readByte] using And.intro hin hmod

/-- FT and EMPTY as step 1 of DECOMPRESS leaves them. -/
def FreqCleared (s : State) : Prop := s.ft = emptyFreqTable ∧ s.status.empty = false

/-- Only FREQ writes FT and EMPTY, so they stay as step 1 of DECOMPRESS clears them (46_macro_control.md R181). -/
theorem exec_decompress_freqCleared {s t : State} (he : s.status.err = false) (h : exec .decompress s = .next t) :
    FreqCleared t := by
  have hstep : ∀ u ∈ [UnitId.parse, UnitId.decode], ∀ a b, FreqCleared a → u.run a = .ok b → FreqCleared b := by
    intro u hu a b ⟨hft, hempty⟩ hr
    obtain ⟨hft', hst⟩ := (run_frame hr).freq (by rintro rfl; simp at hu)
    exact ⟨hft'.trans hft, by rw [hst]; exact hempty⟩
  have hrun := runUnits_induct FreqCleared hstep (s := startOf .decompress (s.setDone false)) ⟨rfl, rfl⟩
  rcases exec_cases h with ⟨he', -⟩ | ⟨-, r, hr, rfl⟩ | ⟨-, r, u, c, k, hr, rfl⟩
  · rw [he] at he'; cases he'
  · rw [unitRun, unitsOf] at hr
    rw [hr] at hrun
    exact hrun
  · rw [unitRun, unitsOf] at hr
    rw [hr] at hrun
    simpa [FreqCleared] using hrun.1

/-- Settles O16. -/
theorem macroFrame : Obligations.MacroFrame := by
  refine ⟨fun _ _ _ hi h => exec_sameInput_sameModel hi h, fun s t he h => ?decompress, fun i s t hi h ht => ?fault⟩
  case decompress =>
    obtain ⟨hft, hempty⟩ := exec_decompress_freqCleared he h
    exact ⟨fun b => by rw [hft]; exact tableGet_emptyFreq b, hempty⟩
  case fault =>
    rcases exec_inFrame hi h with hf | ⟨r, u, c, k, -, rfl⟩
    · exact sameFault_of_inFrame hf
    · simp at ht

end Sys2Proof.Proofs
end

section
/-! PROOFS. 10_state.md R23 to R29, R35, R37, R42 to R44; 20_memory.md R57, R62: the host's reads and writes. -/

namespace Sys2Proof.Proofs

open Sys2Proof.Machine Sys2Proof.Safety Sys2Proof.Laws

/-! ### Register reads -/

/-- 10_state.md R24. -/
theorem status_word_bits (f : Status) :
    f.word.getLsbD 0 = f.done ∧ f.word.getLsbD 1 = f.err ∧ f.word.getLsbD 2 = f.empty ∧
      ∀ i, 3 ≤ i → f.word.getLsbD i = false := by
  obtain ⟨done, err, empty⟩ := f
  have hlow : (Status.word ⟨done, err, empty⟩).getLsbD 0 = done ∧ (Status.word ⟨done, err, empty⟩).getLsbD 1 = err ∧
      (Status.word ⟨done, err, empty⟩).getLsbD 2 = empty ∧ (Status.word ⟨done, err, empty⟩).toNat < 2 ^ 3 := by
    revert done err empty
    decide
  obtain ⟨h0, h1, h2, hlt⟩ := hlow
  exact ⟨h0, h1, h2, fun i hi => Nat.testBit_lt_two_pow (hlt.trans_le (Nat.pow_le_pow_right (by decide) hi))⟩

/-- The bits of ERR on the host port: KIND, then SUB, then OP, then zeros (10_state.md R25). -/
theorem err_word_getLsbD (e : ErrReg) (i : Nat) : e.word.getLsbD i =
    if i < 4 then e.kind.getLsbD i else if i < 8 then e.sub.getLsbD (i - 4) else e.op.getLsbD (i - 8) := by
  have happend : (e.op ++ e.sub ++ e.kind).getLsbD i =
      if i < 4 then e.kind.getLsbD i else if i < 8 then e.sub.getLsbD (i - 4) else e.op.getLsbD (i - 8) := by
    simp only [BitVec.getLsbD_append]
    grind
  have hword : e.word.getLsbD i = (decide (i < 32) && (e.op ++ e.sub ++ e.kind).getLsbD i) :=
    BitVec.getLsbD_setWidth ..
  rw [hword, happend]
  by_cases hi : i < 32
  · simp [hi]
  · have hop : e.op.getLsbD (i - 8) = false := BitVec.getLsbD_of_ge _ _ (by omega)
    simp [hi, hop, show ¬ i < 4 by omega, show ¬ i < 8 by omega]

/-- 10_state.md R25. -/
theorem err_word_fields (e : ErrReg) :
    e.word.extractLsb' 0 4 = e.kind ∧ e.word.extractLsb' 4 4 = e.sub ∧ e.word.extractLsb' 8 8 = e.op ∧
      e.word.extractLsb' 16 16 = 0 := by
  refine ⟨?kind, ?sub, ?op, ?rest⟩ <;> apply BitVec.eq_of_getLsbD_eq <;> intro i hi <;>
    rw [BitVec.getLsbD_extractLsb', err_word_getLsbD]
  case kind => simp [hi]
  case sub => simp [hi, show 4 + i < 8 by omega]
  case op => simp [hi, show ¬ 8 + i < 4 by omega]
  case rest =>
    have hop : e.op.getLsbD (16 + i - 8) = false := BitVec.getLsbD_of_ge _ _ (by omega)
    simp [hop, show ¬ 16 + i < 4 by omega, show ¬ 16 + i < 8 by omega]

/-- CMD and the reserved numbers (10_state.md R23, R44). -/
theorem readRegister_zero (s : State) {n : BitVec 4} (h : n = 0 ∨ 10 ≤ n.toNat) : readRegister s n = 0 := by
  unfold readRegister
  split
  case h_10 => rfl
  all_goals
    rename_i hv
    rcases h with rfl | h
    · cases hv
    · omega

/-- Settles O51. -/
theorem registerReads : Obligations.RegisterReads := by
  intro s n rest h
  refine ⟨readRegister (s.taken rest) n, step_move h (fun _ => HostMove.noConfusion), readRegister_zero _,
    ?_, ?_, ?_, ?_, ?_, ?_, ?_, ?_, ?_⟩ <;> rintro rfl
  · exact status_word_bits s.status
  · exact err_word_fields s.err
  · rfl
  · rfl
  · rfl
  · rfl
  · exact BitVec.toNat_setWidth_of_le (by decide)
  · exact BitVec.toNat_setWidth_of_le (by decide)
  · exact BitVec.toNat_setWidth_of_le (by decide)

/-! ### Register writes -/

/-- 10_state.md R43, with the three writable registers told apart by number. -/
theorem writeRegister_eq (s : State) (n : BitVec 4) (v : Word) : writeRegister s n v =
    if n = 4 ∧ v.toNat ≤ s.cfg.srcCap.toNat then { s with srcLen := v }
    else if n = 6 ∧ v.toNat ≤ s.cfg.payCap.toNat then { s with payLen := v }
    else if n = 7 ∧ v.toNat ≤ 7 then { s with pad := v.setWidth 3 }
    else s := by
  by_cases h4 : n = 4
  · subst h4; simp [writeRegister]
  by_cases h6 : n = 6
  · subst h6; simp [writeRegister]
  by_cases h7 : n = 7
  · subst h7; simp [writeRegister]
  have e4 : n.toNat ≠ 4 := fun e => h4 (BitVec.eq_of_toNat_eq e)
  have e6 : n.toNat ≠ 6 := fun e => h6 (BitVec.eq_of_toNat_eq e)
  have e7 : n.toNat ≠ 7 := fun e => h7 (BitVec.eq_of_toNat_eq e)
  simp only [h4, h6, h7, false_and, if_false]
  unfold writeRegister
  split
  · exact absurd ‹_› e4
  · exact absurd ‹_› e6
  · exact absurd ‹_› e7
  · rfl

/-- Settles O52. -/
theorem registerWrites : Obligations.RegisterWrites := by
  intro s n v rest h hn
  have hst := step_move h fun v' e => hn (HostMove.writeReg.inj e).1
  rw [hst]
  exact congrArg Host.Outcome.next (writeRegister_eq (s.taken rest) n v)

/-! ### Window writes -/

theorem step_writeWindow {s : State} {w : WindowWrite} {rest : List HostMove} (h : s.host = .writeWindow w :: rest) :
    step s = .next (writeWindow (s.taken rest) w) := step_move h (fun _ => HostMove.noConfusion)

/-- A write the capacity guards, read back at any address (20_memory.md R57). -/
theorem read_write_below (b : Buffer) (which : BufferId) (off cap a : Nat) (v : Byte) :
    (if off < cap then b.write off v else b).read which a = if a = off ∧ a < cap then v else b.read which a := by
  by_cases hoff : off < cap
  · rw [if_pos hoff, read_write]
    by_cases ha : a = off
    · rw [if_pos ha.symm, if_pos ⟨ha, ha ▸ hoff⟩]
    · rw [if_neg (Ne.symm ha), if_neg fun h => ha h.1]
  · rw [if_neg hoff, if_neg]
    rintro ⟨rfl, ha⟩
    exact hoff ha

theorem writeWindow_src (s : State) (off : Word) (v : Byte) : writeWindow s (.src off v) =
    { s with src := if off.toNat < s.cfg.srcCap.toNat then s.src.write off.toNat v else s.src } := by
  simp only [writeWindow]; split <;> rfl

theorem writeWindow_pay (s : State) (off : Word) (v : Byte) : writeWindow s (.pay off v) =
    { s with pay := if off.toNat < s.cfg.payCap.toNat then s.pay.write off.toNat v else s.pay } := by
  simp only [writeWindow]; split <;> rfl

theorem tableGet_tableSet {α : Type} (t : Vector α 256) (b x : Byte) (v : α) :
    tableGet (tableSet t b v) x = if x = b then v else tableGet t x := by
  rw [tableGet_set]; simp only [eq_comm]

/-- Settles O54. -/
theorem windowWrites : Obligations.WindowWrites := by
  intro s w rest h
  refine ⟨_, step_writeWindow h, ?_⟩
  cases w with
  | src off v => rw [writeWindow_src]; exact ⟨rfl, fun a => read_write_below s.src .src _ _ a v⟩
  | pay off v => rw [writeWindow_pay]; exact ⟨rfl, fun a => read_write_below s.pay .pay _ _ a v⟩
  | ft b v => exact ⟨rfl, fun x => tableGet_tableSet s.ft b x v⟩
  | ct b v => exact ⟨rfl, fun x => tableGet_tableSet s.ct b x v⟩
  | dst off v => rfl
  | node i v => rfl

end Sys2Proof.Proofs
end

section
/-! PROOFS. 20_memory.md R57, 70_reset_and_hazards.md R241: the host's window reads. -/

namespace Sys2Proof.Proofs

open Sys2Proof.Machine Sys2Proof.Safety Sys2Proof.Laws

theorem step_readWindow {s : State} {a : WindowAddr} {rest : List HostMove} (h : s.host = .readWindow a :: rest) :
    step s = .next (readWindow (s.taken rest) a) := step_move h (fun _ => HostMove.noConfusion)

/-- A read of a byte window whose element is `v` and whose meaningful length is `len` (20_memory.md R57). -/
theorem read_byte_or_drawn (s : State) (off len : Nat) (v : Byte) :
    ∃ r d, (if off < len then { s with reply := .byte v } else drawnByte s) = { s with reply := r, draws := d } ∧
      if off < len then r = .byte v ∧ d = s.draws
      else r = .byte (Config.drawByte s.draws) ∧ d = s.draws + 1 := by
  by_cases hoff : off < len
  · simp only [if_pos hoff]
    exact ⟨_, _, rfl, rfl, rfl⟩
  · simp only [if_neg hoff]
    exact ⟨_, _, rfl, rfl, rfl⟩

/-- NODE_CNT is the number of records in use, so below it there is a record (10_state.md R35). -/
theorem exists_node_of_lt {s : State} (hs : TreeInv s) {i : Nat} (hi : i < s.nodeCnt.toNat) :
    ∃ n, s.node[i]? = some n :=
  ⟨_, List.getElem?_eq_getElem (hs.count ▸ hi)⟩

theorem readWindow_node_below {s : State} {i : NodeIdx} {n : NodeRec} (hi : i.toNat < s.nodeCnt.toNat)
    (hn : s.node[i.toNat]? = some n) : readWindow s (.node i) = { s with reply := .record n } := by
  simp only [readWindow, if_pos hi, hn]

theorem readWindow_node_above {s : State} {i : NodeIdx} (hi : ¬ i.toNat < s.nodeCnt.toNat) :
    readWindow s (.node i) = drawnNode s := if_neg hi

/-- Settles O53. For NODE the invariant rules out a record missing below NODE_CNT. -/
theorem windowReads : Obligations.WindowReads := by
  intro s a rest h hs
  rw [step_readWindow h]
  cases a with
  | src off =>
    obtain ⟨r, d, hr, hrd⟩ := read_byte_or_drawn (s.taken rest) off.toNat s.srcLen.toNat (readByte s .src off.toNat)
    exact ⟨r, d, congrArg Host.Outcome.next hr, hrd⟩
  | dst off =>
    obtain ⟨r, d, hr, hrd⟩ := read_byte_or_drawn (s.taken rest) off.toNat s.dstLen.toNat (readByte s .dst off.toNat)
    exact ⟨r, d, congrArg Host.Outcome.next hr, hrd⟩
  | pay off =>
    obtain ⟨r, d, hr, hrd⟩ := read_byte_or_drawn (s.taken rest) off.toNat s.payLen.toNat (readByte s .pay off.toNat)
    exact ⟨r, d, congrArg Host.Outcome.next hr, hrd⟩
  | ft b => exact ⟨_, _, rfl, rfl, rfl⟩
  | ct b => exact ⟨_, _, rfl, rfl, rfl⟩
  | node i =>
    by_cases hi : i.toNat < s.nodeCnt.toNat
    · obtain ⟨n, hn⟩ := exists_node_of_lt hs hi
      rw [readWindow_node_below (s := s.taken rest) hi hn]
      simp only [if_pos hi]
      exact ⟨_, _, rfl, ⟨n, hn, rfl⟩, rfl⟩
    · rw [readWindow_node_above (s := s.taken rest) hi]
      simp only [if_neg hi]
      exact ⟨_, _, rfl, rfl, rfl⟩

end Sys2Proof.Proofs
end

section
/-! PROOFS. 30_encoding.md R70 to R73: the command words. -/

namespace Sys2Proof.Proofs

open Sys2Proof.Laws

/-- The law of `Laws/PerInstr.lean`, for a command given by a variable. -/
theorem encoding_statement (i : Instr) : Encoding.Statement i :=
  match i with
  | .clr => Encoding.clr
  | .freq => Encoding.freq
  | .build => Encoding.build
  | .gencode => Encoding.gencode
  | .encode => Encoding.encode
  | .frame => Encoding.frame
  | .parse => Encoding.parse
  | .decode => Encoding.decode
  | .compress => Encoding.compress
  | .decompress => Encoding.decompress

theorem decodeOpc_encodeOpc (i : Instr) : decodeOpc (encodeOpc i) = some i := by cases i <;> rfl

theorem decodeWord_encode (i : Instr) : decodeWord (encode i) = .ok i := by
  obtain ⟨hzero, hopc, -, -⟩ := encoding_statement i
  simp [decodeWord, hzero, hopc, decodeOpc_encodeOpc]

/-- The words that are not reserved are the words 0 to 9 (30_encoding.md R73). -/
theorem wellFormed_iff_le_nine (b : Byte) : CmdWord.wellFormed b = true ↔ b.toNat ≤ 9 := by
  have hzero : CmdWord.zeroOk b = true ↔ b.toNat < 16 := by
    simp only [CmdWord.zeroOk, CmdWord.zero, beq_iff_eq, ← BitVec.toNat_inj, BitVec.extractLsb'_toNat,
      Nat.shiftRight_eq_div_pow, BitVec.ofNat_eq_ofNat, BitVec.toNat_ofNat]
    omega
  have hopc : CmdWord.opcOk b = true ↔ b.toNat % 16 ≤ 9 := by
    rw [CmdWord.opcOk, decide_eq_true_iff]
    simp [CmdWord.opc]
  rw [CmdWord.wellFormed, Bool.and_eq_true, hzero, hopc]
  omega

theorem wellFormed_of_decode {b : Byte} {i : Instr} (h : decodeWord b = .ok i) : CmdWord.wellFormed b = true := by
  obtain ⟨-, -, hwf, -⟩ := encoding_statement i
  rwa [encode_of_decode h]

/-- Both checks of R73 passed, the opcode map R72 has a row for the word. -/
theorem exists_decode_of_wellFormed {b : Byte} (h : CmdWord.wellFormed b = true) : ∃ i, decodeWord b = .ok i := by
  obtain ⟨hzero, hopc⟩ : CmdWord.zeroOk b = true ∧ CmdWord.opcOk b = true := by
    simpa [CmdWord.wellFormed] using h
  have hrow : ∀ opc : BitVec 4, opc.toNat ≤ 9 → ∃ i, decodeOpc opc = some i := by
    simp only [← Option.isSome_iff_exists]
    decide
  obtain ⟨i, hi⟩ := hrow (CmdWord.opc b) (of_decide_eq_true hopc)
  exact ⟨i, by simp [decodeWord, eq_of_beq hzero, hi]⟩

/-- Settles O1. -/
theorem decodeInvertsEncode : Obligations.DecodeInvertsEncode := fun i _ => decodeWord_encode i

/-- Settles O2: a word decodes exactly when it passes the two checks of a well-formed word. -/
theorem decodeAcceptsExactlyTenWords : Obligations.DecodeAcceptsExactlyTenWords := by
  refine fun b => ⟨?accepted, fun _ => encode_of_decode⟩
  case accepted =>
    rw [← wellFormed_iff_le_nine]
    exact ⟨fun ⟨_, h⟩ => wellFormed_of_decode h, exists_decode_of_wellFormed⟩

/-- Settles O3: the ten words are the commands' own, and the two reserved words are evaluated. -/
theorem specWordsDecode : Obligations.SpecWordsDecode :=
  ⟨decodeWord_encode .clr, decodeWord_encode .freq, decodeWord_encode .build, decodeWord_encode .gencode,
    decodeWord_encode .encode, decodeWord_encode .frame, decodeWord_encode .parse, decodeWord_encode .decode,
    decodeWord_encode .compress, decodeWord_encode .decompress, by decide, by decide⟩

end Sys2Proof.Proofs
end

section
/-! PROOFS. 30_encoding.md R90 to R92: the record formats on the host port. -/

namespace Sys2Proof.Proofs

open Sys2Proof.Machine Sys2Proof.Laws

theorem length_portBytes_ctRec (r : CtRec) : r.portBytes.length = 33 := by simp [CtRec.portBytes]

/-- The field `bits` on the port, unpacked, is its 256 bit positions in order (30_encoding.md R90). -/
theorem bitsOf_portBytes_tail (r : CtRec) : bitsOf r.portBytes.tail = (List.range 256).map r.bits.getLsbD :=
  bitsOf_map_range r.bits.getLsbD 32

theorem portBytes_nodeRec (r : NodeRec) : r.portBytes = [if r.kind = .internal then 1 else 0, r.sym] ++
    beBytes 5 r.freq.toNat ++ beBytes 2 r.left.toNat ++ beBytes 2 r.right.toNat ++ [0] := by
  obtain ⟨kind, sym, freq, left, right⟩ := r
  cases kind <;> rfl

theorem portBytes_freq (r : NodeRec) : (r.portBytes.drop 2).take 5 = beBytes 5 r.freq.toNat := rfl

theorem portBytes_left (r : NodeRec) : (r.portBytes.drop 7).take 2 = beBytes 2 r.left.toNat := rfl

theorem portBytes_right (r : NodeRec) : (r.portBytes.drop 9).take 2 = beBytes 2 r.right.toNat := rfl

/-- Settles O55: what the port holds of a field is its big-endian bytes, and those read back as the field. -/
theorem recordFormats : Obligations.RecordFormats := by
  refine ⟨fun r => ⟨length_portBytes_ctRec r, rfl, fun j hj => ?code⟩,
    fun r => ⟨portBytes_nodeRec r, ?freq, ?left, ?right⟩, fun v => ⟨length_beBytes 4 v.toNat, ?counter⟩⟩
  case code => simp [bitsOf_portBytes_tail, hj]
  case freq => rw [portBytes_freq, beNat_beBytes_five r.freq.isLt]
  case left => rw [portBytes_left, beNat_beBytes2 r.left.isLt]
  case right => rw [portBytes_right, beNat_beBytes2 r.right.isLt]
  case counter => exact beNat_beBytes4 v.isLt

end Sys2Proof.Proofs
end

section
/-! PROOFS. 40_freq.md R100 to R102, 41_tree_build.md R110, 42_codegen.md R130: the frame of a command of one unit, and
what FREQ counts. -/

namespace Sys2Proof.Proofs

open Sys2Proof.Machine Sys2Proof.Safety Sys2Proof.Laws

/-! ### What is no destination of a unit -/

/-- The derived elements that are no destination of unit `u` (30_encoding.md R72, the column "writes") are in `t` as
they are in `s`, the buffers byte by byte. -/
structure SameOutside (u : UnitId) (s t : State) : Prop where
  counts : u ≠ .freq → t.ft = s.ft ∧ t.status.empty = s.status.empty
  tree : u ≠ .build → u ≠ .parse → SameTree s t
  code : u ≠ .gencode → u ≠ .parse → t.ct = s.ct
  payload : u ≠ .encode → u ≠ .parse → SamePayload s t
  output : u ≠ .frame → u ≠ .decode → SameOutput s t

theorem samePayload_of_pay_eq {s t : State} (hpay : t.pay = s.pay) (hlen : t.payLen = s.payLen) (hpad : t.pad = s.pad) :
    SamePayload s t := ⟨hlen, hpad, fun a => by simp only [readByte, hpay]⟩

theorem sameOutput_of_dst_eq {s t : State} (hdst : t.dst = s.dst) (hlen : t.dstLen = s.dstLen) : SameOutput s t :=
  ⟨hlen, fun a => by simp only [readByte, hdst]⟩

theorem clearDest_sameTree (s : State) {u : UnitId} (hb : u ≠ .build) (hp : u ≠ .parse) :
    SameTree s (s.clearDest (some u)) := by
  cases u with
  | build => exact absurd rfl hb
  | parse => exact absurd rfl hp
  | _ => exact ⟨rfl, rfl, rfl⟩

theorem clearDest_ct (s : State) {u : UnitId} (hg : u ≠ .gencode) (hp : u ≠ .parse) :
    (s.clearDest (some u)).ct = s.ct := by
  cases u with
  | gencode => exact absurd rfl hg
  | parse => exact absurd rfl hp
  | _ => rfl

theorem clearDest_samePayload (s : State) {u : UnitId} (he : u ≠ .encode) (hp : u ≠ .parse) :
    SamePayload s (s.clearDest (some u)) := by
  cases u with
  | encode => exact absurd rfl he
  | parse => exact absurd rfl hp
  | _ => exact samePayload_of_pay_eq rfl rfl rfl

theorem clearDest_sameOutput (s : State) {u : UnitId} (hf : u ≠ .frame) (hd : u ≠ .decode) :
    SameOutput s (s.clearDest (some u)) := by
  cases u with
  | frame => exact absurd rfl hf
  | decode => exact absurd rfl hd
  | _ => exact sameOutput_of_dst_eq rfl rfl

theorem sameOutside_refl (u : UnitId) (s : State) : SameOutside u s s where
  counts _ := ⟨rfl, rfl⟩
  tree _ _ := ⟨rfl, rfl, rfl⟩
  code _ _ := rfl
  payload _ _ := samePayload_of_pay_eq rfl rfl rfl
  output _ _ := sameOutput_of_dst_eq rfl rfl

theorem sameOutside_of_unitFrame {u : UnitId} {s r : State} (h : UnitFrame u (s.setDone false) r) :
    SameOutside u s (r.setDone true) where
  counts hu := by
    obtain ⟨hft, hstatus⟩ := h.freq hu
    exact ⟨hft, by simp [hstatus]⟩
  tree := h.tree
  code := h.code
  payload he hp := by
    obtain ⟨hpay, hlen, hpad⟩ := h.payload he hp
    exact samePayload_of_pay_eq hpay hlen hpad
  output hf hd := by
    obtain ⟨hdst, hlen⟩ := h.output hf hd
    exact sameOutput_of_dst_eq hdst hlen

/-- Fault entry clears destinations of the unit that raised only (60_exceptions.md R210). -/
theorem sameOutside_of_takeFault (s : State) (op : Byte) (u : UnitId) (c : FaultCause) (info : Nat) :
    SameOutside u s ((s.setDone false).takeFault op (some u) c info) where
  counts _ := by simp
  tree := clearDest_sameTree (s.setDone false)
  code := clearDest_ct (s.setDone false)
  payload := clearDest_samePayload (s.setDone false)
  output := clearDest_sameOutput (s.setDone false)

/-- The frame of a command of one unit, whether it is ignored, ends or records a fault. -/
theorem exec_sameOutside {i : Instr} {u : UnitId} {s t : State} (hi : i ≠ .clr) (hu : unitsOf i = fun _ => [u])
    (hs : startOf i = fun t => t) (h : exec i s = .next t) : SameOutside u s t := by
  rcases exec_unit_cases i u s t hi hu hs h with ⟨-, rfl⟩ | ⟨-, r, hr, rfl⟩ | ⟨-, c, k, -, rfl⟩
  · exact sameOutside_refl u t
  · exact sameOutside_of_unitFrame (run_frame hr)
  · exact sameOutside_of_takeFault s (encode i) u c k

theorem exec_sameFault {i : Instr} {s t : State} (hi : i ≠ .clr) (h : exec i s = .next t)
    (ht : t.status.err = false) : SameFault s t := by
  obtain ⟨-, -, hfault⟩ := macroFrame
  exact hfault i s t hi h ht

/-! ### FREQ -/

/-- FREQ cannot fault (40_freq.md R100). -/
theorem exec_freq {s : State} (he : s.status.err = false) :
    exec .freq s = .next ((freqUnit (s.setDone false)).setDone true) := exec_unit_ok rfl rfl he rfl

theorem exec_freq_sameFault {s t : State} (h : exec .freq s = .next t) : SameFault s t := by
  cases he : s.status.err with
  | true =>
    rw [exec_ignored he (by decide)] at h
    cases h
    exact ⟨rfl, rfl, rfl⟩
  | false =>
    rw [exec_freq he] at h
    cases h
    exact ⟨rfl, rfl, rfl⟩

/-- SRC_LEN has 32 bits, so no counter overflows (40_freq.md R100). -/
theorem length_srcBytes_lt (s : State) : s.srcBytes.length < 2 ^ 32 := by
  rw [length_srcBytes]
  exact s.srcLen.isLt

/-- Settles O13: the frame of a command of one unit, for three units; FREQ moreover never records a fault. -/
theorem freqBuildGencodeFrame : Obligations.FreqBuildGencodeFrame := by
  refine ⟨fun s t h => ?freq, fun s t h => ?build, fun s t h => ?gencode⟩
  case freq =>
    obtain ⟨hin, hmodel⟩ := exec_sameInput_sameModel (by decide) h
    have hout := exec_sameOutside (by decide) rfl rfl h
    exact ⟨hin, hout.tree (by decide) (by decide), hout.code (by decide) (by decide),
      hout.payload (by decide) (by decide), hout.output (by decide) (by decide), exec_freq_sameFault h, hmodel⟩
  case build =>
    obtain ⟨hin, hmodel⟩ := exec_sameInput_sameModel (by decide) h
    have hout := exec_sameOutside (by decide) rfl rfl h
    obtain ⟨hft, hempty⟩ := hout.counts (by decide)
    exact ⟨hin, hft, hout.code (by decide) (by decide), hout.payload (by decide) (by decide),
      hout.output (by decide) (by decide), hmodel, hempty, exec_sameFault (by decide) h⟩
  case gencode =>
    obtain ⟨hin, hmodel⟩ := exec_sameInput_sameModel (by decide) h
    have hout := exec_sameOutside (by decide) rfl rfl h
    obtain ⟨hft, hempty⟩ := hout.counts (by decide)
    exact ⟨hin, hft, hout.tree (by decide) (by decide), hout.payload (by decide) (by decide),
      hout.output (by decide) (by decide), hmodel, hempty, exec_sameFault (by decide) h⟩

/-- Settles O17: FREQ ends in the one state `exec_freq` gives, whose table counts SRC and sums to its length. -/
theorem freqCountsTheInput : Obligations.FreqCountsTheInput := by
  refine fun s he => ⟨_, exec_freq he, ⟨rfl, he⟩, fun b => ?counter, ?sum, ?empty⟩
  case counter => exact freqTable_count (length_srcBytes_lt s) b
  case sum => exact (freqSum_freqTable (length_srcBytes_lt s)).trans (length_srcBytes s)
  case empty => exact beq_iff_eq

end Sys2Proof.Proofs
end

section
/-! PROOFS. 41_tree_build.md R110 to R119: BUILD on an empty table, on one entry, on several; what GENCODE makes of its
tree; and why COMPRESS never meets an empty table. -/

namespace Sys2Proof.Proofs

open Sys2Proof.Machine Sys2Proof.Safety Sys2Proof.Laws

/-! ### How a BUILD command ends -/

theorem exec_build_ok {s r : State} (he : s.status.err = false) (h : buildUnit s = .ok r) :
    exec .build s = .next (r.setDone true) :=
  exec_unit_ok (t := r.setDone false) rfl rfl he (run_ok_setDone (u := .build) h false)

theorem build_succeeded {s r : State} (he : s.status.err = false) (h : buildUnit s = .ok r) :
    Succeeded (r.setDone true) := ⟨rfl, (run_frame (u := .build) h).errFlag.trans he⟩

theorem exec_build_empty {s : State} (he : s.status.err = false) (h : freqEntries s.ft = []) :
    exec .build s = .next ((s.setDone false).takeFault (encode .build) (some .build) .emptyTable 0) :=
  exec_unit_raise rfl rfl he (build_empty (s := s.setDone false) h)

/-- The state BUILD ends in when it makes the records `nodes` with root `r` (41_tree_build.md R117). -/
theorem build_of_tree {s : State} {nodes : List NodeRec} {r : Nat} (h : buildTree (freqEntries s.ft) = .ok (nodes, r)) :
    buildUnit s =
      .ok { s with node := nodes, root := BitVec.ofNat 16 r, nodeCnt := BitVec.ofNat 17 nodes.length } := by
  simp only [buildUnit, tableEntries_eq, h]

/-! ### Several entries, one entry, none -/

/-- Settles O18: what the loop invariant says of NODE once one pair is left. -/
theorem buildMergesTheTwoLeast : Obligations.BuildMergesTheTwoLeast := by
  rintro s k he rfl h2
  have hlen := length_freqEntries s.ft
  obtain ⟨f, p, hb, hp, hinv⟩ := buildTree_many h2 hlen
  obtain ⟨hnodes, hroot⟩ := forestInv_root hinv hp h2 hlen
  have hunit := build_of_tree hb
  refine ⟨_, exec_build_ok he hunit, build_succeeded he hunit, hnodes, ?count, ?root, hinv.leaves, ?joins⟩
  case count => exact (toNat_ofNat17 (by omega)).trans hnodes
  case root => exact (toNat_ofNat16 (by omega)).trans hroot
  case joins => exact fun m hkm hm => hinv.joins m hkm (hnodes ▸ hm)

/-- Settles O19: `build_of_tree` at the pair of records R115 gives. -/
theorem buildWrapsALoneLeaf : Obligations.BuildWrapsALoneLeaf := by
  intro s b f he h
  have hunit := build_of_tree (by rw [h, buildTree])
  exact ⟨_, exec_build_ok he hunit, build_succeeded he hunit, rfl, rfl, rfl⟩

theorem freqEntries_eq_nil {ft : Vector Word 256} (h : ∀ b, tableGet ft b = 0) : freqEntries ft = [] :=
  List.eq_nil_iff_forall_not_mem.mpr fun ⟨b, _⟩ hmem => by
    obtain ⟨hw, hne⟩ := mem_freqEntries.mp hmem
    exact hne (hw.trans (h b))

/-! ### COMPRESS never meets an empty table -/

/-- The rule of a command ends without a raise or raises CapacityFault (60_exceptions.md R208, kind 4). -/
def OnlyCapacity : CmdEnd → Prop
  | .ended _ => True
  | .raised _ _ c _ => c.kind = 4
  | .stuck _ => False

theorem frame_onlyCapacity (s : State) : OnlyCapacity (runUnits [.frame] s) := by
  rcases frame_cases s with ⟨-, h⟩ | ⟨-, t, h, -⟩ <;> simp [runUnits, UnitId.run, h, OnlyCapacity, FaultCause.kind]

theorem encode_frame_onlyCapacity {s : State} (h : ∀ b ∈ s.srcBytes, (tableGet s.ct b).len ≠ 0) :
    OnlyCapacity (runUnits [.encode, .frame] s) := by
  rcases encode_coded h with ⟨-, hr⟩ | ⟨-, t, hr, -⟩
  · simp [runUnits, UnitId.run, hr, OnlyCapacity, FaultCause.kind]
  · simpa only [runUnits, UnitId.run, hr] using frame_onlyCapacity t

/-- An empty input goes past BUILD, any other gives BUILD an entry and ENCODE a code for every symbol
(46_macro_control.md R180), so only a capacity is left to fail. -/
theorem compress_onlyCapacity (s : State) : OnlyCapacity (unitRun .compress s) := by
  change OnlyCapacity (runUnits (compressUnits s) (s.setDone false).clearDerived)
  by_cases hz : s.srcLen = 0
  · rw [compressUnits, if_pos hz]
    exact frame_onlyCapacity (freqUnit (s.setDone false).clearDerived)
  · rw [compressUnits, if_neg hz]
    obtain ⟨-, -, c, -, -, -, -, hsrc, -, -, hcode, -, -, -, hrun⟩ := compress_run (s.setDone false).clearDerived hz
    rw [hrun]
    exact encode_frame_onlyCapacity fun b hb => (hcode b).mpr (hsrc ▸ hb)

/-- A COMPRESS that leaves a fault recorded recorded a CapacityFault. -/
theorem exec_compress_kind {s t : State} (he : s.status.err = false) (h : exec .compress s = .next t)
    (ht : t.status.err = true) : t.err.kind = 4 := by
  have honly := compress_onlyCapacity s
  rcases exec_cases h with ⟨he', -⟩ | ⟨-, r, hr, rfl⟩ | ⟨-, r, u, c, k, hr, rfl⟩
  · simp [he] at he'
  · have hflags := runUnits_flags (unitsOf .compress (s.setDone false)) (startOf .compress (s.setDone false))
    rw [← unitRun, hr] at hflags
    exact absurd (ht.symm.trans (hflags.2.trans he)) (by decide)
  · rw [hr] at honly
    simpa [OnlyCapacity] using honly

/-- Settles O20: fault entry clears the tree, and a fault of COMPRESS is of kind 4, not 5. -/
theorem buildFaultsOnEmptyTable : Obligations.BuildFaultsOnEmptyTable := by
  refine ⟨fun s he h => ?empty, fun s t he h ht => ?compress⟩
  case empty =>
    exact ⟨_, exec_build_empty he (freqEntries_eq_nil h), ⟨rfl, rfl, rfl, rfl⟩, rfl, rfl, rfl⟩
  case compress =>
    rw [exec_compress_kind he h ht]
    decide

/-! ### The tree, and the table alone -/

/-- Settles O21: `build_tree`, read after the command. -/
theorem buildMakesATree : Obligations.BuildMakesATree := by
  intro s b he hb
  obtain ⟨r, tree, hunit, -, -, htree, hsums, hfreq, hleaves⟩ := build_tree (freqEntries_ne_nil hb)
  exact ⟨_, tree, exec_build_ok he hunit, build_succeeded he hunit, htree, hsums, hfreq, hleaves⟩

/-- BUILD reads nothing but FT (41_tree_build.md R118). -/
theorem build_congr {s s' r : State} (hft : s.ft = s'.ft) (h : buildUnit s = .ok r) :
    ∃ r', buildUnit s' = .ok r' ∧ SameTree r r' := by
  obtain ⟨nodes, i, hb, rfl⟩ := build_ok h
  rw [tableEntries_eq, hft] at hb
  exact ⟨_, build_of_tree hb, rfl, rfl, rfl⟩

theorem treeOf_congr {s t : State} {tree : HTree} (h : SameTree s t) (hs : TreeOf s tree) : TreeOf t tree := by
  obtain ⟨hnode, hroot, -⟩ := h
  unfold TreeOf
  rw [hnode, hroot]
  exact hs

theorem treeOf_root_ne_nil {s : State} {tree : HTree} (h : TreeOf s tree) : s.root ≠ nil := by
  obtain ⟨hnode, -, -, xs, hx, -⟩ := h
  generalize s.root = i at hx
  cases hx with
  | absent => cases hnode
  | leaf hi => exact hi
  | node hi => exact hi

/-- The code table GENCODE makes of a tree. -/
theorem exec_gencode_ct {s t : State} {tree : HTree} (he : s.status.err = false) (htree : TreeOf s tree)
    (h : exec .gencode s = .next t) : t.ct = tableOfCodes tree.paths := by
  rw [exec_unit_ok rfl rfl he (run_ok_setDone (u := .gencode) (gencode_tree (treeOf_root_ne_nil htree) htree) false)] at h
  cases h
  rfl

/-- Settles O22: the two runs fault together or end with one tree, and GENCODE's table is a function of the tree. -/
theorem buildDependsOnTableAlone : Obligations.BuildDependsOnTableAlone := by
  intro s s' t t' he he' hft h h'
  by_cases hnil : freqEntries s.ft = []
  case pos =>
    rw [exec_build_empty he hnil] at h
    rw [exec_build_empty he' (hft ▸ hnil)] at h'
    cases h
    cases h'
    exact ⟨⟨rfl, rfl, rfl⟩, rfl, fun _ _ ht => by simp at ht⟩
  case neg =>
    obtain ⟨r, tree, hunit, -, -, htree, -⟩ := build_tree hnil
    obtain ⟨r', hunit', hsame⟩ := build_congr hft hunit
    have hok := (build_succeeded he hunit).2
    have hok' := (build_succeeded he' hunit').2
    rw [exec_build_ok he hunit] at h
    rw [exec_build_ok he' hunit'] at h'
    cases h
    cases h'
    refine ⟨hsame, hok.trans hok'.symm, fun u u' _ hu hu' => ?_⟩
    calc u.ct = tableOfCodes tree.paths := exec_gencode_ct hok htree hu
      _ = u'.ct := (exec_gencode_ct hok' (treeOf_congr hsame htree) hu').symm

end Sys2Proof.Proofs
end

section
/-! PROOFS. 42_codegen.md R130 to R133: GENCODE with a tree and without one, the records of its table, and why its codes
are prefix-free. -/

namespace Sys2Proof.Proofs

open Sys2Proof.Machine Sys2Proof.Safety Sys2Proof.Laws

/-! ### The records of the table -/

/-- The record of a code is zero from the code's end up (42_codegen.md R131). -/
theorem bits_ofCode_of_length_le {c : BitString} {j : Nat} (h : c.length ≤ j) :
    (CtRec.ofCode c).bits.getLsbD j = false := by
  simp [CtRec.ofCode, BitVec.getLsbD_setWidth, h]

/-- Every record of GENCODE's table is absent or the record of a leaf path of its symbol. -/
theorem tableGet_tableOfCodes_cases {es : List (Byte × BitString)} (hn : (es.map Prod.fst).Nodup) (b : Byte) :
    tableGet (tableOfCodes es) b = { len := 0, bits := 0 } ∨
      ∃ c, (b, c) ∈ es ∧ tableGet (tableOfCodes es) b = CtRec.ofCode c := by
  by_cases hb : b ∈ es.map Prod.fst
  · obtain ⟨⟨b, c⟩, hmem, rfl⟩ := List.mem_map.mp hb
    exact .inr ⟨c, hmem, tableOfCodes_mem hn hmem⟩
  · exact .inl (tableOfCodes_absent hb)

/-- 42_codegen.md R132 (e). -/
theorem bits_tableOfCodes_of_len_le {s : State} {tree : HTree} (h : TreeOf s tree) {b : Byte} {j : Nat}
    (hj : (tableGet (tableOfCodes tree.paths) b).len.toNat ≤ j) :
    (tableGet (tableOfCodes tree.paths) b).bits.getLsbD j = false := by
  have ⟨_, hn, _⟩ := h
  rcases tableGet_tableOfCodes_cases hn b with hr | ⟨c, hmem, hr⟩
  · simp [hr]
  · rw [hr] at hj ⊢
    rw [len_ofCode (treeOf_path h hmem).2] at hj
    exact bits_ofCode_of_length_le hj

/-- The paths to the leaves of two symbols are apart, whatever the tree (42_codegen.md R132 c). -/
theorem paths_apart {tree : HTree} {b b' : Byte} {c c' : BitString} (hb : b ≠ b') (h : (b, c) ∈ tree.paths)
    (h' : (b', c') ∈ tree.paths) : Apart c c' :=
  ⟨fun hp => hb (congrArg Prod.fst (path_eq_of_isPrefix h h' hp)),
    fun hp => hb (congrArg Prod.fst (path_eq_of_isPrefix h' h hp)).symm⟩

/-! ### How a GENCODE command ends -/

theorem exec_gencode_succeeds {s : State} {tree : HTree} (he : s.status.err = false) (h : TreeOf s tree) :
    ∃ t, exec .gencode s = .next t ∧ Succeeded t :=
  have hunit : UnitId.run .gencode s = _ := gencode_tree (treeOf_root_ne_nil h) h
  ⟨_, exec_unit_ok rfl rfl he (run_ok_setDone hunit false), rfl, he⟩

/-- 42_codegen.md R133. -/
theorem gencode_without_tree {s : State} (h : s.root = nil) : gencodeUnit s = .error (.raise .noTree 0) := if_pos h

theorem exec_gencode_without_tree {s : State} (he : s.status.err = false) (h : s.root = nil) :
    exec .gencode s = .next ((s.setDone false).takeFault (encode .gencode) (some .gencode) .noTree 0) :=
  exec_unit_raise rfl rfl he (gencode_without_tree (s := s.setDone false) h)

/-! ### The statements -/

/-- Settles O23: what the records of `tableOfCodes` say of the tree's paths, read after the command. -/
theorem gencodeReadsCodesOffTheTree : Obligations.GencodeReadsCodesOffTheTree := by
  intro s tree he _ htree
  obtain ⟨t, hexec, hok⟩ := exec_gencode_succeeds he htree
  refine ⟨t, hexec, hok, ?codes, ?absent, ?zeros⟩ <;> rw [exec_gencode_ct he htree hexec]
  case codes => exact hasCode_paths htree
  case absent => exact fun b hb => tableOfCodes_absent (by simpa using hb)
  case zeros => exact fun b j => bits_tableOfCodes_of_len_le htree

/-- Settles O24: the codes are paths of one tree, and no leaf path is a prefix of another. -/
theorem gencodeIsPrefixFree : Obligations.GencodeIsPrefixFree := by
  intro s t he hroot hinv hexec b b' c c' hb hc hc'
  obtain ⟨tree, htree⟩ := hinv.tree hroot
  rw [exec_gencode_ct he htree hexec, hasCode_paths htree] at hc hc'
  exact paths_apart hb hc hc'

/-- Settles O25: fault entry of GENCODE clears CT. -/
theorem gencodeFaultsWithoutTree : Obligations.GencodeFaultsWithoutTree := fun _ he hroot =>
  ⟨_, exec_gencode_without_tree he hroot, ⟨rfl, rfl, rfl, rfl⟩, rfl, tableGet_emptyCode⟩

end Sys2Proof.Proofs
end

section
/-! PROOFS. 43_bit_encode.md R140 to R144, 45_container.md R165: the three ways ENCODE ends, and what it and PARSE leave
unchanged. -/

namespace Sys2Proof.Proofs

open Sys2Proof.Machine Sys2Proof.Safety Sys2Proof.Laws

/-! ### How an ENCODE command ends -/

theorem exec_encode_ok {s r : State} (he : s.status.err = false) (h : encodeUnit s = .ok r) :
    exec .encode s = .next (r.setDone true) :=
  exec_unit_ok (t := r.setDone false) rfl rfl he (run_ok_setDone (u := .encode) h false)

/-- A fault of ENCODE clears PAY_LEN and PAD (60_exceptions.md R210). -/
theorem exec_encode_faults {s : State} {c : FaultCause} {k : Nat} (he : s.status.err = false)
    (h : encodeUnit s = .error (.raise c k)) :
    ∃ t, exec .encode s = .next t ∧ Faulted t (encode .encode) c k ∧ t.payLen = 0 ∧ t.pad = 0 := by
  have hrun : UnitId.run .encode (s.setDone false) = .error (.raise c k) := by
    rw [run_setDone, show UnitId.run .encode s = _ from h]
  exact ⟨_, exec_unit_raise rfl rfl he hrun, ⟨rfl, rfl, rfl, rfl⟩, rfl, rfl⟩

/-- 43_bit_encode.md R142: the fault carries the offset of the first symbol without a code. -/
theorem encode_missing {s : State} {pre post : List Byte} {b : Byte} (hsrc : s.srcBytes = pre ++ b :: post)
    (hpre : ∀ x ∈ pre, (tableGet s.ct x).len ≠ 0) (hb : (tableGet s.ct b).len = 0) :
    encodeUnit s = .error (.raise .missingCode pre.length) := by
  simp only [encodeUnit, hsrc, codeBits_missing 0 hpre hb, Nat.zero_add]

/-- A diagnostic value of 32 bits is what ERRINFO holds (10_state.md R26). -/
theorem toNat_errInfoWord {n : Nat} (h : n < 2 ^ 32) : (errInfoWord n).toNat = n := by
  rw [errInfoWord, if_pos h, toNat_ofNat32 h]

/-! ### What ENCODE and PARSE write to PAY -/

/-- ENCODE and PARSE store their payload at the start of PAY, and PAY_LEN is its length (43_bit_encode.md R141,
45_container.md R166). -/
theorem run_pay {u : UnitId} {s t : State} (hu : u = .encode ∨ u = .parse) (h : u.run s = .ok t) :
    ∃ bs : List Byte, t.pay = s.pay.writeBytes 0 bs ∧ t.payLen.toNat = bs.length := by
  have fits : ∀ {n : Nat}, n ≤ s.cfg.payCap.toNat → (BitVec.ofNat 32 n).toNat = n :=
    fun hn => toNat_ofNat32 (hn.trans_lt s.cfg.payCap.isLt)
  rcases hu with rfl | rfl
  · obtain ⟨bits, -, hroom, rfl⟩ := encode_ok h
    exact ⟨_, rfl, fits hroom⟩
  · rcases parse_cases s with ⟨c, k, hp, -⟩ | ⟨es, c, r, hp, hparsed, -, -, rfl⟩
    · cases hp.symm.trans h
    · cases hp.symm.trans h
      exact ⟨_, rfl, fits hparsed.room⟩

theorem read_writeBytes_of_length_le (b : Buffer) (w : BufferId) {vs : List Byte} {a : Nat} (h : vs.length ≤ a) :
    (b.writeBytes 0 vs).read w a = b.read w a := by
  simp [read_writeBytes, List.getElem?_eq_none h]

/-- After a success the bytes of PAY from PAY_LEN up are as before (Log 10). -/
theorem exec_pay_tail {i : Instr} {u : UnitId} {s t : State} (hi : i ≠ .clr) (hu : unitsOf i = fun _ => [u])
    (hs : startOf i = fun t => t) (hpay : u = .encode ∨ u = .parse) (h : exec i s = .next t)
    (ht : t.status.err = false) {a : Nat} (ha : t.payLen.toNat ≤ a) : readByte t .pay a = readByte s .pay a := by
  rcases exec_unit_cases i u s t hi hu hs h with ⟨-, rfl⟩ | ⟨-, r, hr, rfl⟩ | ⟨-, c, k, -, rfl⟩
  · rfl
  · obtain ⟨bs, hbs, hlen⟩ := run_pay hpay hr
    simp only [readByte, setDone_pay, hbs]
    exact read_writeBytes_of_length_le s.pay .pay (hlen.symm.trans_le ha)
  · simp at ht

/-- The frame ENCODE and PARSE share: FT, the input and the output, and on success the fault registers and the tail of
PAY (43_bit_encode.md R140, 45_container.md R165). -/
theorem exec_pay_frame {i : Instr} {u : UnitId} {s t : State} (hi : i ≠ .clr) (hu : unitsOf i = fun _ => [u])
    (hs : startOf i = fun t => t) (hpay : u = .encode ∨ u = .parse) (h : exec i s = .next t) :
    SameInput s t ∧ t.ft = s.ft ∧ SameOutput s t ∧ SameModel s t ∧ t.status.empty = s.status.empty ∧
    (t.status.err = false → SameFault s t ∧ ∀ a, t.payLen.toNat ≤ a → readByte t .pay a = readByte s .pay a) := by
  obtain ⟨hin, hmodel⟩ := exec_sameInput_sameModel hi h
  have hout := exec_sameOutside hi hu hs h
  obtain ⟨hft, hempty⟩ := hout.counts (by rcases hpay with rfl | rfl <;> decide)
  have houtput := hout.output (by rcases hpay with rfl | rfl <;> decide) (by rcases hpay with rfl | rfl <;> decide)
  exact ⟨hin, hft, houtput, hmodel, hempty, fun ht =>
    ⟨exec_sameFault hi h ht, fun _ => exec_pay_tail hi hu hs hpay h ht⟩⟩

/-! ### The statements -/

/-- Settles O14: the shared frame is all of PARSE's; ENCODE moreover leaves the tree and the code table. -/
theorem encodeParseFrame : Obligations.EncodeParseFrame := by
  refine ⟨fun s t h => ?encode, fun s t h => exec_pay_frame (by decide) rfl rfl (.inr rfl) h⟩
  case encode =>
    obtain ⟨hin, hft, hout, hmodel, hempty, hok⟩ := exec_pay_frame (by decide) rfl rfl (.inl rfl) h
    have hother := exec_sameOutside (by decide) rfl rfl h
    exact ⟨hin, hft, hother.tree (by decide) (by decide), hother.code (by decide) (by decide), hout, hmodel, hempty, hok⟩

/-- Settles O27: of the two ends of `encode_coded` the capacity leaves the payload. -/
theorem encodePacksTheCodes : Obligations.EncodePacksTheCodes := by
  intro s he hcoded hroom
  rcases encode_coded hcoded with ⟨hover, -⟩ | ⟨-, r, hunit, hlen, hpad, hbits⟩
  · exact absurd hroom (Nat.not_le.mpr hover)
  · exact ⟨_, exec_encode_ok he hunit, ⟨rfl, (run_frame (u := .encode) hunit).errFlag.trans he⟩, hlen, hpad, hbits⟩

/-- Settles O28: an offset into SRC fits ERRINFO; a fault of COMPRESS is of kind 4, not 1. -/
theorem encodeFaultsOnMissingCode : Obligations.EncodeFaultsOnMissingCode := by
  refine ⟨fun s pre post b he hsrc hpre hb => ?missing, fun s t he h ht => ?compress⟩
  case missing =>
    obtain ⟨t, hexec, hfault, hlen, hpad⟩ := exec_encode_faults he (encode_missing hsrc hpre hb)
    have ⟨_, _, _, hinfo⟩ := hfault
    have hoffset : pre.length < 2 ^ 32 := by
      have hsize := length_srcBytes_lt s
      rw [hsrc, List.length_append] at hsize
      omega
    exact ⟨t, hexec, hfault, by rw [hinfo, toNat_errInfoWord hoffset], hlen, hpad⟩
  case compress =>
    rw [exec_compress_kind he h ht]
    decide

/-- Settles O29: of the two ends of `encode_coded` the capacity leaves the fault. -/
theorem encodeFaultsOnCapacity : Obligations.EncodeFaultsOnCapacity := by
  intro s he hcoded hover
  rcases encode_coded hcoded with ⟨-, hunit⟩ | ⟨hroom, -⟩
  · exact exec_encode_faults he hunit
  · exact absurd hroom (Nat.not_le.mpr hover)

end Sys2Proof.Proofs
end

section
/-! PROOFS. 44_bit_decode.md R151 to R156: DECODE's walk over whole codes and into an unfinished one, and the ways the
command ends. -/

namespace Sys2Proof.Proofs

open Sys2Proof.Machine Sys2Proof.Safety Sys2Proof.Laws

/-! ### How a DECODE command ends -/

theorem exec_decode_ok {s r : State} (he : s.status.err = false) (h : decodeUnit s = .ok r) :
    exec .decode s = .next (r.setDone true) :=
  exec_unit_ok (t := r.setDone false) rfl rfl he (run_ok_setDone (u := .decode) h false)

theorem decode_succeeded {s r : State} (he : s.status.err = false) (h : decodeUnit s = .ok r) :
    Succeeded (r.setDone true) := ⟨rfl, (run_frame (u := .decode) h).errFlag.trans he⟩

/-- A fault of DECODE leaves DST_LEN 0 (44_bit_decode.md R151, 60_exceptions.md R210). -/
theorem exec_decode_faults {s : State} {c : FaultCause} {k : Nat} (he : s.status.err = false)
    (h : decodeUnit s = .error (.raise c k)) :
    ∃ t, exec .decode s = .next t ∧ Faulted t (encode .decode) c k ∧ t.dstLen = 0 := by
  have hrun : UnitId.run .decode (s.setDone false) = .error (.raise c k) := by
    rw [run_setDone, show UnitId.run .decode s = _ from h]
  exact ⟨_, exec_unit_raise rfl rfl he hrun, ⟨rfl, rfl, rfl, rfl⟩, rfl⟩

/-- Without payload bits the walk ends where it starts (44_bit_decode.md R152). -/
theorem decode_no_bits {s : State} (hroot : s.root ≠ nil) (hlen : 8 * s.payLen.toNat = s.pad.toNat) :
    ∃ r, decodeUnit s = .ok r ∧ r.dstLen = 0 := by
  have hbits : s.payloadBits = [] := by simp [State.payloadBits, hlen]
  refine ⟨{ s with dst := s.dst.forget.writeBytes 0 [], dstLen := BitVec.ofNat 32 0 }, ?_, rfl⟩
  simp [decodeUnit, hroot, hlen, hbits, decodeWalk]

/-! ### The walk into an unfinished code -/

/-- The record of an Internal node has below each bit the sub-tree the bit leads to. -/
theorem isTree_follow_bit {nodes : List NodeRec} {i : NodeIdx} {t : HTree} {xs : List Nat} (h : IsTree nodes i t xs)
    (ht : t.isNode = true) (b : Bool) :
    ∃ n ys, nodes[i.toNat]? = some n ∧ IsTree nodes (n.child b) (t.follow [b]) ys := by
  cases h with
  | absent => cases ht
  | leaf => cases ht
  | node _ hn _ hl hr =>
    cases b with
    | false => exact ⟨_, _, hn, by simpa [NodeRec.child, HTree.follow] using hl⟩
    | true => exact ⟨_, _, hn, by simpa [NodeRec.child, HTree.follow] using hr⟩

/-- A bit that selects an absent child (44_bit_decode.md R153). -/
theorem decodeWalk_absent {nodes : List NodeRec} {root i : NodeIdx} {cap : Nat} {t : HTree} {xs : List Nat}
    (h : IsTree nodes i t xs) (ht : t.isNode = true) {b : Bool} (hb : t.follow [b] = .absent) (rest : BitString)
    (j start : Nat) (out : List Byte) :
    decodeWalk nodes root cap (b :: rest) i j start out = .error (.raise .badPath j) := by
  obtain ⟨n, ys, hn, hchild⟩ := isTree_follow_bit h ht b
  rw [hb] at hchild
  have hnil : n.child b = nil := (isTree_absent hchild).1
  simp only [decodeWalk, hn, hnil, if_true]

/-- The walk meets the root's index only at the root: no record of the tree is reached twice (10_state.md R39 c). -/
theorem ne_root_of_mem_tail {nodes : List NodeRec} {root i : NodeIdx} {t : HTree} {xs : List Nat}
    (h : IsTree nodes root t xs) (ht : t.isNode = true) (hnodup : xs.Nodup) (hi : i.toNat ∈ xs.tail) : i ≠ root := by
  rintro rfl
  cases h with
  | absent => cases ht
  | leaf => cases ht
  | node => exact (List.nodup_cons.mp hnodup).1 hi

/-- Whole codes that fit and then the bits of a path that ends at an Internal node: the codes' symbols are emitted, and
the cursor stands below the root when the path is not empty. -/
theorem decodeWalk_paths_inside {s : State} {tree : HTree} {es : List (Byte × BitString)} {q : BitString}
    (htree : TreeOf s tree) (hes : ∀ e ∈ es, e ∈ tree.paths) (hq : (tree.follow q).isNode = true)
    (hcap : es.length ≤ s.cfg.dstCap.toNat) (rest : BitString) :
    ∃ i zs, IsTree s.node i (tree.follow q) zs ∧ (q ≠ [] → i ≠ s.root) ∧
      decodeWalk s.node s.root s.cfg.dstCap.toNat (es.flatMap (·.2) ++ q ++ rest) s.root 0 0 [] =
        decodeWalk s.node s.root s.cfg.dstCap.toNat rest i (es.flatMap (·.2) ++ q).length (es.flatMap (·.2)).length
          (es.map (·.1)) := by
  obtain ⟨hnode, -, -, xs, hx, hperm⟩ := htree
  have hnodup : xs.Nodup := hperm.nodup_iff.mpr List.nodup_range
  obtain ⟨i, zs, hi, hbelow, -, hwalk⟩ := decodeWalk_inside hx hq rest (root := s.root) (cap := s.cfg.dstCap.toNat)
    (es.flatMap (·.2)).length (es.flatMap (·.2)).length (es.map (·.1))
  refine ⟨i, zs, hi, fun hne => ne_root_of_mem_tail hx hnode hnodup (hbelow hne), ?_⟩
  rw [List.append_assoc, decodeWalk_paths hx hnode hes _ 0 [] (by simpa using hcap), List.length_append]
  simpa using hwalk

/-! ### The root PARSE leaves -/

/-- A PARSE that ends without fault puts the root at NODE[0] (45_container.md R166). -/
theorem exec_parse_root {s t : State} (he : s.status.err = false) (h : exec .parse s = .next t)
    (ht : t.status.err = false) : t.root = 0 := by
  rcases exec_unit_cases .parse .parse s t (by decide) rfl rfl h with ⟨herr, -⟩ | ⟨-, r, hr, rfl⟩ | ⟨-, c, k, -, rfl⟩
  · cases he.symm.trans herr
  · obtain ⟨c, -, rfl⟩ := parse_ok hr
    rfl
  · simp at ht

/-! ### The statements -/

/-- Settles O37: `decode_paths`, read after the command. -/
theorem decodeEmitsTheSymbols : Obligations.DecodeEmitsTheSymbols := by
  intro s tree es he hroot htree hpad hes hbits hcap
  obtain ⟨r, hunit, hout, -⟩ := decode_paths hroot htree hpad hes hbits hcap
  exact ⟨_, exec_decode_ok he hunit, decode_succeeded he hunit, hout⟩

/-- Settles O38: the walk ends with its cursor below the root; without bits it ends at the root. -/
theorem decodeFaultsOnTruncatedStream : Obligations.DecodeFaultsOnTruncatedStream := by
  refine ⟨fun s tree es q he hroot htree hpad hes hbits hne hq hcap => ?unfinished, fun s he hroot hlen => ?nobits⟩
  case unfinished =>
    obtain ⟨i, -, -, hbelow, hwalk⟩ := decodeWalk_paths_inside htree hes hq hcap []
    refine decode_raise he hroot hpad ?_
    rw [hbits, ← List.append_nil (_ ++ q), hwalk, decodeWalk, if_pos (hbelow hne)]
  case nobits =>
    obtain ⟨r, hunit, hlen⟩ := decode_no_bits hroot hlen
    exact ⟨_, exec_decode_ok he hunit, decode_succeeded he hunit, hlen⟩

/-- Settles O39: the walk stands at the Internal node `q` leads to when it meets the bit. -/
theorem decodeFaultsOnBadPath : Obligations.DecodeFaultsOnBadPath := by
  intro s tree es q b rest he hroot htree hpad hes hbits hq habsent hcap
  obtain ⟨i, zs, hi, -, hwalk⟩ := decodeWalk_paths_inside htree hes hq hcap (b :: rest)
  rw [follow_append] at habsent
  refine decode_raise he hroot hpad ?_
  rw [hbits, hwalk, decodeWalk_absent hi hq habsent]

/-- Settles O40: `decodeWalk_capacity`, read after the command. -/
theorem decodeFaultsOnCapacity : Obligations.DecodeFaultsOnCapacity :=
  fun _ _ _ _ he hroot htree hpad hes hbits hcap =>
    decode_raise he hroot hpad (decodeWalk_capacity htree hes hbits hcap)

/-- Settles O41: DECODE's two checks before the walk, and where PARSE puts the root. -/
theorem decodeFaultsWithoutTreeOrPayload : Obligations.DecodeFaultsWithoutTreeOrPayload := by
  refine ⟨fun s he hroot => ?notree, fun s he hroot hlen hpad => ?padding, fun s t he h ht => ?parse⟩
  case notree => exact exec_decode_faults he (if_pos hroot)
  case padding =>
    have hover : s.pad.toNat > 8 * s.payLen.toNat := by
      rw [hlen]
      exact Nat.pos_of_ne_zero fun h => hpad (BitVec.eq_of_toNat_eq h)
    exact exec_decode_faults he ((if_neg hroot).trans (if_pos hover))
  case parse =>
    rw [exec_parse_root he h ht]
    exact zero_ne_nil

end Sys2Proof.Proofs
end

section
/-! PROOFS. 45_container.md R160 to R171, 44_bit_decode.md R150: how FRAME and PARSE end, what FRAME and DECODE leave
unchanged, and the twelve checks of PARSE. -/

namespace Sys2Proof.Proofs

open Sys2Proof.Machine Sys2Proof.Safety Sys2Proof.Laws

/-! ### How a command of one unit ends -/

/-- A command whose unit ends without a raise succeeds (46_macro_control.md R185). -/
theorem exec_unit_succeeds {i : Instr} {u : UnitId} {s r : State} (hu : unitsOf i = fun _ => [u])
    (hs : startOf i = fun t => t) (he : s.status.err = false) (h : u.run s = .ok r) :
    exec i s = .next (r.setDone true) ∧ Succeeded (r.setDone true) :=
  ⟨exec_unit_ok (t := r.setDone false) hu hs he (run_ok_setDone h false), rfl, (run_frame h).errFlag.trans he⟩

/-- A command whose unit raises records the fault (60_exceptions.md R210). -/
theorem exec_unit_faults {i : Instr} {u : UnitId} {s : State} {c : FaultCause} {k : Nat}
    (hu : unitsOf i = fun _ => [u]) (hs : startOf i = fun t => t) (he : s.status.err = false)
    (h : u.run s = .error (.raise c k)) :
    exec i s = .next ((s.setDone false).takeFault (encode i) (some u) c k) ∧
      Faulted ((s.setDone false).takeFault (encode i) (some u) c k) (encode i) c k := by
  have hrun : u.run (s.setDone false) = .error (.raise c k) := by rw [run_setDone, h]
  have hdone : ((s.setDone false).clearDest (some u)).status.done = false := by cases u <;> rfl
  exact ⟨exec_unit_raise hu hs he hrun, hdone, rfl, rfl, rfl⟩

/-! ### FRAME and DECODE -/

/-- The frame FRAME and DECODE share: all but the output (45_container.md R160, 44_bit_decode.md R150). -/
theorem exec_output_frame {i : Instr} {u : UnitId} {s t : State} (hi : i ≠ .clr) (hu : unitsOf i = fun _ => [u])
    (hs : startOf i = fun t => t) (hout : u = .frame ∨ u = .decode) (h : exec i s = .next t) :
    SameInput s t ∧ t.ft = s.ft ∧ SameTree s t ∧ t.ct = s.ct ∧ SamePayload s t ∧ SameModel s t ∧
    t.status.empty = s.status.empty ∧ (t.status.err = false → SameFault s t) := by
  obtain ⟨hin, hmodel⟩ := exec_sameInput_sameModel hi h
  have hother := exec_sameOutside hi hu hs h
  have hne : ∀ v : UnitId, v ≠ .frame → v ≠ .decode → u ≠ v := by
    rintro v hf hd rfl
    exact hout.elim hf hd
  obtain ⟨hft, hempty⟩ := hother.counts (hne .freq (by decide) (by decide))
  have hparse := hne .parse (by decide) (by decide)
  exact ⟨hin, hft, hother.tree (hne .build (by decide) (by decide)) hparse,
    hother.code (hne .gencode (by decide) (by decide)) hparse,
    hother.payload (hne .encode (by decide) (by decide)) hparse, hmodel, hempty, exec_sameFault hi h⟩

/-- Settles O15: the shared frame, for each of the two commands. -/
theorem frameDecodeFrame : Obligations.FrameDecodeFrame := by
  rintro i s t (rfl | rfl) h
  · exact exec_output_frame (by decide) rfl rfl (.inl rfl) h
  · exact exec_output_frame (by decide) rfl rfl (.inr rfl) h

/-- The container FRAME writes has the size FRAME compares with DST_CAP (45_container.md R162). -/
theorem length_frame_layout (s : State) :
    (layout s.cfg.magic (tableEntriesOf s.ct) (s.pad.setWidth 8) s.payBytes).length =
      11 + tableSize s.ct + s.payLen.toNat := by rw [length_layout, length_payBytes]

/-- Settles O30: of the two ends of `frame_cases` the capacity leaves the container. -/
theorem frameWritesTheLayout : Obligations.FrameWritesTheLayout := by
  intro s he hfits
  rw [length_frame_layout] at hfits
  rcases frame_cases s with ⟨hover, -⟩ | ⟨-, r, hunit, hdst⟩
  · exact absurd hfits (Nat.not_le.mpr hover)
  · obtain ⟨hexec, hok⟩ := exec_unit_succeeds (i := .frame) (u := .frame) rfl rfl he hunit
    exact ⟨_, hexec, hok, hdst⟩

/-- Settles O31: `tableSize_le` bounds the table; of the two ends of `frame_cases` the capacity leaves the fault. -/
theorem frameFaultsOnCapacity : Obligations.FrameFaultsOnCapacity := by
  refine ⟨fun s => ?bound, fun s he hover => ?fault⟩
  case bound =>
    have htable := tableSize_le s.ct
    rw [length_frame_layout]
    omega
  case fault =>
    rw [length_frame_layout] at hover
    rcases frame_cases s with ⟨-, hunit⟩ | ⟨hfits, -⟩
    · obtain ⟨hexec, hfault⟩ := exec_unit_faults (i := .frame) (u := .frame) rfl rfl he hunit
      exact ⟨_, hexec, hfault, rfl⟩
    · exact absurd hfits (Nat.not_le.mpr hover)

/-! ### PARSE answers -/

/-- Settles O32: `parse_layout`, read after the command. -/
theorem parseRebuildsTableAndTree : Obligations.ParseRebuildsTableAndTree := by
  intro s es pad payload he hsrc hok hnodup hfree hpad hempty hroom
  obtain ⟨r, tree, st, hunit, -, hroot, htree, hinv, hct, hpaths, hpay, hlen, hpadding⟩ :=
    parse_layout hsrc hok hnodup hfree hpad hempty hroom
  obtain ⟨hexec, hsucc⟩ := exec_unit_succeeds (i := .parse) (u := .parse) rfl rfl he hunit
  refine ⟨_, tree, hexec, hsucc, hroot, treeOf_congr ⟨rfl, rfl, rfl⟩ htree, hpaths, fun b c => ?_, hpay, hlen, hpadding⟩
  rw [setDone_ct, hct]
  exact parseInv_hasCode hinv b c

/-- Settles O36: of the two ends of `parse_cases` a fault clears the destinations of PARSE (60_exceptions.md R210). -/
theorem parseFaultLeavesNothing : Obligations.ParseFaultLeavesNothing := by
  intro s he
  rcases parse_cases s with ⟨c, k, hunit, hkind⟩ | ⟨_, _, r, hunit, -⟩
  · obtain ⟨hexec, hdone, herr, hreg, -⟩ := exec_unit_faults (i := .parse) (u := .parse) rfl rfl he hunit
    exact ⟨_, hexec, .inr ⟨hdone, herr, by rwa [hreg], tableGet_emptyCode, rfl, rfl, rfl, rfl⟩⟩
  · obtain ⟨hexec, hok⟩ := exec_unit_succeeds (i := .parse) (u := .parse) rfl rfl he hunit
    exact ⟨_, hexec, .inl hok⟩

/-! ### The checks of PARSE: the header -/

/-- Settles O33: checks 1 and 2 of 45_container.md R167 come first. -/
theorem parseRejectsBadHeader : Obligations.ParseRejectsBadHeader := by
  refine fun s he => ⟨fun hmagic => ?magic, fun hmagic hlen => ?count⟩
  case magic => exact parse_raise he (if_pos hmagic)
  case count =>
    have hshort : (s.srcBytes.drop 4).length < 2 := by
      rw [List.length_drop]
      omega
    exact parse_raise he ((if_neg (not_not_intro hmagic)).trans (if_pos hshort))

/-! ### The checks of PARSE: the entries -/

/-- After good entries the parser goes on with the entries still to come and then the trailer
(45_container.md R166). -/
theorem parseContainer_good_entries {magic : Vector Byte 4} {cap m : Nat} {src rest : List Byte} {es : List RawEntry}
    (hsrc : src = magic.toList ++ beBytes 2 (es.length + m) ++ es.flatMap RawEntry.bytes ++ rest)
    (hcount : es.length + m < 65536) (hok : ∀ e ∈ es, e.ok) (hnodup : (es.map (·.sym)).Nodup)
    (hfree : PrefixFree (es.map (·.code))) :
    ∃ st, st.rest = rest ∧ ParseInv es st ∧
      parseContainer magic cap src = (parseEntries m st).bind (parseTrailer cap) := by
  obtain ⟨st, hloop, hrest, hinv⟩ := parseEntries_all (r := rest) hok hnodup hfree m
  refine ⟨st, hrest, hinv, ?_⟩
  rw [parseContainer_header (by simpa only [List.append_assoc] using hsrc) hcount, hloop]
  cases parseEntries m st <;> rfl

/-- When entries are still to come, what the next one raises ends PARSE. -/
theorem faultsWith_of_parseEntry {s : State} {pre : List RawEntry} {count : Nat} {rest : List Byte}
    (he : s.status.err = false)
    (hsrc : s.srcBytes = s.cfg.magic.toList ++ beBytes 2 count ++ pre.flatMap RawEntry.bytes ++ rest)
    (hmore : pre.length < count) (hcount : count < 65536) (hok : ∀ e ∈ pre, e.ok) (hnodup : (pre.map (·.sym)).Nodup)
    (hfree : PrefixFree (pre.map (·.code))) :
    ∃ st, st.rest = rest ∧ ParseInv pre st ∧
      ∀ c k, parseEntry st = .error (.raise c k) → FaultsWith .parse s c k := by
  obtain ⟨m, rfl⟩ := Nat.exists_eq_add_of_lt hmore
  obtain ⟨st, hrest, hinv, hparse⟩ := parseContainer_good_entries (m := m + 1) hsrc hcount hok hnodup hfree
  refine ⟨st, hrest, hinv, fun c k hentry => parse_raise he ?_⟩
  rw [hparse, parseEntries, hentry]
  rfl

/-- Check 3 (45_container.md R167). -/
theorem parseEntry_short {st : ParseState} (h : st.rest.length < 2) :
    parseEntry st = .error (.raise .shortHeader st.p) := by
  unfold parseEntry
  split
  next hrest =>
    rw [hrest] at h
    simp at h
  next => rfl

/-- Check 4 (45_container.md R167). -/
theorem parseEntry_zero {st : ParseState} {sym : Byte} {tail : List Byte} (h : st.rest = sym :: 0 :: tail) :
    parseEntry st = .error (.raise .zeroCodeLen st.p) := by
  simp only [parseEntry, h, if_true]

/-- Check 5 (45_container.md R167). -/
theorem parseEntry_cut {st : ParseState} {sym len : Byte} {tail : List Byte} (h : st.rest = sym :: len :: tail)
    (hlen : len ≠ 0) (hcut : tail.length < byteCount len.toNat) :
    parseEntry st = .error (.raise .shortHeader (st.p + 2)) := by
  simp only [parseEntry, h, hlen, hcut, if_false, if_true]

/-- Settles O34: each way the entry is bad makes `parseEntry` raise. -/
theorem parseRejectsBadEntry : Obligations.ParseRejectsBadEntry := by
  intro s pre count rest he hsrc hmore hcount hok hnodup hfree
  obtain ⟨st, rfl, hinv, hraise⟩ := faultsWith_of_parseEntry he hsrc hmore hcount hok hnodup hfree
  dsimp only
  rw [← hinv.offset]
  refine ⟨fun hshort => ?short, fun sym tail hrest => ?zero, fun sym len tail hrest hlen hcut => ?cut,
    fun e tail heok hrest hsym => ?duplicate, fun e tail heok hrest hsym hcode => ?prefixed⟩
  case short => exact hraise _ _ (parseEntry_short hshort)
  case zero => exact hraise _ _ (parseEntry_zero hrest)
  case cut => exact hraise _ _ (parseEntry_cut hrest hlen hcut)
  case duplicate =>
    obtain ⟨hdup, -, -⟩ := parseEntry_entry hinv heok hrest
    exact hraise _ _ (hdup hsym)
  case prefixed =>
    obtain ⟨-, hprefix, -⟩ := parseEntry_entry hinv heok hrest
    exact hraise _ _ (hprefix hsym hcode)

/-! ### The checks of PARSE: the trailer -/

/-- After a good table, what the trailer raises ends PARSE. -/
theorem faultsWith_of_parseTrailer {s : State} {es : List RawEntry} {rest : List Byte} (he : s.status.err = false)
    (hsrc : s.srcBytes = s.cfg.magic.toList ++ beBytes 2 es.length ++ es.flatMap RawEntry.bytes ++ rest)
    (hok : ∀ e ∈ es, e.ok) (hnodup : (es.map (·.sym)).Nodup) (hfree : PrefixFree (es.map (·.code))) :
    ∃ st, st.rest = rest ∧ st.p = 6 + (es.flatMap RawEntry.bytes).length ∧
      ∀ c k, parseTrailer s.cfg.payCap.toNat st = .error (.raise c k) → FaultsWith .parse s c k := by
  have hfew : es.length ≤ 256 := by simpa using nodup_length hnodup
  obtain ⟨st, hrest, hinv, hparse⟩ := parseContainer_good_entries (m := 0) hsrc (by omega) hok hnodup hfree
  exact ⟨st, hrest, hinv.offset, fun c k htrailer => parse_raise he (hparse.trans htrailer)⟩

/-- Check 8 without a padding byte (45_container.md R167). -/
theorem parseTrailer_nil {cap : Nat} {st : ParseState} (h : st.rest = []) :
    parseTrailer cap st = .error (.raise .shortHeader st.p) := by
  simp only [parseTrailer, h]

/-- Check 8 (45_container.md R167). -/
theorem parseTrailer_padding {cap : Nat} {st : ParseState} {pad : Byte} {tail : List Byte} (h : st.rest = pad :: tail)
    (hpad : 7 < pad.toNat) : parseTrailer cap st = .error (.raise .badPadding st.p) := by
  simp only [parseTrailer, h, hpad, if_true]

/-- Check 9 (45_container.md R167). -/
theorem parseTrailer_short {cap : Nat} {st : ParseState} {pad : Byte} {tail : List Byte} (h : st.rest = pad :: tail)
    (hpad : pad.toNat ≤ 7) (hshort : tail.length < 4) :
    parseTrailer cap st = .error (.raise .shortHeader (st.p + 1)) := by
  simp only [parseTrailer, h, hpad.not_gt, hshort, if_false, if_true]

/-- Settles O35: each way the trailer is bad makes `parseTrailer` raise; `parseTrailer_layout` has the last three
checks. -/
theorem parseRejectsBadTrailer : Obligations.ParseRejectsBadTrailer := by
  intro s es rest he hsrc hok hnodup hfree
  obtain ⟨st, rfl, hoffset, hraise⟩ := faultsWith_of_parseTrailer he hsrc hok hnodup hfree
  dsimp only
  rw [← hoffset]
  refine ⟨fun hrest => ?nil, fun pad tail hrest hpad => ?padding, fun pad tail hrest hpad hshort => ?short,
    fun pad plen payload hrest hpad hplen => ?payload⟩
  case nil => exact hraise _ _ (parseTrailer_nil hrest)
  case padding => exact hraise _ _ (parseTrailer_padding hrest hpad)
  case short => exact hraise _ _ (parseTrailer_short hrest hpad hshort)
  case payload =>
    have htrailer := parseTrailer_layout (cap := s.cfg.payCap.toNat) hrest hplen
    rw [if_neg hpad.not_gt] at htrailer
    refine ⟨fun hlen => ?mismatch, fun hlen hzero hne => ?exceeds, fun hlen hzero hover => ?capacity⟩
    case mismatch => exact hraise _ _ (htrailer.trans (if_pos hlen))
    case exceeds =>
      have hpos : 0 < pad.toNat := Nat.pos_of_ne_zero fun h => hne (BitVec.eq_of_toNat_eq h)
      rw [if_neg (not_not_intro hlen), if_pos (by omega)] at htrailer
      exact hraise _ _ htrailer
    case capacity =>
      have hfits : ¬ pad.toNat > 8 * plen := by
        by_cases h : plen = 0
        · simp [hzero h]
        · omega
      rw [if_neg (not_not_intro hlen), if_neg hfits, if_pos hover] at htrailer
      exact hraise _ _ htrailer

end Sys2Proof.Proofs
end

section
/-! PROOFS. 46_macro_control.md R182 to R185: CLR, the reserved words, a recorded fault, and how a command of any units
ends. -/

namespace Sys2Proof.Proofs

open Sys2Proof.Machine Sys2Proof.Safety Sys2Proof.Laws

/-! ### How a command of any units ends -/

theorem startOf_errFlag {i : Instr} {s : State} (he : s.status.err = true → i = .clr) :
    (startOf i (s.setDone false)).status.err = false := by
  by_cases hi : i = .clr
  · subst hi; rfl
  · obtain ⟨-, -, -, -, -, -, -, -, hflag⟩ := start_frame (s := s) hi
    exact hflag.trans (by simpa using mt he hi)

/-- The units of a command start with DONE and ERR clear and keep them so. -/
theorem unitRun_ended_flags {i : Instr} {s r : State} (he : s.status.err = true → i = .clr)
    (h : unitRun i s = .ended r) : r.status.done = false ∧ r.status.err = false := by
  have hflags := runUnits_flags (unitsOf i (s.setDone false)) (startOf i (s.setDone false))
  rw [← unitRun, h] at hflags
  exact ⟨hflags.1.trans (startOf_done i s), hflags.2.trans (startOf_errFlag he)⟩

theorem unitRun_raised_done {i : Instr} {s r : State} {u : Option UnitId} {c : FaultCause} {k : Nat}
    (h : unitRun i s = .raised r u c k) : r.status.done = false := by
  have hflags := runUnits_flags (unitsOf i (s.setDone false)) (startOf i (s.setDone false))
  rw [← unitRun, h] at hflags
  exact hflags.1.trans (startOf_done i s)

/-- A command whose units end without a raise succeeds (46_macro_control.md R185). -/
theorem exec_ended {i : Instr} {s r : State} (he : s.status.err = false) (h : unitRun i s = .ended r) :
    exec i s = .next (r.setDone true) ∧ Succeeded (r.setDone true) := by
  obtain ⟨-, herr⟩ := unitRun_ended_flags (by simp [he]) h
  exact ⟨by rw [exec_runs (.inl he), ← unitRun, h]; rfl, rfl, herr⟩

/-- A command one of whose units raises records the fault (60_exceptions.md R210). -/
theorem exec_raised {i : Instr} {s r : State} {u : Option UnitId} {c : FaultCause} {k : Nat}
    (he : s.status.err = false) (h : unitRun i s = .raised r u c k) :
    exec i s = .next (r.takeFault (encode i) u c k) ∧ Faulted (r.takeFault (encode i) u c k) (encode i) c k := by
  have hdone := unitRun_raised_done h
  exact ⟨by rw [exec_runs (.inl he), ← unitRun, h]; rfl, by simpa using hdone, by simp, rfl, rfl⟩

/-! ### The statements -/

/-- A word from 0x0A up decodes to no command (30_encoding.md R73). -/
theorem decodeWord_of_nine_lt {w : Byte} (h : 9 < w.toNat) : ∃ e, decodeWord w = .error e := by
  cases hd : decodeWord w with
  | error e => exact ⟨e, rfl⟩
  | ok i => exact absurd ((wellFormed_iff_le_nine w).mp (wellFormed_of_decode hd)) (Nat.not_le.mpr h)

theorem errInfoWord_byte (w : Byte) : errInfoWord w.toNat = w.setWidth 32 := by
  have hw := w.isLt
  rw [errInfoWord, if_pos (by omega)]
  exact BitVec.eq_of_toNat_eq (by simp)

/-- Settles O5: fault entry with no unit, so with no destinations. -/
theorem reservedWordRaisesIllegalCommand : Obligations.ReservedWordRaisesIllegalCommand := by
  intro s w hw he
  obtain ⟨e, hd⟩ := decodeWord_of_nine_lt hw
  rw [command_of_reserved s hd, execIllegal_eq w s (reserved_ne hd _), if_neg (by simp [he]), State.takeFault,
    errInfoWord_byte]
  rfl

/-- Settles O8: CLR has no units, and the protocol never ignores it. -/
theorem clrRestoresResetValues : Obligations.ClrRestoresResetValues := fun _ => exec_runs (.inr rfl)

/-- Settles O6: a CMD write is ignored, and no host move but a reset touches STATUS, ERR or ERRINFO. -/
theorem faultHoldsUntilAcknowledged : Obligations.FaultHoldsUntilAcknowledged := by
  refine ⟨command_ignored, fun s t he h hreset hclr => ?step⟩
  case step =>
    rcases step_cases s with ⟨-, hst⟩ | ⟨v, rest, hhost, hst⟩ | ⟨m, rest, hhost, -, hst⟩ <;> rw [hst] at h
    · cases h
      exact ⟨rfl, rfl, rfl⟩
    · rw [command_ignored (s.taken rest) (cmdByte v) he (hclr v rest hhost)] at h
      cases h
      exact ⟨rfl, rfl, rfl⟩
    · cases h
      have hm : m ≠ .reset := fun e => hreset rest (e ▸ hhost)
      have hframe := hostMove_frame (s.taken rest) hm
      exact ⟨hframe.status, hframe.err, hframe.errInfo⟩

/-- Settles O7: a command is ignored with the fault as it was, ends, or records a fault; a reserved word is ignored or
records a fault. -/
theorem exactlyOneOfDoneAndErr : Obligations.ExactlyOneOfDoneAndErr := by
  intro s t w hflags h
  have hheld : s.status.err = true → s.status.done = false := fun he => by simpa [he] using hflags
  cases hd : decodeWord w with
  | ok i =>
    rw [command_of_decode s hd] at h
    rcases exec_cases h with ⟨he, -, rfl⟩ | ⟨he, r, hr, rfl⟩ | ⟨-, r, u, c, k, hr, rfl⟩
    · exact .inr ⟨hheld he, he⟩
    · exact .inl ⟨rfl, (unitRun_ended_flags he hr).2⟩
    · exact .inr (by simpa using unitRun_raised_done hr)
  | error e =>
    rw [command_of_reserved s hd, execIllegal_eq w s (reserved_ne hd _)] at h
    split at h <;> cases h
    next he => exact .inr ⟨hheld he, he⟩
    next => exact .inr ⟨rfl, rfl⟩

end Sys2Proof.Proofs
end

section
/-! PROOFS. 46_macro_control.md R180: COMPRESS on an empty and on a non-empty input, its one fault, and why the input
alone decides it. -/

namespace Sys2Proof.Proofs

open Sys2Proof.Machine Sys2Proof.Safety Sys2Proof.Laws

/-! ### A non-empty input -/

theorem unitRun_compress (s : State) :
    unitRun .compress s = runUnits (compressUnits s) (s.setDone false).clearDerived := rfl

/-- State `t` has the counts and the code table of the input of `s`, as FREQ, BUILD and GENCODE make them. -/
structure Coded (s t : State) : Prop where
  input : t.srcBytes = s.srcBytes
  cfg : t.cfg = s.cfg
  empty : t.status.empty = false
  counts : t.ft = freqTable s.srcBytes
  coded : ∀ b, (tableGet t.ct b).len ≠ 0 ↔ b ∈ s.srcBytes
  free : PrefixFree ((tableEntriesOf t.ct).map (·.code))

/-- `t` moreover has the payload, as ENCODE makes it. -/
structure Encoded (s t : State) : Prop extends Coded s t where
  size : t.payBytes.length = byteCount (concatCodes t.ct s.srcBytes).length
  room : t.payBytes.length ≤ s.cfg.payCap.toNat
  payload : bitsOf t.payBytes = concatCodes t.ct s.srcBytes ++ List.replicate t.pad.toNat false
  padding : t.pad.toNat = padCount (concatCodes t.ct s.srcBytes).length

/-- `t` moreover has the container, as FRAME makes it. -/
structure Compressed (s t : State) : Prop extends Encoded s t where
  output : t.dstBytes = layout s.cfg.magic (tableEntriesOf t.ct) (t.pad.setWidth 8) t.payBytes

/-- The codes of a tree make a prefix-free table. -/
theorem prefixFree_of_tree {s : State} {tree : HTree} (h : TreeOf s tree) :
    PrefixFree ((tableEntriesOf (tableOfCodes tree.paths)).map (·.code)) :=
  prefixFree_tableEntriesOf fun b b' c c' hne hb hb' =>
    paths_apart hne ((hasCode_paths h b c).mp hb) ((hasCode_paths h b' c').mp hb')

/-- FREQ, BUILD and GENCODE answer on a non-empty input and leave ENCODE and FRAME to run. -/
theorem compress_coded {s : State} (hne : s.srcLen ≠ 0) :
    ∃ c, Coded s c ∧ unitRun .compress s = runUnits [.encode, .frame] c := by
  obtain ⟨b, tree, c, -, htree, rfl, -, hsrc, hcfg, hft, hcoded, hstatus, -, -, hrun⟩ :=
    compress_run (s.setDone false).clearDerived hne
  refine ⟨_, ⟨hsrc, hcfg, by rw [hstatus], hft, hcoded, prefixFree_of_tree htree⟩, ?_⟩
  rw [unitRun_compress, compressUnits, if_neg hne, hrun]

/-- A unit that leaves the counts and the code table alone. -/
theorem Coded.of_unitFrame {u : UnitId} {s c t : State} (h : Coded s c) (hf : UnitFrame u c t) (hfreq : u ≠ .freq)
    (hgencode : u ≠ .gencode) (hparse : u ≠ .parse) : Coded s t := by
  obtain ⟨hft, hstatus⟩ := hf.freq hfreq
  have hct := hf.code hgencode hparse
  constructor
  case input => exact (srcBytes_frame hf.src hf.srcLen).trans h.input
  case cfg => exact hf.cfg.trans h.cfg
  case empty => rw [hstatus]; exact h.empty
  case counts => exact hft.trans h.counts
  case coded => rw [hct]; exact h.coded
  case free => rw [hct]; exact h.free

/-- Every symbol of the input has a code, so only the capacity can stop ENCODE; a symbol takes at most 255 bits. -/
theorem Coded.encode_outcome {s c : State} (h : Coded s c) :
    (∃ d, encodeUnit c = .ok d ∧ Encoded s d) ∨
    (encodeUnit c = .error (.raise .capacityPay 0) ∧ s.cfg.payCap.toNat < 32 * s.srcLen.toNat) := by
  have hsize := byteCount_concatCodes_le c.ct s.srcBytes
  rw [length_srcBytes] at hsize
  have hends := encode_coded (s := c) fun x hx => (h.coded x).mpr (h.input ▸ hx)
  rw [h.input, h.cfg] at hends
  rcases hends with ⟨hover, hunit⟩ | ⟨hroom, d, hunit, hlen, hpad, hbits⟩
  · exact .inr ⟨hunit, by omega⟩
  · have hframe := run_frame (u := .encode) hunit
    have hct : d.ct = c.ct := hframe.code (by decide) (by decide)
    rw [← hct] at hroom hlen hpad hbits
    rw [← length_payBytes] at hlen
    exact .inl ⟨d, hunit, h.of_unitFrame hframe (by decide) (by decide) (by decide), hlen, hlen ▸ hroom, hbits, hpad⟩

/-- FRAME fits where DST holds the largest table and payload. -/
theorem Encoded.frame_outcome {s d : State} (h : Encoded s d) :
    (∃ t, frameUnit d = .ok t ∧ Compressed s t) ∨
    (frameUnit d = .error (.raise .capacityDst 0) ∧ s.cfg.dstCap.toNat < 8715 + 32 * s.srcLen.toNat) := by
  have htable := tableSize_le d.ct
  have hsize := byteCount_concatCodes_le d.ct s.srcBytes
  rw [length_srcBytes, ← h.size, length_payBytes] at hsize
  have hends := frame_cases d
  rw [h.cfg] at hends
  rcases hends with ⟨hover, hunit⟩ | ⟨-, t, hunit, hdst⟩
  · exact .inr ⟨hunit, by omega⟩
  · have hframe := run_frame (u := .frame) hunit
    have hct : t.ct = d.ct := hframe.code (by decide) (by decide)
    obtain ⟨hpay, hpayLen, hpad⟩ := hframe.payload (by decide) (by decide)
    have hbytes := payBytes_frame hpay hpayLen
    have hcoded := h.toCoded.of_unitFrame hframe (by decide) (by decide) (by decide)
    obtain ⟨-, hlen, hroom, hbits, hcount⟩ := h
    simp only [← hct, ← hbytes, ← hpad] at hlen hroom hbits hcount hdst
    exact .inl ⟨t, hunit, ⟨hcoded, hlen, hroom, hbits, hcount⟩, hdst⟩

/-- COMPRESS of a non-empty input ends with the container, unless a buffer is smaller than the worst case. -/
theorem compress_outcome {s : State} (hne : s.srcLen ≠ 0) :
    (∃ t, unitRun .compress s = .ended t ∧ Compressed s t) ∨
    (∃ r u c k, unitRun .compress s = .raised r u c k ∧
      (s.cfg.payCap.toNat < 32 * s.srcLen.toNat ∨ s.cfg.dstCap.toNat < 8715 + 32 * s.srcLen.toNat)) := by
  obtain ⟨c, hc, hrun⟩ := compress_coded hne
  rw [hrun]
  rcases hc.encode_outcome with ⟨d, henc, hd⟩ | ⟨henc, hover⟩
  · rcases hd.frame_outcome with ⟨t, hfr, ht⟩ | ⟨hfr, hover⟩
    · exact .inl ⟨t, by simp only [runUnits, UnitId.run, henc, hfr], ht⟩
    · exact .inr ⟨d, some .frame, .capacityDst, 0, by simp only [runUnits, UnitId.run, henc, hfr], .inr hover⟩
  · exact .inr ⟨c, some .encode, .capacityPay, 0, by simp only [runUnits, UnitId.run, henc], .inl hover⟩

/-- Settles O42: with room for the worst case `compress_outcome` leaves the container. -/
theorem compressMakesTheContainer : Obligations.CompressMakesTheContainer := by
  intro s he hne hpay hdst
  rcases compress_outcome hne with ⟨t, hrun, ht⟩ | ⟨_, _, _, _, -, hover | hover⟩
  case inl =>
    obtain ⟨hexec, hok⟩ := exec_ended he hrun
    refine ⟨_, hexec, hok, ht.empty, fun b => ?_, ht.coded, ht.payload, ht.padding, ht.output⟩
    rw [setDone_ft, ht.counts]
    exact freqTable_count (length_srcBytes_lt s) b
  all_goals omega

/-! ### The empty input -/

theorem tableEntriesOf_empty : tableEntriesOf emptyCodeTable = [] := by simp [tableEntriesOf]

/-- What COMPRESS leaves of an empty input: EMPTY, no tree, and the container of no entries and no payload
(30_encoding.md R88). -/
structure CompressedEmpty (s t : State) : Prop where
  empty : t.status.empty = true
  noTree : t.root = nil ∧ t.nodeCnt = 0
  output : t.dstBytes = layout s.cfg.magic [] 0 []

/-- COMPRESS of an empty input ends with the empty container, unless DST has no room for it. -/
theorem compress_empty_outcome {s : State} (hz : s.srcLen = 0) :
    (∃ t, unitRun .compress s = .ended t ∧ CompressedEmpty s t) ∨
    (∃ r u c k, unitRun .compress s = .raised r u c k ∧ s.cfg.dstCap.toNat < 11) := by
  let d := freqUnit (s.setDone false).clearDerived
  have hrun : unitRun .compress s = runUnits [.frame] d := by
    rw [unitRun_compress, compressUnits, if_pos hz]
    rfl
  have htable : tableSize d.ct = 0 := by
    change tableSize emptyCodeTable = 0
    rw [tableSize, codedEntries_empty]
    rfl
  rw [hrun]
  rcases frame_cases d with ⟨hover, hfr⟩ | ⟨-, t, hfr, hdst⟩
  · refine .inr ⟨d, some .frame, .capacityDst, 0, by simp only [runUnits, UnitId.run, hfr], ?_⟩
    rwa [htable] at hover
  · have hframe := run_frame (u := .frame) hfr
    obtain ⟨-, hstatus⟩ := hframe.freq (by decide)
    obtain ⟨-, hroot, hcnt⟩ := hframe.tree (by decide) (by decide)
    refine .inl ⟨t, by simp only [runUnits, UnitId.run, hfr], ?_, ⟨hroot, hcnt⟩, ?_⟩
    · rw [hstatus]
      exact beq_iff_eq.mpr hz
    · rw [hdst, show d.ct = emptyCodeTable from rfl, tableEntriesOf_empty]
      rfl

/-- Settles O43: with room for 11 bytes `compress_empty_outcome` leaves the empty container. -/
theorem compressOfEmptyInput : Obligations.CompressOfEmptyInput := by
  intro s he hz hroom
  rcases compress_empty_outcome hz with ⟨t, hrun, ht⟩ | ⟨_, _, _, _, -, hover⟩
  · obtain ⟨hexec, hok⟩ := exec_ended he hrun
    obtain ⟨hroot, hcnt⟩ := ht.noTree
    refine ⟨_, hexec, hok, ht.empty, hroot, hcnt, ht.output.trans ?_⟩
    simp [layout, beBytes, List.range_succ]
  · exact absurd hroom (Nat.not_le.mpr hover)

/-! ### The one fault -/

/-- Settles O44: `compress_onlyCapacity` leaves two ends, and no unit but FRAME writes DST_LEN. -/
theorem compressFailsOnlyOnCapacity : Obligations.CompressFailsOnlyOnCapacity := by
  intro s he
  have honly := compress_onlyCapacity s
  cases hrun : unitRun .compress s with
  | ended r =>
    obtain ⟨hexec, hok⟩ := exec_ended he hrun
    exact ⟨_, hexec, .inl hok⟩
  | raised r u c k =>
    rw [hrun] at honly
    obtain ⟨hexec, hdone, herr, -, -⟩ := exec_raised he hrun
    exact ⟨_, hexec, .inr ⟨hdone, herr, honly, rfl, unitRun_raised_dstLen (by decide) hrun⟩⟩
  | stuck r =>
    rw [hrun] at honly
    exact honly.elim

/-! ### The input alone -/

theorem dstBytes_eq_nil {s : State} (h : s.dstLen = 0) : s.dstBytes = [] := by simp [State.dstBytes, h]

theorem payBytes_eq_nil {s : State} (h : s.payLen = 0) : s.payBytes = [] := by simp [State.payBytes, h]

/-- After step 1 of COMPRESS two states show nothing but their input and parameters. -/
theorem alike_start {s s' : State} (he : s.status.err = s'.status.err) (hcfg : s.cfg = s'.cfg)
    (hsrc : s.srcBytes = s'.srcBytes) (hlen : s.srcLen = s'.srcLen) :
    Alike (startOf .compress (s.setDone false)) (startOf .compress (s'.setDone false)) := by
  refine ⟨?_, hcfg, hsrc, hlen, rfl, ?_, rfl, rfl, ⟨rfl, rfl, rfl⟩, rfl, rfl, ?_⟩
  · simp [startOf, he]
  · exact (dstBytes_eq_nil rfl).trans (dstBytes_eq_nil rfl).symm
  · exact (payBytes_eq_nil rfl).trans (payBytes_eq_nil rfl).symm

/-- What clearing the destinations of a unit leaves of states that are alike is alike. -/
theorem alike_clearDest {a b : State} (u : Option UnitId) (h : Alike a b) :
    Alike (a.clearDest u) (b.clearDest u) := by
  obtain ⟨hst, hcfg, hsrc, hsl, hdl, hdst, hft, hct, htree, hpl, hpad, hpay⟩ := h
  have hdst0 : ∀ {s s' : State}, s.dstLen = 0 → s'.dstLen = 0 → s.dstBytes = s'.dstBytes :=
    fun h h' => (dstBytes_eq_nil h).trans (dstBytes_eq_nil h').symm
  have hpay0 : ∀ {s s' : State}, s.payLen = 0 → s'.payLen = 0 → s.payBytes = s'.payBytes :=
    fun h h' => (payBytes_eq_nil h).trans (payBytes_eq_nil h').symm
  rcases u with _ | u
  · exact ⟨hst, hcfg, hsrc, hsl, hdl, hdst, hft, hct, htree, hpl, hpad, hpay⟩
  cases u with
  | freq => exact ⟨hst, hcfg, hsrc, hsl, hdl, hdst, hft, hct, htree, hpl, hpad, hpay⟩
  | build => exact ⟨hst, hcfg, hsrc, hsl, hdl, hdst, hft, hct, ⟨rfl, rfl, rfl⟩, hpl, hpad, hpay⟩
  | gencode => exact ⟨hst, hcfg, hsrc, hsl, hdl, hdst, hft, rfl, htree, hpl, hpad, hpay⟩
  | encode => exact ⟨hst, hcfg, hsrc, hsl, hdl, hdst, hft, hct, htree, rfl, rfl, hpay0 rfl rfl⟩
  | frame => exact ⟨hst, hcfg, hsrc, hsl, rfl, hdst0 rfl rfl, hft, hct, htree, hpl, hpad, hpay⟩
  | parse => exact ⟨hst, hcfg, hsrc, hsl, hdl, hdst, hft, rfl, ⟨rfl, rfl, rfl⟩, rfl, rfl, hpay0 rfl rfl⟩
  | decode => exact ⟨hst, hcfg, hsrc, hsl, rfl, hdst0 rfl rfl, hft, hct, htree, hpl, hpad, hpay⟩

/-- So are the states after fault entry, and their fault registers are the same. -/
theorem alike_takeFault {a b : State} (op : Byte) (u : Option UnitId) (c : FaultCause) (k : Nat) (h : Alike a b) :
    Alike (a.takeFault op u c k) (b.takeFault op u c k) := by
  obtain ⟨hst, hrest⟩ := alike_clearDest u h
  exact ⟨congrArg (fun f : Status => { f with err := true }) hst, hrest⟩

theorem alike_setDone {a b : State} (d : Bool) (h : Alike a b) : Alike (a.setDone d) (b.setDone d) := by
  obtain ⟨hst, hrest⟩ := h
  exact ⟨congrArg (fun f : Status => { f with done := d }) hst, hrest⟩

theorem compressUnits_congr {s s' : State} (h : s.srcLen = s'.srcLen) : compressUnits s = compressUnits s' := by
  rw [compressUnits, compressUnits, h]

/-- Two commands that end alike: without a raise, or with the same raise. -/
inductive AlikeEnds : CmdEnd → CmdEnd → Prop where
  | ended {a b : State} (h : Alike a b) : AlikeEnds (.ended a) (.ended b)
  | raised {a b : State} (h : Alike a b) (u : Option UnitId) (c : FaultCause) (k : Nat) :
      AlikeEnds (.raised a u c k) (.raised b u c k)

/-- Units other than PARSE and DECODE that do not stop end alike from states alike. -/
theorem runUnits_alikeEnds {us : List UnitId} (hus : ∀ u ∈ us, u ≠ .parse ∧ u ≠ .decode) {a b : State}
    (h : Alike a b) (hstop : ∀ r, runUnits us a ≠ .stuck r) : AlikeEnds (runUnits us a) (runUnits us b) := by
  have hends := alike_units hus h
  generalize runUnits us a = e at *
  generalize runUnits us b = e' at *
  cases e with
  | ended x =>
    cases e' with
    | ended y => exact .ended hends
    | raised => exact hends.elim
    | stuck => exact hends.elim
  | raised x u c k =>
    cases e' with
    | ended => exact hends.elim
    | raised y u' c' k' =>
      obtain ⟨hxy, rfl, rfl, rfl⟩ := hends
      exact .raised hxy u c k
    | stuck => exact hends.elim
  | stuck r => exact absurd rfl (hstop r)

theorem compress_not_stuck (s : State) (r : Fault) : unitRun .compress s ≠ .stuck r := fun h => by
  simpa [h, OnlyCapacity] using compress_onlyCapacity s

/-- COMPRESS of the same input with the same parameters ends alike. -/
theorem compress_alikeEnds {s s' : State} (he : s.status.err = s'.status.err) (hcfg : s.cfg = s'.cfg)
    (hsrc : s.srcBytes = s'.srcBytes) : AlikeEnds (unitRun .compress s) (unitRun .compress s') := by
  have hlen : s.srcLen = s'.srcLen := by
    rw [← BitVec.toNat_inj, ← length_srcBytes, hsrc, length_srcBytes]
  have hunits : unitRun .compress s' =
      runUnits (unitsOf .compress (s.setDone false)) (startOf .compress (s'.setDone false)) :=
    congrArg (runUnits · _) (compressUnits_congr hlen).symm
  have hother : ∀ u ∈ unitsOf .compress (s.setDone false), u ≠ .parse ∧ u ≠ .decode := by
    simp only [unitsOf, compressUnits]
    split <;> decide
  rw [hunits]
  exact runUnits_alikeEnds hother (alike_start he hcfg hsrc hlen) (compress_not_stuck s)

/-- Settles O45: the two runs end alike, and fault entry records the same cause and value in both. -/
theorem compressDependsOnInputAlone : Obligations.CompressDependsOnInputAlone := by
  intro s s' t t' he he' hcfg hsrc h h'
  have hends := compress_alikeEnds (he.trans he'.symm) hcfg hsrc
  generalize hr : unitRun .compress s = e, hr' : unitRun .compress s' = e' at hends
  suffices hshown : Alike t t' ∧ (t.status.err = true → t.err = t'.err ∧ t.errInfo = t'.errInfo) by
    obtain ⟨⟨hst, -, -, -, hdl, hdst, hft, hct, htree, hpl, hpad, hpay⟩, herr⟩ := hshown
    exact ⟨hst, herr, hdl, hdst, hft, hct, htree, hpl, hpad, hpay⟩
  cases hends with
  | ended halike =>
    obtain ⟨hexec, -, hok⟩ := exec_ended he hr
    obtain ⟨hexec', -⟩ := exec_ended he' hr'
    cases hexec.symm.trans h
    cases hexec'.symm.trans h'
    exact ⟨alike_setDone true halike, fun hf => absurd (hok.symm.trans hf) (by decide)⟩
  | raised halike u c k =>
    obtain ⟨hexec, -⟩ := exec_raised he hr
    obtain ⟨hexec', -⟩ := exec_raised he' hr'
    cases hexec.symm.trans h
    cases hexec'.symm.trans h'
    exact ⟨alike_takeFault _ u c k halike, fun _ => ⟨rfl, rfl⟩⟩

end Sys2Proof.Proofs
end

section
/-! PROOFS. 46_macro_control.md R181: DECOMPRESS of a legal container whose payload spells codes of its table, and the
faults DECOMPRESS can record. -/

namespace Sys2Proof.Proofs

open Sys2Proof.Machine Sys2Proof.Safety Sys2Proof.Laws

theorem unitRun_decompress (s : State) :
    unitRun .decompress s = runUnits [.parse, .decode] (s.setDone false).clearDerived := rfl

/-! ### A container that spells symbols -/

/-- `container` is the layout of a legal table, padding count and payload, and the payload's bits are the codes of the
entries `xs` one after the other, so it holds the symbols of `xs` (45_container.md R166, 44_bit_decode.md R151). -/
structure Spells (cfg : Config) (container : List Byte) (es : List RawEntry) (pad : Byte) (payload : List Byte)
    (xs : List RawEntry) : Prop where
  bytes : container = layout cfg.magic es pad payload
  ok : ∀ e ∈ es, e.ok
  nodup : (es.map (·.sym)).Nodup
  free : PrefixFree (es.map (·.code))
  padding : pad.toNat ≤ 7
  noPadding : payload = [] → pad = 0
  room : payload.length ≤ cfg.payCap.toNat
  mem : ∀ x ∈ xs, x ∈ es
  bits : (bitsOf payload).take (8 * payload.length - pad.toNat) = xs.flatMap (·.code)

/-- PARSE of such a container leaves a tree whose leaf paths the payload bits are. -/
theorem Spells.parse {s : State} {es xs : List RawEntry} {pad : Byte} {payload : List Byte}
    (h : Spells s.cfg s.srcBytes es pad payload xs) :
    ∃ r tree, parseUnit s = .ok r ∧ TreeOf r tree ∧ r.pad.toNat ≤ 8 * r.payLen.toNat ∧
      (∀ p ∈ xs.map (fun x => (x.sym, x.code)), p ∈ tree.paths) ∧
      r.payloadBits = (xs.map fun x => (x.sym, x.code)).flatMap (·.2) := by
  obtain ⟨r, tree, -, hunit, -, -, htree, -, -, hpaths, hpay, hlen, hpad⟩ :=
    parse_layout h.bytes h.ok h.nodup h.free h.padding h.noPadding h.room
  refine ⟨r, tree, hunit, htree, ?_, fun p hp => ?_, ?_⟩
  · rw [hpad, hlen]
    by_cases hnil : payload = []
    · simp [h.noPadding hnil]
    · have hpos := List.length_pos_iff.mpr hnil
      have hle := h.padding
      omega
  · obtain ⟨x, hx, rfl⟩ := List.mem_map.mp hp
    exact hpaths.mem_iff.mpr (List.mem_map_of_mem (h.mem x hx))
  · rw [State.payloadBits, hpay, hlen, hpad, h.bits, List.flatMap_map]

/-- DECOMPRESS of such a container ends with the symbols, unless DST has no room for them. -/
theorem decompress_outcome {s : State} {es xs : List RawEntry} {pad : Byte} {payload : List Byte}
    (h : Spells s.cfg s.srcBytes es pad payload xs) :
    (xs.length ≤ s.cfg.dstCap.toNat ∧ ∃ t, unitRun .decompress s = .ended t ∧ t.dstBytes = xs.map (·.sym)) ∨
    (s.cfg.dstCap.toNat < xs.length ∧ ∃ r, unitRun .decompress s = .raised r (some .decode) .capacityDst 0) := by
  obtain ⟨r, tree, hparse, htree, hpad, hpaths, hbits⟩ := Spells.parse (s := (s.setDone false).clearDerived) h
  have hcfg : r.cfg = s.cfg := (run_frame (u := .parse) hparse).cfg
  have hroot := treeOf_root_ne_nil htree
  rw [unitRun_decompress, ← hcfg]
  rcases Nat.lt_or_ge r.cfg.dstCap.toNat xs.length with hover | hfits
  · have hwalk := decodeWalk_capacity (rest := []) htree hpaths (by simpa using hbits) (by simpa using hover)
    have hdecode : decodeUnit r = .error (.raise .capacityDst 0) := by
      rw [decodeUnit, if_neg hroot, if_neg (by omega), hwalk]
    exact .inr ⟨hover, r, by simp only [runUnits, UnitId.run, hparse, hdecode]⟩
  · obtain ⟨t, hdecode, hout, -⟩ := decode_paths hroot htree hpad hpaths hbits (by simpa using hfits)
    refine .inl ⟨hfits, t, by simp only [runUnits, UnitId.run, hparse, hdecode], ?_⟩
    rw [hout, List.map_map]
    rfl

/-- Settles O47: the hypotheses are `Spells` and room in DST. -/
theorem decompressReadsTheContainer : Obligations.DecompressReadsTheContainer := by
  intro s es pad payload xs he hsrc hok hnodup hfree hpad hempty hroom hmem hfits hbits
  rcases decompress_outcome ⟨hsrc, hok, hnodup, hfree, hpad, hempty, hroom, hmem, hbits⟩ with
    ⟨-, t, hrun, hout⟩ | ⟨hover, -⟩
  · obtain ⟨hexec, hsucc⟩ := exec_ended he hrun
    exact ⟨_, hexec, hsucc, hout⟩
  · exact absurd hfits (Nat.not_le.mpr hover)

/-! ### The faults -/

/-- The kinds of fault DECOMPRESS records: CorruptContainerError, TruncatedStreamError, CapacityFault. -/
def DecompressKind (c : FaultCause) : Prop := c.kind = 2 ∨ c.kind = 3 ∨ c.kind = 4

/-- DECODE with a tree raises no SequenceFault (44_bit_decode.md R154). -/
theorem decode_with_tree_cases {s : State} (h : TreeInv s) (hroot : s.root ≠ nil) :
    (∃ t, decodeUnit s = .ok t) ∨ ∃ c k, decodeUnit s = .error (.raise c k) ∧ DecompressKind c := by
  obtain ⟨tree, hnode, -, -, xs, hx, -⟩ := h.tree hroot
  rw [decodeUnit, if_neg hroot]
  split
  next => exact .inr ⟨_, _, rfl, .inl rfl⟩
  next =>
    rcases decodeWalk_outcome (cap := s.cfg.dstCap.toNat) hx hnode s.payloadBits hx hnode 0 0 [] (Nat.zero_le _) with
      ⟨out, hwalk, -⟩ | ⟨c, k, hwalk, hcause⟩ <;> rw [hwalk]
    · exact .inl ⟨_, rfl⟩
    · refine .inr ⟨c, k, rfl, ?_⟩
      rcases hcause with rfl | rfl | rfl
      · exact .inr (.inl rfl)
      · exact .inl rfl
      · exact .inr (.inr rfl)

/-- The units of DECOMPRESS end, or PARSE or DECODE raises: a PARSE that ends leaves a tree. -/
theorem decompress_cases (s : State) :
    (∃ t, unitRun .decompress s = .ended t) ∨
    ∃ r u c k, unitRun .decompress s = .raised r u c k ∧ DecompressKind c := by
  rw [unitRun_decompress]
  rcases parse_cases (s.setDone false).clearDerived with ⟨c, k, hparse, hkind⟩ | ⟨-, -, r, hparse, -, hinv, hroot, -⟩
  · exact .inr ⟨(s.setDone false).clearDerived, some .parse, c, k, by simp only [runUnits, UnitId.run, hparse],
      hkind.imp_right .inr⟩
  · rcases decode_with_tree_cases hinv (hroot ▸ zero_ne_nil) with ⟨t, hdecode⟩ | ⟨c, k, hdecode, hkind⟩
    · exact .inl ⟨t, by simp only [runUnits, UnitId.run, hparse, hdecode]⟩
    · exact .inr ⟨r, some .decode, c, k, by simp only [runUnits, UnitId.run, hparse, hdecode], hkind⟩

/-- Settles O48: no unit but DECODE writes DST_LEN. -/
theorem decompressFaults : Obligations.DecompressFaults := by
  intro s he
  rcases decompress_cases s with ⟨t, hrun⟩ | ⟨r, u, c, k, hrun, hkind⟩
  · obtain ⟨hexec, hok⟩ := exec_ended he hrun
    exact ⟨_, hexec, .inl hok⟩
  · obtain ⟨hexec, hdone, herr, -, -⟩ := exec_raised he hrun
    exact ⟨_, hexec, .inr ⟨hdone, herr, rfl, hkind, unitRun_raised_dstLen (by decide) hrun⟩⟩

end Sys2Proof.Proofs
end

section
/-! PROOFS. 46_macro_control.md R186, R187: COMPRESS and DECOMPRESS against their units one by one, and
DECOMPRESS against COMPRESS. -/

namespace Sys2Proof.Proofs

open Sys2Proof.Machine Sys2Proof.Safety Sys2Proof.Laws

/-! ### The units one by one -/

/-- A command that leaves no fault ended without a raise. -/
theorem unitRun_of_succeeded {i : Instr} {s t : State} (he : s.status.err = false) (h : exec i s = .next t)
    (ht : Succeeded t) : ∃ r, unitRun i s = .ended r ∧ t = r.setDone true := by
  rcases exec_cases h with ⟨herr, -⟩ | ⟨-, hr⟩ | ⟨-, r, u, c, k, -, rfl⟩
  · cases he.symm.trans herr
  · exact hr
  · simp [Succeeded] at ht

/-- DONE and ERR are clear, as between the units of COMPRESS and DECOMPRESS. -/
def FlagsClear (s : State) : Prop := s.status.done = false ∧ s.status.err = false

/-- The first unit of a run that ends, as a command of its own: whatever DONE is before, the command goes to the state
the rest of the run starts from, with DONE set. -/
theorem exec_first_unit {i : Instr} {u : UnitId} {us : List UnitId} {s t : State} (hu : unitsOf i = fun _ => [u])
    (hs : startOf i = fun t => t) (hflags : FlagsClear s) (h : runUnits (u :: us) s = .ended t) :
    ∃ r, (∀ d, exec i (s.setDone d) = .next (r.setDone true)) ∧ FlagsClear r ∧ runUnits us r = .ended t := by
  obtain ⟨hdone, herr⟩ := hflags
  rw [runUnits] at h
  split at h
  next r hr =>
    have hframe := run_frame hr
    exact ⟨r, exec_unit_setDone hu hs herr hdone hr, ⟨hframe.done.trans hdone, hframe.errFlag.trans herr⟩, h⟩
  next => cases h
  next => cases h

/-- On cleared derived state step 1 of COMPRESS and DECOMPRESS changes nothing (46_macro_control.md R180, R181). -/
theorem setDone_clearDerived {s : State} (h : s.clearDerived = s) : (s.setDone false).clearDerived = s.setDone false :=
  congrArg (State.setDone · false) h

/-- Settles O46: the run of the command, taken apart unit by unit. -/
theorem macroAgreesWithUnits : Obligations.MacroAgreesWithUnits := by
  refine ⟨fun s t he hclear hne h ht => ?input, fun s t he hclear hz h ht => ?empty, fun s t he hclear h ht => ?parse⟩
  all_goals
    obtain ⟨r, hrun, rfl⟩ := unitRun_of_succeeded he h ht
    have hstart : (s.setDone false).setDone s.status.done = s := setDone_self _ rfl
    have hs : FlagsClear (s.setDone false) := ⟨rfl, he⟩
  case input =>
    rw [unitRun_compress, compressUnits, if_neg hne, setDone_clearDerived hclear] at hrun
    obtain ⟨a, hfreq, ha, hrun⟩ := exec_first_unit (i := .freq) rfl rfl hs hrun
    obtain ⟨b, hbuild, hb, hrun⟩ := exec_first_unit (i := .build) rfl rfl ha hrun
    obtain ⟨c, hgencode, hc, hrun⟩ := exec_first_unit (i := .gencode) rfl rfl hb hrun
    obtain ⟨d, hencode, hd, hrun⟩ := exec_first_unit (i := .encode) rfl rfl hc hrun
    obtain ⟨e, hframe, -, hrun⟩ := exec_first_unit (i := .frame) rfl rfl hd hrun
    cases hrun
    exact ⟨_, _, _, _, hstart ▸ hfreq _, hbuild _, hgencode _, hencode _, hframe _⟩
  case empty =>
    rw [unitRun_compress, compressUnits, if_pos hz, setDone_clearDerived hclear] at hrun
    obtain ⟨a, hfreq, ha, hrun⟩ := exec_first_unit (i := .freq) rfl rfl hs hrun
    obtain ⟨e, hframe, -, hrun⟩ := exec_first_unit (i := .frame) rfl rfl ha hrun
    cases hrun
    exact ⟨_, hstart ▸ hfreq _, hframe _⟩
  case parse =>
    rw [unitRun_decompress, setDone_clearDerived hclear] at hrun
    obtain ⟨a, hparse, ha, hrun⟩ := exec_first_unit (i := .parse) rfl rfl hs hrun
    obtain ⟨e, hdecode, -, hrun⟩ := exec_first_unit (i := .decode) rfl rfl ha hrun
    cases hrun
    exact ⟨_, hstart ▸ hparse _, hdecode _⟩

/-! ### The container of an input spells the input -/

/-- Symbols with codes are the symbols of entries FRAME writes, and their codes are the entries' codes. -/
theorem exists_entries_of_coded {ct : Vector CtRec 256} {bs : List Byte} (h : ∀ b ∈ bs, (tableGet ct b).len ≠ 0) :
    ∃ xs : List RawEntry, (∀ x ∈ xs, x ∈ tableEntriesOf ct) ∧ xs.map (·.sym) = bs ∧
      xs.flatMap (·.code) = concatCodes ct bs := by
  induction bs with
  | nil => exact ⟨[], by simp, rfl, rfl⟩
  | cons b bs ih =>
    obtain ⟨xs, hmem, hsym, hcode⟩ := ih fun x hx => h x (List.mem_cons_of_mem b hx)
    obtain ⟨e, he, rfl⟩ := tableEntriesOf_mem (h b List.mem_cons_self)
    obtain ⟨-, -, hecode⟩ := mem_tableEntriesOf he
    refine ⟨e :: xs, List.forall_mem_cons.mpr ⟨he, hmem⟩, by rw [List.map_cons, hsym], ?_⟩
    rw [List.flatMap_cons, hcode, hecode]
    rfl

theorem Compressed.spells {s t : State} (h : Compressed s t) :
    ∃ xs, Spells s.cfg t.dstBytes (tableEntriesOf t.ct) (t.pad.setWidth 8) t.payBytes xs ∧
      xs.map (·.sym) = s.srcBytes := by
  obtain ⟨xs, hmem, hsym, hcode⟩ := exists_entries_of_coded fun b => (h.coded b).mpr
  have hpad : (t.pad.setWidth 8).toNat = t.pad.toNat := BitVec.toNat_setWidth_of_le (by decide)
  have hlen := congrArg List.length h.payload
  rw [length_bitsOf, List.length_append, List.length_replicate] at hlen
  refine ⟨xs, ⟨h.output, fun e he => (mem_tableEntriesOf he).1, nodup_tableEntriesOf t.ct, h.free, ?padding,
    fun hnil => ?noPadding, h.room, hmem, ?bits⟩, hsym⟩
  case padding =>
    rw [hpad]
    have := t.pad.isLt
    omega
  case noPadding =>
    rw [hnil, List.length_nil] at hlen
    exact BitVec.eq_of_toNat_eq (hpad.trans (by simp; omega))
  case bits =>
    rw [hpad, hlen, Nat.add_sub_cancel, h.payload, List.take_left, hcode]

theorem CompressedEmpty.spells {s t : State} (h : CompressedEmpty s t) :
    Spells s.cfg t.dstBytes [] 0 [] [] where
  bytes := h.output
  ok := by simp
  nodup := List.nodup_nil
  free := List.Pairwise.nil
  padding := Nat.zero_le _
  noPadding _ := rfl
  room := Nat.zero_le _
  mem := by simp
  bits := rfl

/-- A COMPRESS that ends without a raise leaves a container that spells its input. -/
theorem compress_spells {s t : State} (h : unitRun .compress s = .ended t) :
    ∃ es pad payload xs, Spells s.cfg t.dstBytes es pad payload xs ∧ xs.map (·.sym) = s.srcBytes := by
  by_cases hz : s.srcLen = 0
  · rcases compress_empty_outcome hz with ⟨r, hr, hc⟩ | ⟨_, _, _, _, hr, -⟩ <;> cases h.symm.trans hr
    exact ⟨_, _, _, _, hc.spells, by simp [State.srcBytes, hz]⟩
  · rcases compress_outcome hz with ⟨r, hr, hc⟩ | ⟨_, _, _, _, hr, -⟩ <;> cases h.symm.trans hr
    obtain ⟨xs, hspells, hsym⟩ := hc.spells
    exact ⟨_, _, _, xs, hspells, hsym⟩

theorem length_dstBytes (s : State) : s.dstBytes.length = s.dstLen.toNat := by simp [State.dstBytes]

/-- COMPRESS without a CapacityFault succeeds: it records no other fault. -/
theorem exec_compress_succeeded {s t : State} (he : s.status.err = false) (h : exec .compress s = .next t)
    (hcap : ¬ (t.status.err = true ∧ t.err.kind = 4)) : Succeeded t := by
  obtain ⟨t', h', hok | ⟨-, herr, hkind, -⟩⟩ := compressFailsOnlyOnCapacity s he <;> cases h.symm.trans h'
  · exact hok
  · exact absurd ⟨herr, hkind⟩ hcap

/-- Settles O49: the container spells the input, so DECOMPRESS gives the input or has no room for it. -/
theorem roundTrip : Obligations.RoundTrip := by
  intro s t u he h hcap heu hcfg hsrc
  have hok := exec_compress_succeeded he h hcap
  obtain ⟨r, hrun, rfl⟩ := unitRun_of_succeeded he h hok
  obtain ⟨es, pad, payload, xs, hspells, hsym⟩ := compress_spells hrun
  have hsrc : u.srcBytes = r.dstBytes := hsrc
  rw [← hcfg, ← hsrc] at hspells
  refine ⟨hok, ?_⟩
  rcases decompress_outcome hspells with ⟨-, v, hv, hout⟩ | ⟨-, v, hv⟩
  · obtain ⟨hexec, hsucc⟩ := exec_ended heu hv
    rw [hsym] at hout
    refine ⟨_, hexec, fun _ => ⟨hsucc, BitVec.eq_of_toNat_eq ?_, hout⟩⟩
    rw [setDone_dstLen, ← length_dstBytes, hout, length_srcBytes]
  · obtain ⟨hexec, hfault⟩ := exec_raised heu hv
    obtain ⟨-, herr, -, -⟩ := hfault
    exact ⟨_, hexec, fun hno => absurd ⟨herr, rfl⟩ hno⟩

end Sys2Proof.Proofs
end

section
/-! PROOFS. 60_exceptions.md R200 to R225, 70_reset_and_hazards.md R230: no step stops the machine, fault entry, the
reset move and the idle step. -/

namespace Sys2Proof.Proofs

open Sys2Proof.Machine Sys2Proof.Safety Sys2Proof.Laws

/-! ### No step stops the machine -/

/-- From a tree every unit of a command starts from a tree, and there no unit stops the model. -/
theorem unitRun_not_stuck {s : State} (i : Instr) (hs : TreeInv s) (f : Fault) : unitRun i s ≠ .stuck f := by
  intro h
  have hrun := runUnits_induct TreeInv (us := unitsOf i (s.setDone false)) (fun _ _ _ _ ht hr => run_treeInv ht hr)
    (startOf_treeInv i hs)
  rw [← unitRun, h] at hrun
  obtain ⟨t, ht, v, -, hv⟩ := hrun
  exact run_not_stuck ht f hv

theorem exec_answers {s : State} (i : Instr) (hs : TreeInv s) : ∃ t, exec i s = .next t := by
  by_cases hruns : s.status.err = false ∨ i = .clr
  · rw [exec_runs hruns, ← unitRun]
    cases hr : unitRun i s with
    | ended r => exact ⟨_, rfl⟩
    | raised r u c k => exact ⟨_, rfl⟩
    | stuck f => exact absurd hr (unitRun_not_stuck i hs f)
  · obtain ⟨he, hi⟩ := not_or.mp hruns
    exact ⟨s, exec_ignored (Bool.eq_true_of_not_eq_false he) hi⟩

/-- A reserved word answers from every state, a command from a tree. -/
theorem command_answers {s : State} (w : Byte) (hs : TreeInv s) : ∃ t, command w s = .next t := by
  cases hd : decodeWord w with
  | ok i =>
    rw [command_of_decode s hd]
    exact exec_answers i hs
  | error e =>
    rw [command_of_reserved s hd]
    exact ⟨_, execIllegal_eq w s (reserved_ne hd _)⟩

/-- Settles O59: of the three kinds of a step only a command could stop. -/
theorem stepNeverStops : Obligations.StepNeverStops := by
  intro s hs
  rcases step_cases s with ⟨-, hst⟩ | ⟨v, rest, -, hst⟩ | ⟨m, rest, -, -, hst⟩
  · exact ⟨_, hst⟩
  · rw [hst]
    exact command_answers _ (treeInv_stepInvariant.taken rest hs)
  · exact ⟨_, hst⟩

/-! ### Fault entry -/

/-- What clearing the destinations of every unit but `v` and `w` keeps, the entry of a reserved word, which has no
destinations, keeps too. -/
theorem clearDest_keeps {P : State → Prop} {s : State} {v w : UnitId} (hs : P s)
    (hunit : ∀ {x : UnitId}, x ≠ v → x ≠ w → P (s.clearDest (some x))) {u : Option UnitId} (hv : u ≠ some v)
    (hw : u ≠ some w) : P (s.clearDest u) := by
  cases u with
  | none => exact hs
  | some x => exact hunit (hv <| congrArg some ·) (hw <| congrArg some ·)

/-- Settles O12: each group of elements is cleared for the two units that write it and kept for the others. -/
theorem faultEntryClearsDestinations : Obligations.FaultEntryClearsDestinations := by
  intro s op u c info
  refine ⟨rfl, toNat_errInfoWord, takeFault_status .., ?input, takeFault_ft .., ?model, ?noTree, ?tree, ?noCode, ?code,
    ?noPayload, ?payload, ?noOutput, ?output⟩
  case input => exact ⟨takeFault_srcLen .., fun a => by simp only [readByte, takeFault_src]⟩
  case model => exact ⟨takeFault_cfg .., takeFault_host .., takeFault_reply .., takeFault_draws ..⟩
  case noTree => rintro (rfl | rfl) <;> exact ⟨rfl, rfl, rfl⟩
  case tree => exact clearDest_keeps (P := SameTree s) ⟨rfl, rfl, rfl⟩ (clearDest_sameTree s)
  case noCode => rintro (rfl | rfl) <;> exact tableGet_emptyCode
  case code => exact clearDest_keeps (P := fun t => t.ct = s.ct) rfl (clearDest_ct s)
  case noPayload => rintro (rfl | rfl) <;> exact ⟨rfl, rfl⟩
  case payload =>
    exact clearDest_keeps (P := SamePayload s) (samePayload_of_pay_eq rfl rfl rfl) (clearDest_samePayload s)
  case noOutput => rintro (rfl | rfl) <;> rfl
  case output => exact clearDest_keeps (P := SameOutput s) (sameOutput_of_dst_eq rfl rfl) (clearDest_sameOutput s)

/-- Settles O11: a table of constants, by computation. -/
theorem faultCodes : Obligations.FaultCodes := rfl

/-! ### Idle and reset -/

/-- Settles O50. -/
theorem idleHoldsTheState : Obligations.IdleHoldsTheState := fun _ h => step_idle h

/-- Settles O10: reset is a move like any other, and clears the state. -/
theorem resetMoveGivesResetValues : Obligations.ResetMoveGivesResetValues := fun _ _ h => step_move h nofun

end Sys2Proof.Proofs
end
